-- ==== Sys2Proof/Word.lean ====
section
/-! DEFINITION. The widths of L3HD: bytes, 16-bit halves (IS, PCM, table words), 32-bit words (registers,
binary32 encodings) and 16-bit host addresses (00_scope.md R7, 20_memory.md R80). -/

namespace Sys2Proof

abbrev Byte := BitVec 8
abbrev Half := BitVec 16
abbrev Word := BitVec 32
abbrev Address := BitVec 16

end Sys2Proof
end

