-- ==== Sys2Proof/Machine/Bytes.lean ====
section
/-! DEFINITION. Byte order and bit fields: every multi-byte element and access is little-endian (20_memory.md R81). -/

namespace Sys2Proof

/-- Byte `j` of a word, byte 0 the least significant (R81). -/
def Word.byteAt (w : Word) (j : Nat) : Byte := w.extractLsb' (8 * j) 8

/-- The four bytes of a word in increasing address order (R81). -/
def Word.bytes (w : Word) : List Byte := [w.byteAt 0, w.byteAt 1, w.byteAt 2, w.byteAt 3]

/-- The two bytes of a half in increasing address order (R81). -/
def Half.bytes (h : Half) : List Byte := [h.extractLsb' 0 8, h.extractLsb' 8 8]

/-- The word whose bytes at increasing addresses are `b0` to `b3` (R81). -/
def wordOfBytes (b0 b1 b2 b3 : Byte) : Word := b3 ++ b2 ++ b1 ++ b0

/-- The half whose bytes at increasing addresses are `b0` and `b1` (R81). -/
def halfOfBytes (b0 b1 : Byte) : Half := b1 ++ b0

/-- The field of `w` of `n` bits from bit `lo` up, as a number: `w[lo+n-1 : lo]` (00_scope.md R8). -/
def Word.field (w : Word) (lo n : Nat) : Nat := (w.extractLsb' lo n).toNat

end Sys2Proof
end

