-- ==== Sys2Proof/Syntax.lean ====
section
/-! DEFINITION. The instructions: one constructor for each row of spec/opcode_table.json. The commands carry the CMD
fields their row of 30_encoding.md R111 lists and no other (R112); the three Huffman table words carry the fields of R121. -/

namespace Sys2Proof

/-- CMD.BT, the block type (10_state.md R33): 0 normal, 1 start, 2 short, 3 stop. -/
inductive BlockType where
  | normal | start | short | stop
  deriving DecidableEq, Repr

/-- CMD.CH, the channel whose carried state a command uses (10_state.md R33). -/
inductive Channel where
  | left | right
  deriving DecidableEq, Repr

/-- CMD.NCH, the PCM packing of SYNTH (10_state.md R33): 0 mono, 1 stereo. -/
inductive Packing where
  | mono | stereo
  deriving DecidableEq, Repr

inductive Instr where
  /-- OP 0 (44_control.md R290). -/
  | nop
  /-- OP 1 (40_huffman.md R150). -/
  | huff
  /-- OP 2 (41_antialias.md R210): the mnemonic ALIAS. -/
  | antialias (bt : BlockType) (mixed : Bool)
  /-- OP 3 (42_hybrid_imdct.md R230). -/
  | hybrid (ch : Channel) (bt : BlockType) (mixed : Bool)
  /-- OP 4 (43_synthesis.md R260). -/
  | synth (ch : Channel) (nch : Packing)
  /-- OP 5 (44_control.md R291). -/
  | clrstate (ch : Channel)
  /-- OP 6 and 7 (44_control.md R292). -/
  | reserved67 (op : BitVec 4)
  /-- OP 8 to 15 (44_control.md R292). -/
  | reserved8to15 (op : BitVec 4)
  /-- A Huffman table word e < 0, with `offset` = -e (30_encoding.md R121). -/
  | htabBranch (offset : Nat)
  /-- A leaf word of a pair table (30_encoding.md R121). -/
  | htabLeafPair (x y : Fin 16)
  /-- A leaf word of a quad table (30_encoding.md R121). -/
  | htabLeafQuad (v w x y : Bool)
  deriving DecidableEq, Repr

end Sys2Proof
end

