-- ==== Sys2Proof/WellFormed.lean ====
section
/-! DEFINITION. Which instruction terms some word encodes: the checks the types of the fields do not make themselves. -/

namespace Sys2Proof

/-- A reserved row holds only its own opcodes (44_control.md R292); a branch word is a negative 16-bit number, so its
offset -e is 1 to 32768 (30_encoding.md R120, R121). -/
def WellFormed : Instr → Bool
  | .nop => true
  | .huff => true
  | .antialias _ _ => true
  | .hybrid _ _ _ => true
  | .synth _ _ => true
  | .clrstate _ => true
  | .reserved67 op => decide (op.toNat = 6) || decide (op.toNat = 7)
  | .reserved8to15 op => decide (8 ≤ op.toNat)
  | .htabBranch offset => decide (1 ≤ offset) && decide (offset ≤ 32768)
  | .htabLeafPair _ _ => true
  | .htabLeafQuad _ _ _ _ => true

end Sys2Proof
end

