-- ==== Sys2Proof/Decode.lean ====
section
/-! DEFINITION. The decoder of the command word (30_encoding.md R110, R111) and of the Huffman table words (R121), total on
any bytes, and the encoder written from the same tables. -/

namespace Sys2Proof

/-- What the bytes are read as. A command comes from CMD; a table word comes from a pair table or a quad table of HTAB,
and which of the two decides how a leaf is laid out (30_encoding.md R121). -/
inductive Form where
  | command | pairWord | quadWord
  deriving DecidableEq, Repr

/-- Why bytes hold no instruction. -/
inductive DecodeError where
  /-- Fewer bytes than the form's word has (R114: four for a command; R120: two for a table word). -/
  | truncated
  /-- A non-negative table word above 255 in a pair table (R121 gives a leaf e[15:8] = 0). -/
  | notAPairLeaf
  /-- A non-negative table word above 15 in a quad table (R121 gives a leaf e[15:4] = 0). -/
  | notAQuadLeaf
  deriving DecidableEq, Repr

/-- CMD[9:8] (10_state.md R33). -/
def BlockType.ofBits (b : BitVec 2) : BlockType :=
  match b.toNat with
  | 0 => .normal
  | 1 => .start
  | 2 => .short
  | _ => .stop

def BlockType.bits : BlockType → BitVec 2
  | .normal => 0
  | .start => 1
  | .short => 2
  | .stop => 3

/-- CMD[4] (10_state.md R33). -/
def Channel.ofBit (b : Bool) : Channel := if b then .right else .left

def Channel.bit : Channel → Bool
  | .left => false
  | .right => true

/-- CMD[12] (10_state.md R33). -/
def Packing.ofBit (b : Bool) : Packing := if b then .stereo else .mono

def Packing.bit : Packing → Bool
  | .mono => false
  | .stereo => true

/-- The opcode map (30_encoding.md R111) on a command word laid out as R110 says. Fields a row does not list, and the
reserved bits, are not looked at (R112). -/
def decodeCommand (w : Word) : Instr :=
  match (w.extractLsb' 0 4).toNat with
  | 0 => .nop
  | 1 => .huff
  | 2 => .antialias (BlockType.ofBits (w.extractLsb' 8 2)) (w.getLsbD 10)
  | 3 => .hybrid (Channel.ofBit (w.getLsbD 4)) (BlockType.ofBits (w.extractLsb' 8 2)) (w.getLsbD 10)
  | 4 => .synth (Channel.ofBit (w.getLsbD 4)) (Packing.ofBit (w.getLsbD 12))
  | 5 => .clrstate (Channel.ofBit (w.getLsbD 4))
  | 6 => .reserved67 (w.extractLsb' 0 4)
  | 7 => .reserved67 (w.extractLsb' 0 4)
  | _ => .reserved8to15 (w.extractLsb' 0 4)

/-- A pair table word (30_encoding.md R121): a branch when e < 0, else a leaf x = e >> 4, y = e & 0xF. -/
def decodePairWord (e : Half) : Except DecodeError Instr :=
  if e.getLsbD 15 then .ok (.htabBranch (65536 - e.toNat))
  else if e.toNat < 256 then
    .ok (.htabLeafPair (Fin.ofNat 16 (e.toNat / 16)) (Fin.ofNat 16 e.toNat))
  else .error .notAPairLeaf

/-- A quad table word (30_encoding.md R121): a branch when e < 0, else a leaf with v, w, x, y in bits 3, 2, 1, 0. -/
def decodeQuadWord (e : Half) : Except DecodeError Instr :=
  if e.getLsbD 15 then .ok (.htabBranch (65536 - e.toNat))
  else if e.toNat < 16 then
    .ok (.htabLeafQuad (e.getLsbD 3) (e.getLsbD 2) (e.getLsbD 1) (e.getLsbD 0))
  else .error .notAQuadLeaf

/-- A table word of either kind of table. -/
def decodeTableHalf : Form → Half → Except DecodeError Instr
  | .quadWord, e => decodeQuadWord e
  | .command, e => decodePairWord e
  | .pairWord, e => decodePairWord e

/-- The instruction at the head of a list of bytes and the bytes after it. Words are little-endian (20_memory.md R81). -/
def decode (form : Form) (bytes : List Byte) : Except DecodeError (Instr × List Byte) :=
  match form with
  | .command =>
    match bytes with
    | b0 :: b1 :: b2 :: b3 :: rest => .ok (decodeCommand (wordOfBytes b0 b1 b2 b3), rest)
    | _ => .error .truncated
  | f =>
    match bytes with
    | b0 :: b1 :: rest =>
      match decodeTableHalf f (halfOfBytes b0 b1) with
      | .ok i => .ok (i, rest)
      | .error e => .error e
    | _ => .error .truncated

/-- The form an instruction is decoded as. A branch word reads the same in both kinds of table. -/
def Instr.form : Instr → Form
  | .nop => .command
  | .huff => .command
  | .antialias _ _ => .command
  | .hybrid _ _ _ => .command
  | .synth _ _ => .command
  | .clrstate _ => .command
  | .reserved67 _ => .command
  | .reserved8to15 _ => .command
  | .htabBranch _ => .pairWord
  | .htabLeafPair _ _ => .pairWord
  | .htabLeafQuad _ _ _ _ => .quadWord

/-- A command word from its fields (30_encoding.md R110), reserved bits 0. -/
def commandWord (op : Nat) (ch : Bool) (bt : BitVec 2) (mixed nch : Bool) : Word :=
  BitVec.ofNat 32 (op + 16 * ch.toNat + 256 * bt.toNat + 1024 * mixed.toNat + 4096 * nch.toNat)

/-- The four bytes of a command, or the two of a table word, in increasing address order (R81). -/
def encode : Instr → List Byte
  | .nop => Word.bytes (commandWord 0 false 0 false false)
  | .huff => Word.bytes (commandWord 1 false 0 false false)
  | .antialias bt mixed => Word.bytes (commandWord 2 false bt.bits mixed false)
  | .hybrid ch bt mixed => Word.bytes (commandWord 3 ch.bit bt.bits mixed false)
  | .synth ch nch => Word.bytes (commandWord 4 ch.bit 0 false nch.bit)
  | .clrstate ch => Word.bytes (commandWord 5 ch.bit 0 false false)
  | .reserved67 op => Word.bytes (commandWord op.toNat false 0 false false)
  | .reserved8to15 op => Word.bytes (commandWord op.toNat false 0 false false)
  | .htabBranch offset => Half.bytes (BitVec.ofNat 16 (65536 - offset))
  | .htabLeafPair x y => Half.bytes (BitVec.ofNat 16 (16 * x.val + y.val))
  | .htabLeafQuad v w x y =>
    Half.bytes (BitVec.ofNat 16 (8 * v.toNat + 4 * w.toNat + 2 * x.toNat + y.toNat))

/-- The form a bare 16-bit table word is read in when nothing says which table it comes from: the most specific row of
spec/opcode_table.json that matches it (a word 0 to 15 fits HTAB_LEAF_QUAD and HTAB_LEAF_PAIR). DESIGN CHOICE, log 11. -/
def bareTableForm (w : Nat) : Form := if w < 16 then .quadWord else .pairWord

/-- The instruction read from an instruction whose bits are `w`, as spec/opcode_table.json numbers them: a command row
has 32 bits, a table-word row 16. -/
def decodeTableWord (nbits w : Nat) : Option Instr :=
  if nbits ≤ 16 then
    match decode (bareTableForm w) (Half.bytes (BitVec.ofNat 16 w)) with
    | .ok (i, _) => some i
    | .error _ => none
  else
    match decode .command (Word.bytes (BitVec.ofNat 32 w)) with
    | .ok (i, _) => some i
    | .error _ => none

end Sys2Proof
end

