-- ==== Sys2Proof/Machine/Float.lean ====
section
/-! DEFINITION. IEEE 754 binary32 arithmetic on bit patterns (41_antialias.md R216 to R218): every finite binary32 value is
a whole number of units of 2^-149, so each operation is computed exactly in integers and rounded once, to nearest, ties to
even. No flush to zero, no fused operation, no exception flags. -/

namespace Sys2Proof.F32

/-- The sign bit. -/
def sign (w : Word) : Bool := w.getLsbD 31

/-- The biased exponent field. -/
def expo (w : Word) : Nat := w.toNat / 2 ^ 23 % 256

/-- The fraction field. -/
def frac (w : Word) : Nat := w.toNat % 2 ^ 23

def isFinite (w : Word) : Bool := decide (expo w ≠ 255)

def isNaN (w : Word) : Bool := decide (expo w = 255) && decide (frac w ≠ 0)

def isInf (w : Word) : Bool := decide (expo w = 255) && decide (frac w = 0)

/-- +0 or -0. -/
def isZero (w : Word) : Bool := decide (expo w = 0) && decide (frac w = 0)

/-- The magnitude of a finite value, in units of 2^-149. -/
def magUnits (w : Word) : Nat :=
  if expo w = 0 then frac w else (2 ^ 23 + frac w) <<< (expo w - 1)

/-- A finite value, in units of 2^-149. -/
def units (w : Word) : Int := if sign w then -(magUnits w : Int) else magUnits w

/-- The largest finite value, (2^24 - 1) * 2^104, in units of 2^-149: the ends of the binary32 range (41_antialias.md R218;
log 20). -/
def maxUnits : Nat := (2 ^ 24 - 1) * 2 ^ 253

/-- +0.0 (20_memory.md R89: the encoding 0x00000000). -/
def plusZero : Word := 0#32

/-- The encoding of infinity without its sign. -/
def infPattern : Nat := 0x7F800000

/-- A NaN inside an operation; which NaN software sees is drawn where a result is stored (R218). -/
def nan : Word := 0x7FC00000#32

/-- `m / 2^q` rounded to the nearest integer, ties to even. -/
def roundQuot (m q : Nat) : Nat :=
  let r := m >>> q
  let unit := 1 <<< q
  let twice := 2 * (m - (r <<< q))
  if unit < twice then r + 1
  else if twice = unit then r + r % 2
  else r

/-- The encoding, less the sign, of the binary32 nearest to `m` units of 2^-(149+k): the quantum is the larger of one
unit of 2^-149 and the one that leaves 24 significant bits; a carry into the exponent and the subnormal range come out of
the sum; past the largest finite value the result is infinity. -/
def roundMag (m k : Nat) : Nat :=
  let q := max k (Nat.log2 m - 23)
  let pattern := (q - k) * 2 ^ 23 + roundQuot m q
  if infPattern ≤ pattern then infPattern else pattern

/-- An encoding from a sign and the rest. -/
def withSign (neg : Bool) (pattern : Nat) : Word := BitVec.ofNat 32 (pattern + 2 ^ 31 * neg.toNat)

/-- The sign bit flipped, exactly (43_synthesis.md R262). -/
def neg (w : Word) : Word := w ^^^ 0x80000000#32

/-- One binary32 multiplication (41_antialias.md R216). -/
def mul (a b : Word) : Word :=
  if isNaN a || isNaN b then nan
  else if isInf a || isInf b then
    if isZero a || isZero b then nan else withSign (sign a != sign b) infPattern
  else withSign (sign a != sign b) (roundMag (magUnits a * magUnits b) 149)

/-- One binary32 addition (41_antialias.md R216). An exact sum of zero is +0 unless both operands are negative (R217). -/
def add (a b : Word) : Word :=
  if isNaN a || isNaN b then nan
  else if isInf a then
    if isInf b && (sign a != sign b) then nan else withSign (sign a) infPattern
  else if isInf b then withSign (sign b) infPattern
  else
    let z := units a + units b
    if z = 0 then withSign (sign a && sign b) 0
    else withSign (decide (z < 0)) (roundMag z.natAbs 0)

/-- One binary32 subtraction (41_antialias.md R216). -/
def sub (a b : Word) : Word := add a (neg b)

/-- A NaN whose sign and payload are those of a free word (41_antialias.md R218); every NaN is one of these. -/
def nanOf (draw : Word) : Word :=
  if frac draw = 0 then nan ||| draw else draw ||| BitVec.ofNat 32 infPattern

/-- A result as software may see it: a NaN's sign and payload are free (41_antialias.md R218), any other result is exact. -/
def settle (draw r : Word) : Word := if isNaN r then nanOf draw else r

end Sys2Proof.F32
end

