-- ==== Sys2Proof/Machine/Exact.lean ====
section
/-! DEFINITION. The exact real formulas that HYBRID and SYNTH approximate (42_hybrid_imdct.md R232 to R234,
43_synthesis.md R264, R267). They are real-valued, so they stand only inside propositions: no step evaluates one. -/

namespace Sys2Proof

/-- The window of a long transform (42_hybrid_imdct.md R233): windows 0, 1 and 3. -/
inductive LongWindow where
  | normal | start | stop
  deriving DecidableEq, Repr

namespace Exact

/-- The real number a finite binary32 encoding stands for (41_antialias.md R216). -/
noncomputable def real (w : Word) : ℝ := (F32.units w : ℝ) / 2 ^ 149

/-- Whether an exact value lies within the binary32 range (41_antialias.md R218): no larger in magnitude than the
largest finite value (2^24 - 1) * 2^104. -/
def InRange (e : ℝ) : Prop := |e| ≤ (2 ^ 24 - 1) * 2 ^ 104

/-- Every input is finite (41_antialias.md R218 leaves an output open where one of its inputs is NaN or infinite). -/
def AllFinite {n : Nat} (X : Fin n → Word) : Prop := ∀ k, F32.isFinite (X k) = true

/-- Every input is +0 or -0 (42_hybrid_imdct.md R237). -/
def AllZero {n : Nat} (X : Fin n → Word) : Prop := ∀ k, F32.isZero (X k) = true

/-- The sum of magnitudes A of 42_hybrid_imdct.md R245 and 43_synthesis.md R276. -/
noncomputable def absSum {n : Nat} (X : Fin n → Word) : ℝ := ∑ k, |real (X k)|

/-- Windows 0, 1 and 3 at i = 0 to 35 (42_hybrid_imdct.md R233). -/
noncomputable def longWindow (b : LongWindow) (i : Nat) : ℝ :=
  match b with
  | .normal => Real.sin (Real.pi / 36 * (i + 1 / 2))
  | .start =>
    if i < 18 then Real.sin (Real.pi / 36 * (i + 1 / 2))
    else if i < 24 then 1
    else if i < 30 then Real.sin (Real.pi / 12 * (i - 18 + 1 / 2))
    else 0
  | .stop =>
    if i < 6 then 0
    else if i < 12 then Real.sin (Real.pi / 12 * (i - 6 + 1 / 2))
    else if i < 18 then 1
    else Real.sin (Real.pi / 36 * (i + 1 / 2))

/-- Window 2 at i = 0 to 11 of each 12-point window (42_hybrid_imdct.md R233). -/
noncomputable def shortWindow (i : Nat) : ℝ := Real.sin (Real.pi / 12 * (i + 1 / 2))

/-- The 36-point IMDCT with its window (42_hybrid_imdct.md R232). -/
noncomputable def long (b : LongWindow) (X : Fin 18 → Word) (i : Fin 36) : ℝ :=
  longWindow b i * ∑ k : Fin 18, real (X k) * Real.cos (Real.pi / 72 * (2 * i + 19) * (2 * k + 1))

/-- Coefficient `k` of window `w` in the interleaved input (42_hybrid_imdct.md R235). -/
def shortInput (X : Fin 18 → Word) (w : Fin 3) (k : Fin 6) : Word :=
  X ⟨3 * k.val + w.val, by omega⟩

/-- One 12-point IMDCT (42_hybrid_imdct.md R234). -/
noncomputable def short12 (X : Fin 18 → Word) (w : Fin 3) (i : Fin 12) : ℝ :=
  ∑ k : Fin 6, real (shortInput X w k) * Real.cos (Real.pi / 24 * (2 * i + 7) * (2 * k + 1))

/-- The three windowed 12-point outputs placed at 6 + 6w + i and added (42_hybrid_imdct.md R234). -/
noncomputable def short (X : Fin 18 → Word) (j : Fin 36) : ℝ :=
  ∑ w : Fin 3, ∑ i : Fin 12, if j.val = 6 + 6 * w.val + i.val then shortWindow i * short12 X w i else 0

/-- Where window 1 or 3 is exactly 0 (42_hybrid_imdct.md R245). -/
def longEdge (b : LongWindow) (i : Nat) : Bool :=
  match b with
  | .normal => false
  | .start => decide (30 ≤ i)
  | .stop => decide (i < 6)

/-- Where no short window reaches (42_hybrid_imdct.md R234, R245). -/
def shortEdge (j : Nat) : Bool := decide (j < 6) || decide (30 ≤ j)

/-- The synthesis matrix (43_synthesis.md R264). -/
noncomputable def matrix (S : Fin 32 → Word) (i : Fin 64) : ℝ :=
  ∑ k : Fin 32, Real.cos ((16 + i) * (2 * k + 1) * Real.pi / 64) * real (S k)

/-- The 16 entries of U that output `j` folds (43_synthesis.md R267). -/
def foldInput (U : Fin 512 → Word) (j : Fin 32) (m : Fin 16) : Word :=
  U ⟨j.val + 32 * m.val, by omega⟩

/-- The term of tap `m` of output `j`: U[j + 32m] * SYNTH_D[j + 32m] (43_synthesis.md R267). -/
noncomputable def foldTerm (d : Fin 512 → Rat) (U : Fin 512 → Word) (j : Fin 32) (m : Fin 16) : ℝ :=
  real (foldInput U j m) * ((d ⟨j.val + 32 * m.val, by omega⟩ : Rat) : ℝ)

/-- The amplitude 32768 * y[j] (43_synthesis.md R267, R268). -/
noncomputable def amplitude (d : Fin 512 → Rat) (U : Fin 512 → Word) (j : Fin 32) : ℝ :=
  32768 * ∑ m : Fin 16, foldTerm d U j m

end Exact
end Sys2Proof
end

