-- ==== Sys2Proof/Config.lean ====
section
/-! DEFINITION. What is fixed for the machine: the parameters of 00_scope.md R6, the ROM parameters of 10_state.md R54,
and the free values. An OPEN parameter is an opaque constant without a body; where the spec puts conditions on it, its type
holds their proofs, so that nothing is known of it but the conditions. -/

namespace Sys2Proof

/-! ## Numbers -/

/-- ID_VALUE (10_state.md R32, D45). -/
def Config.idValue : Word := 0x4C334844#32

/-- The limit of bit positions, 8 * MDB_BYTES (20_memory.md R86). -/
def Config.mdbBits : Nat := 32768

/-- BV_MAX (00_scope.md R6). -/
def Config.bvMax : Nat := 288

/-- NCOEF (00_scope.md R6). -/
def Config.ncoef : Nat := 576

/-- The OPEN parameter OVERRUN_SLACK (00_scope.md R6, 92_eei_decisions.md D10): the default 0 or the alternative 1, log 8. -/
opaque Config.openOverrunSlack : Fin 2

/-- OVERRUN_SLACK, in bits (40_huffman.md R167). -/
def Config.overrunSlack : Nat := Config.openOverrunSlack.val

theorem Config.overrunSlack_le : Config.overrunSlack ≤ 1 := Nat.le_of_lt_succ Config.openOverrunSlack.isLt

/-- The two readings of PCM rounding (43_synthesis.md R270). -/
inductive PcmRounding where
  | truncHalfNeg | truncResultNeg
  deriving DecidableEq, Repr, Inhabited

/-- The OPEN parameter PCM_ROUNDING (00_scope.md R6, 92_eei_decisions.md D24): either reading, log 9. -/
opaque Config.pcmRounding : PcmRounding

/-! ## Huffman tables -/

/-- LINBITS[t] (30_encoding.md R124); 4 and 14 are not tables and are never looked up (40_huffman.md R155). -/
def Config.linbits (t : Nat) : Nat :=
  [0, 0, 0, 0, 0, 0, 0, 0, 0, 0, 0, 0, 0, 0, 0, 0,
   1, 2, 3, 4, 6, 8, 10, 13, 4, 5, 6, 7, 8, 9, 11, 13].getD t 0

/-- size(t), the range of x and y of pair table t (30_encoding.md R124). -/
def Config.tableSize (t : Nat) : Nat :=
  [1, 2, 3, 3, 16, 4, 4, 6, 6, 6, 8, 8, 8, 16, 16, 16].getD t 16

/-- 30_encoding.md R123, for the walks that pass index `i`: they end at a leaf that `leafOk` accepts, inside the table.
A branch leads only to higher indices, so `fuel` = the table's length is never short. -/
def Config.walkOk (leafOk : Half → Bool) (ws : List Half) : Nat → Nat → Bool
  | 0, _ => false
  | fuel + 1, i =>
    match ws[i]? with
    | none => false
    | some e =>
      if e.getLsbD 15 then
        Config.walkOk leafOk ws fuel (i + 1) && Config.walkOk leafOk ws fuel (i + 1 + (65536 - e.toNat))
      else leafOk e

/-- A leaf of a pair table: bits 15:8 zero, x and y below the table's size (30_encoding.md R121, R123). -/
def Config.pairLeafOk (size : Nat) (e : Half) : Bool :=
  decide (e.toNat < 256) && decide (e.toNat / 16 < size) && decide (e.toNat % 16 < size)

/-- A leaf of a quad table is at most 15 (30_encoding.md R123). -/
def Config.quadLeafOk (e : Half) : Bool := decide (e.toNat ≤ 15)

/-- 30_encoding.md R123, the form of a table: every walk ends inside it, and every leaf of it, reached by a walk or not, is
one that `leafOk` accepts. -/
def Config.tableOk (leafOk : Half → Bool) (ws : List Half) : Bool :=
  Config.walkOk leafOk ws ws.length 0 && ws.all (fun e => e.getLsbD 15 || leafOk e)

/-- A code: its codewords, each with the leaf it stands for. -/
abbrev HuffmanCode := List (List Bool × Half)

/-- The code that the walks from index `i` spell (30_encoding.md R122): a codeword is the bits a walk reads. -/
def Config.codeFrom (ws : List Half) : Nat → Nat → HuffmanCode
  | 0, _ => []
  | fuel + 1, i =>
    match ws[i]? with
    | none => []
    | some e =>
      if e.getLsbD 15 then
        (Config.codeFrom ws fuel (i + 1)).map (fun c => (false :: c.1, c.2)) ++
          (Config.codeFrom ws fuel (i + 1 + (65536 - e.toNat))).map (fun c => (true :: c.1, c.2))
      else [([], e)]

/-- The code a table spells (30_encoding.md R123). -/
def Config.codeOf (ws : List Half) : HuffmanCode := Config.codeFrom ws ws.length 0

/-- The codewords of table A, in the order vwxy = 0000 to 1111 (30_encoding.md R127). -/
def Config.tableACodes : List (List Bool) :=
  [[true], [false, true, false, true], [false, true, false, false], [false, false, true, false, true],
   [false, true, true, false], [false, false, false, true, false, true], [false, false, true, false, false],
   [false, false, false, true, false, false],
   [false, true, true, true], [false, false, false, true, true], [false, false, true, true, false],
   [false, false, false, false, false, false],
   [false, false, true, true, true], [false, false, false, false, true, false], [false, false, false, false, true, true],
   [false, false, false, false, false, true]]

/-- The `n` bits of a number, the most significant first (20_memory.md R87). -/
def bitsMsb : Nat → Nat → List Bool
  | 0, _ => []
  | n + 1, v => v.testBit n :: bitsMsb n v

/-- The code of table A, and that of table B: vwxy coded as the 4 bits of 15 - vwxy (30_encoding.md R127). -/
def Config.quadCode (tableB : Bool) : HuffmanCode :=
  if tableB then (List.range 16).map (fun vwxy => (bitsMsb 4 (15 - vwxy), BitVec.ofNat 16 vwxy))
  else Config.tableACodes.zipIdx.map (fun c => (c.1, BitVec.ofNat 16 c.2))

/-- The ISO/IEC 11172-3 code of pair table `t`, which the spec does not reproduce: a code that some table of the right form
spells (30_encoding.md R123). -/
structure IsoCode (t : Nat) where
  code : HuffmanCode
  array : List Half
  ok : Config.tableOk (Config.pairLeafOk (Config.tableSize t)) array = true
  spells : (Config.codeOf array).Perm code

/-- Every table size is at least 1, so the single leaf 0 has the form of every table: the type is inhabited. -/
theorem Config.tableSize_pos (t : Nat) : 0 < Config.tableSize t := by
  unfold Config.tableSize
  by_cases h : t < 16
  · interval_cases t <;> decide
  · rw [List.getD_eq_default _ _ (by simpa using h)]; decide

def IsoCode.single (t : Nat) : IsoCode t where
  code := [([], 0#16)]
  array := [0#16]
  ok := by
    have h := Config.tableSize_pos t
    simp [Config.tableOk, Config.walkOk, Config.pairLeafOk, h]
  spells := by decide

/-- The ISO/IEC 11172-3 codes of the tables whose codes the spec does not give (91_not_in_source.md N11): nothing is known of
them but what `IsoCode` says, log 7. -/
opaque Config.openIsoCode [∀ t, Inhabited (IsoCode t)] : (t : Nat) → IsoCode t

def Config.isoCode (t : Nat) : IsoCode t := @Config.openIsoCode (fun t => ⟨IsoCode.single t⟩) t

/-- The code of pair table `t`: those of tables 0 and 1 are given (30_encoding.md R127). -/
def Config.pairCode : Nat → HuffmanCode
  | 0 => [([], 0x00#16)]
  | 1 => [([true], 0x00#16), ([false, true], 0x10#16), ([false, false, true], 0x01#16), ([false, false, false], 0x11#16)]
  | t + 2 => (Config.isoCode (t + 2)).code

/-- The words of pair table `t` with the conditions of 30_encoding.md R123, its form and the code it spells: an HTAB that
fails one is no value of this type. -/
structure PairTable (t : Nat) where
  words : List Half
  ok : Config.tableOk (Config.pairLeafOk (Config.tableSize t)) words = true
  spells : (Config.codeOf words).Perm (Config.pairCode t)

/-- The words of table A or B with the conditions of 30_encoding.md R123. -/
structure QuadTable (tableB : Bool) where
  words : List Half
  ok : Config.tableOk Config.quadLeafOk words = true
  spells : (Config.codeOf words).Perm (Config.quadCode tableB)

/-- pair[0] (30_encoding.md R127). -/
def PairTable.table0 : PairTable 0 where
  words := [0#16]
  ok := by decide
  spells := by decide

/-- pair[1] (30_encoding.md R127). -/
def PairTable.table1 : PairTable 1 where
  words := [(-5), (-3), (-1), 17, 1, 16, 0].map (BitVec.ofInt 16)
  ok := by decide
  spells := by decide

/-- The array that the code of a table comes with meets the conditions: the type is inhabited. -/
def PairTable.iso : (t : Nat) → PairTable t
  | 0 => PairTable.table0
  | 1 => PairTable.table1
  | t + 2 => ⟨(Config.isoCode (t + 2)).array, (Config.isoCode (t + 2)).ok, (Config.isoCode (t + 2)).spells⟩

/-- The OPEN pair tables (92_eei_decisions.md D5): any tables that meet the conditions. -/
opaque Config.openPairTable [∀ t, Inhabited (PairTable t)] : (t : Nat) → PairTable t

/-- quad[0], table A (30_encoding.md R127). -/
def QuadTable.tableA : QuadTable false where
  words := [(-29), (-21), (-13), (-7), (-3), (-1), 11, 15, (-1), 13, 14, (-3), (-1), 7, 5, 9, (-3), (-1), 6, 3, (-1),
    10, 12, (-3), (-1), 2, 1, (-1), 4, 8, 0].map (BitVec.ofInt 16)
  ok := by decide
  spells := by decide

/-- quad[1], table B (30_encoding.md R127). -/
def QuadTable.tableB : QuadTable true where
  words := [(-15), (-7), (-3), (-1), 15, 14, (-1), 13, 12, (-3), (-1), 11, 10, (-1), 9, 8, (-7), (-3), (-1), 7, 6,
    (-1), 5, 4, (-3), (-1), 3, 2, (-1), 1, 0].map (BitVec.ofInt 16)
  ok := by decide
  spells := by decide

/-- The table whose word array table `t` shares: 16 for 16 to 23, 24 for 24 to 31 (30_encoding.md R124). -/
def Config.codeTable (t : Nat) : Nat := if 24 ≤ t then 24 else if 16 ≤ t then 16 else t

/-- HTAB.pair[t] (30_encoding.md R120, R127). -/
def Config.pairWords (t : Nat) : List Half :=
  match t with
  | 0 => PairTable.table0.words
  | 1 => PairTable.table1.words
  | _ => (@Config.openPairTable (fun t => ⟨PairTable.iso t⟩) (Config.codeTable t)).words

/-- HTAB.quad[0] (table A) and HTAB.quad[1] (table B) (30_encoding.md R120, R127). -/
def Config.quadWords (tableB : Bool) : List Half :=
  if tableB then QuadTable.tableB.words else QuadTable.tableA.words

/-! ## Scale-factor bands and antialias constants -/

/-- SFB_LONG[sri][0..22] (30_encoding.md R128); `sri` 3 is reserved and is not looked up (40_huffman.md R151). -/
def Config.sfbLong (sri : Nat) : List Nat :=
  match sri with
  | 0 => [0, 4, 8, 12, 16, 20, 24, 30, 36, 44, 52, 62, 74, 90, 110, 134, 162, 196, 238, 288, 342, 418, 576]
  | 1 => [0, 4, 8, 12, 16, 20, 24, 30, 36, 42, 50, 60, 72, 88, 106, 128, 156, 190, 230, 276, 330, 384, 576]
  | _ => [0, 4, 8, 12, 16, 20, 24, 30, 36, 44, 54, 66, 82, 102, 126, 156, 194, 240, 296, 364, 448, 550, 576]

/-- cs_i (41_antialias.md R211). -/
def Config.cs : List Word :=
  [0x3F5B84A8#32, 0x3F61B9D8#32, 0x3F731ADD#32, 0x3F7BBA81#32, 0x3F7EDA41#32, 0x3F7FC8FD#32, 0x3F7FF965#32,
   0x3F7FFF8D#32]

/-- ca_i (41_antialias.md R211). -/
def Config.ca : List Word :=
  [0xBF03B5FE#32, 0xBEF186DA#32, 0xBEA07302#32, 0xBE3A4774#32, 0xBDC1B01D#32, 0xBD27CB87#32, 0xBC68A11D#32,
   0xBB727B46#32]

/-! ## The parameter FP -/

/-- FP.long, FP.short and TOL_IMDCT with the conditions of 42_hybrid_imdct.md R245. The first argument of a transform is
a draw: an output whose exact value is in the binary32 range does not depend on it (`_fixed`: the same inputs give the
same output), and an output that 41_antialias.md R218 leaves open may. -/
structure Imdct where
  tol : Rat
  long : Nat → LongWindow → (Fin 18 → Word) → Fin 36 → Word
  short : Nat → (Fin 18 → Word) → Fin 36 → Word
  long_close : ∀ n b X i, Exact.AllFinite X → Exact.InRange (Exact.long b X i) →
    F32.isFinite (long n b X i) = true ∧
      |Exact.real (long n b X i) - Exact.long b X i| ≤ (tol : ℝ) * Exact.absSum X
  long_fixed : ∀ n n' b X i, Exact.AllFinite X → Exact.InRange (Exact.long b X i) →
    long n b X i = long n' b X i
  long_silent : ∀ n b X i, Exact.AllZero X → long n b X i = F32.plusZero
  long_edge : ∀ n b X (i : Fin 36), Exact.AllFinite X → Exact.longEdge b i = true → long n b X i = F32.plusZero
  short_close : ∀ n X i, Exact.AllFinite X → Exact.InRange (Exact.short X i) →
    F32.isFinite (short n X i) = true ∧
      |Exact.real (short n X i) - Exact.short X i| ≤ (tol : ℝ) * Exact.absSum X
  short_fixed : ∀ n n' X i, Exact.AllFinite X → Exact.InRange (Exact.short X i) →
    short n X i = short n' X i
  short_silent : ∀ n X i, Exact.AllZero X → short n X i = F32.plusZero
  short_edge : ∀ n X (i : Fin 36), Exact.AllFinite X → Exact.shortEdge i = true → short n X i = F32.plusZero

/-- SYNTH_D (43_synthesis.md R266): 512 OPEN coefficients with the two anchors of a conforming table. -/
structure SynthWindow where
  d : Fin 512 → Rat
  anchor0 : d 0 = 0
  anchor256 : d 256 = 1144989014 / 1000000000

/-- FP.matrix, FP.window and TOL_SYNTH with the conditions of 43_synthesis.md R276; the first argument of a function is a
draw, as in `Imdct`. -/
structure Filterbank (d : Fin 512 → Rat) where
  tol : Rat
  matrix : Nat → (Fin 32 → Word) → Fin 64 → Word
  window : Nat → (Fin 512 → Word) → Fin 32 → Word
  matrix_close : ∀ n S i, Exact.AllFinite S → Exact.InRange (Exact.matrix S i) →
    F32.isFinite (matrix n S i) = true ∧
      |Exact.real (matrix n S i) - Exact.matrix S i| ≤ (tol : ℝ) * Exact.absSum S
  matrix_fixed : ∀ n n' S i, Exact.AllFinite S → Exact.InRange (Exact.matrix S i) →
    matrix n S i = matrix n' S i
  matrix_silent : ∀ n S i, Exact.AllZero S → matrix n S i = F32.plusZero
  window_close : ∀ n U j, Exact.AllFinite (Exact.foldInput U j) → Exact.InRange (Exact.amplitude d U j) →
    F32.isFinite (window n U j) = true ∧
      |Exact.real (window n U j) - Exact.amplitude d U j| ≤
        (tol : ℝ) * (32768 * ∑ m, |Exact.foldTerm d U j m|)
  window_fixed : ∀ n n' U j, Exact.AllFinite (Exact.foldInput U j) → Exact.InRange (Exact.amplitude d U j) →
    window n U j = window n' U j
  window_silent : ∀ n U j, Exact.AllZero (Exact.foldInput U j) → window n U j = F32.plusZero

/-! The types are inhabited: the functions that answer +0 everywhere meet the conditions with a large tolerance. -/

theorem Exact.real_plusZero : Exact.real F32.plusZero = 0 := by
  have h : F32.units F32.plusZero = 0 := by decide
  simp [Exact.real, h]

theorem Exact.isFinite_plusZero : F32.isFinite F32.plusZero = true := by decide

theorem Exact.absSum_nonneg {n : Nat} (X : Fin n → Word) : 0 ≤ Exact.absSum X :=
  Finset.sum_nonneg fun _ _ => abs_nonneg _

/-- A sum of inputs weighted by factors of magnitude at most 1 is at most the sum of their magnitudes. -/
theorem Exact.weighted_le {n : Nat} (x c : Fin n → ℝ) (hc : ∀ k, |c k| ≤ 1) :
    |∑ k, x k * c k| ≤ ∑ k, |x k| := by
  refine (Finset.abs_sum_le_sum_abs _ _).trans (Finset.sum_le_sum fun k _ => ?_)
  rw [abs_mul]
  exact mul_le_of_le_one_right (abs_nonneg _) (hc k)

theorem Exact.abs_longWindow_le (b : LongWindow) (i : Nat) : |Exact.longWindow b i| ≤ 1 := by
  unfold Exact.longWindow
  cases b <;> simp only <;> (try split_ifs) <;>
    first
      | exact Real.abs_sin_le_one _
      | simp

theorem Exact.abs_long_le (b : LongWindow) (X : Fin 18 → Word) (i : Fin 36) :
    |Exact.long b X i| ≤ Exact.absSum X := by
  unfold Exact.long Exact.absSum
  rw [abs_mul]
  refine (mul_le_of_le_one_left (abs_nonneg _) (Exact.abs_longWindow_le b i)).trans ?_
  exact Exact.weighted_le _ _ fun k => Real.abs_cos_le_one _

theorem Exact.abs_short12_le (X : Fin 18 → Word) (w : Fin 3) (i : Fin 12) :
    |Exact.short12 X w i| ≤ 6 * Exact.absSum X := by
  unfold Exact.short12
  refine (Exact.weighted_le _ _ fun k => Real.abs_cos_le_one _).trans ?_
  have h : ∀ k : Fin 6, |Exact.real (Exact.shortInput X w k)| ≤ Exact.absSum X := fun k =>
    Finset.single_le_sum (f := fun k => |Exact.real (X k)|) (fun _ _ => abs_nonneg _) (Finset.mem_univ _)
  exact (Finset.sum_le_sum fun k _ => h k).trans (by simp)

theorem Exact.abs_short_le (X : Fin 18 → Word) (j : Fin 36) :
    |Exact.short X j| ≤ 216 * Exact.absSum X := by
  have hA := Exact.absSum_nonneg X
  have term : ∀ (w : Fin 3) (i : Fin 12),
      |if j.val = 6 + 6 * w.val + i.val then Exact.shortWindow i * Exact.short12 X w i else 0|
        ≤ 6 * Exact.absSum X := by
    intro w i
    split_ifs
    · rw [abs_mul]
      exact (mul_le_of_le_one_left (abs_nonneg _) (Real.abs_sin_le_one _)).trans (Exact.abs_short12_le X w i)
    · simpa using hA
  unfold Exact.short
  refine (Finset.abs_sum_le_sum_abs _ _).trans ?_
  refine (Finset.sum_le_sum fun w _ => (Finset.abs_sum_le_sum_abs _ _).trans
    (Finset.sum_le_sum fun i _ => term w i)).trans ?_
  simp only [Finset.sum_const, Finset.card_univ, Fintype.card_fin, nsmul_eq_mul]
  push_cast
  linarith

theorem Exact.abs_matrix_le (S : Fin 32 → Word) (i : Fin 64) : |Exact.matrix S i| ≤ Exact.absSum S := by
  unfold Exact.matrix Exact.absSum
  simp only [mul_comm (Real.cos _)]
  exact Exact.weighted_le _ _ fun k => Real.abs_cos_le_one _

theorem Exact.abs_amplitude_le (d : Fin 512 → Rat) (U : Fin 512 → Word) (j : Fin 32) :
    |Exact.amplitude d U j| ≤ 32768 * ∑ m, |Exact.foldTerm d U j m| := by
  unfold Exact.amplitude
  rw [abs_mul, abs_of_nonneg (by norm_num : (0 : ℝ) ≤ 32768)]
  exact mul_le_mul_of_nonneg_left (Finset.abs_sum_le_sum_abs _ _) (by norm_num)

def Imdct.silent : Imdct where
  tol := 216
  long := fun _ _ _ _ => F32.plusZero
  short := fun _ _ _ => F32.plusZero
  long_close := fun _ b X i _ _ => ⟨Exact.isFinite_plusZero, by
    have h := Exact.abs_long_le b X i
    have hA := Exact.absSum_nonneg X
    rw [Exact.real_plusZero, zero_sub, abs_neg]
    push_cast
    linarith⟩
  long_fixed := fun _ _ _ _ _ _ _ => rfl
  long_silent := fun _ _ _ _ _ => rfl
  long_edge := fun _ _ _ _ _ _ => rfl
  short_close := fun _ X i _ _ => ⟨Exact.isFinite_plusZero, by
    have h := Exact.abs_short_le X i
    rw [Exact.real_plusZero, zero_sub, abs_neg]
    push_cast
    linarith⟩
  short_fixed := fun _ _ _ _ _ _ => rfl
  short_silent := fun _ _ _ _ => rfl
  short_edge := fun _ _ _ _ _ => rfl

def SynthWindow.anchors : SynthWindow where
  d := fun i => if i = 256 then 1144989014 / 1000000000 else 0
  anchor0 := by simp
  anchor256 := by simp

def Filterbank.silent (d : Fin 512 → Rat) : Filterbank d where
  tol := 1
  matrix := fun _ _ _ => F32.plusZero
  window := fun _ _ _ => F32.plusZero
  matrix_close := fun _ S i _ _ => ⟨Exact.isFinite_plusZero, by
    have h := Exact.abs_matrix_le S i
    rw [Exact.real_plusZero, zero_sub, abs_neg]
    push_cast
    linarith⟩
  matrix_fixed := fun _ _ _ _ _ _ => rfl
  matrix_silent := fun _ _ _ _ => rfl
  window_close := fun _ U j _ _ => ⟨Exact.isFinite_plusZero, by
    have h := Exact.abs_amplitude_le d U j
    rw [Exact.real_plusZero, zero_sub, abs_neg]
    push_cast
    linarith⟩
  window_fixed := fun _ _ _ _ _ _ => rfl
  window_silent := fun _ _ _ _ => rfl

/-- The implementation's IMDCT (92_eei_decisions.md D16): any that meets 42_hybrid_imdct.md R245. -/
opaque Config.openImdct [Inhabited Imdct] : Imdct

def Config.imdct : Imdct := @Config.openImdct ⟨Imdct.silent⟩

/-- The OPEN synthesis window (92_eei_decisions.md D23). -/
opaque Config.openSynthWindow [Inhabited SynthWindow] : SynthWindow

def Config.synthWindow : SynthWindow := @Config.openSynthWindow ⟨SynthWindow.anchors⟩

/-- The implementation's synthesis arithmetic (92_eei_decisions.md D16): any that meets 43_synthesis.md R276. -/
opaque Config.openFilterbank [∀ d, Inhabited (Filterbank d)] : (d : Fin 512 → Rat) → Filterbank d

def Config.filterbank : Filterbank Config.synthWindow.d :=
  @Config.openFilterbank (fun d => ⟨Filterbank.silent d⟩) Config.synthWindow.d

/-! ## Free values -/

/-- The value of draw number `n`, a number the spec calls UNSPECIFIED (00_scope.md R12): nothing is known of it. -/
opaque Config.freeWord : Nat → Word

end Sys2Proof
end

