-- ==== Sys2Proof/Machine/State.lean ====
section
/-! DEFINITION. The state of L3HD as plain data: every register, memory and piece of hidden state 10_state.md names, with
the inputs still to come (the model's own), the faults, the refusals and the state after reset. -/

namespace Sys2Proof.Machine

/-- STATUS.ERRCODE (60_exceptions.md R310); codes 6 to 15 never occur. -/
inductive ErrCode where
  | none | badOpcode | badTable | badSfb | mdbRange | badChannel
  deriving DecidableEq, Repr

/-- The stored fields of STATUS (10_state.md R35). BUSY is not here: it is 1 exactly when the sequencer phase is BUSY (R58). -/
structure Status where
  done : Bool
  err : Bool
  errCode : ErrCode
  bvClamp : Bool
  empty : Bool
  qRollback : Bool
  bvOverrun : Bool
  cmdDrop : Bool
  accErr : Bool
  deriving DecidableEq, Repr

/-- The command snapshot (10_state.md R59). -/
structure Snapshot where
  cmd : Word
  hufBitpos : Word
  hufPart2start : Word
  hufGranule : Word
  hufTables : Word
  hufSfbsel : Word
  deriving DecidableEq, Repr

/-- The sequencer phase (10_state.md R58); a busy sequencer holds the snapshot of its accepted START (R59). -/
inductive Phase where
  | idle
  | busy (snap : Snapshot)
  deriving DecidableEq, Repr

/-- Which table of HTAB a walk is in (30_encoding.md R120). -/
inductive TableId where
  | pair (t : BitVec 5)
  | quad (c1sel : Bool)
  deriving DecidableEq, Repr

/-- A table walk (30_encoding.md R122): its table, the index `i` and the table word `e` = T[i] just read. -/
structure Walk where
  table : TableId
  index : Nat
  word : Half
  deriving DecidableEq, Repr

/-- The leaf a walk answers (30_encoding.md R121). -/
inductive Leaf where
  | pair (x y : Fin 16)
  | quad (v w x y : Bool)
  deriving DecidableEq, Repr

/-- The hidden state of a HUFF stopped between two table words (10_state.md R46, R57): the cursor `pos`, the walk if one
runs, and the last leaf. A whole HUFF is one step (00_scope.md R11), so no step from reset leaves one behind (log 10). -/
structure Engine where
  pos : Nat
  walk : Option Walk
  decoded : Option Leaf
  deriving DecidableEq, Repr

/-- The width of a host access (20_memory.md R80). -/
inductive Width where
  | w1 | w2 | w4
  deriving DecidableEq, Repr

/-- What can happen to the block next (00_scope.md R13): a host access, the sequencer's step, or the reset input. -/
inductive Input where
  /-- A host read (20_memory.md R80). -/
  | read (addr : Address) (width : Width)
  /-- A host write (20_memory.md R80). -/
  | write (addr : Address) (width : Width) (value : Word)
  /-- The sequencer takes its step, if a command is running (70_reset_and_hazards.md R360). -/
  | sequencer
  /-- The platform applies the reset input (70_reset_and_hazards.md R340). -/
  | powerOn
  deriving DecidableEq, Repr

/-- The memories, as (host address, byte) cells (20_memory.md R88). -/
abbrev Memory := List Host.Cell

/-- Why the machine stops. -/
inductive Fault where
  /-- Raised by a host read and by HUFF, ALIAS, HYBRID, SYNTH and a table branch word when they read a memory byte that
  nothing has written (10_state.md R56, 93_implementation_defined.md U1, U2). Safe: nothing can be proved past it. -/
  | unwrittenRead
  /-- Raised by a table branch word whose next index lies outside its table; no walk of a well-formed table from index 0
  does so (30_encoding.md R123). Safe. -/
  | walkLeftTable
  deriving DecidableEq, Repr

/-- Why an instruction has no meaning. -/
inductive Refusal where
  /-- Raised by exec for an instruction not modelled yet; none is left. Safe. -/
  | notModelled (mnemonic : String)
  /-- Raised by a Huffman table word where no walk is running: the spec gives a table word a meaning only inside a walk
  (30_encoding.md R122). Safe. -/
  | noWalk
  /-- Raised by step where the current word of a walk is neither a branch nor a leaf of its kind of table; no well-formed
  table holds one that a walk reaches (30_encoding.md R121, R123). Safe. -/
  | notATableWord
  deriving DecidableEq, Repr

structure State where
  /-- CMD (10_state.md R33). -/
  cmd : Word
  /-- STATUS, all but BUSY (10_state.md R35). -/
  status : Status
  /-- IRQ_EN (10_state.md R36). -/
  irqEn : Word
  /-- HUF_BITPOS (10_state.md R37). -/
  hufBitpos : Word
  /-- HUF_PART2START (10_state.md R38). -/
  hufPart2start : Word
  /-- HUF_GRANULE (10_state.md R39). -/
  hufGranule : Word
  /-- HUF_TABLES (10_state.md R42). -/
  hufTables : Word
  /-- HUF_SFBSEL (10_state.md R43). -/
  hufSfbsel : Word
  /-- HUF_NONZERO (10_state.md R44). -/
  hufNonzero : Word
  /-- HUF_REGION (10_state.md R44). -/
  hufRegion : Word
  /-- HUF_BVEFF (10_state.md R44). -/
  hufBveff : Word
  /-- MDB, IS, XR, PCM, OVL and V (10_state.md R48 to R53). -/
  mem : Memory
  /-- The sequencer phase and the command snapshot (10_state.md R58, R59). -/
  phase : Phase
  /-- Hidden state of a stopped HUFF (10_state.md R57). -/
  engine : Option Engine
  /-- The model's own: what happens next, in order (log 1). -/
  inputs : List Input
  /-- The model's own: the value driven on the last host read (log 17). -/
  readData : Word
  /-- The model's own: how many free values have been drawn (log 4). -/
  draws : Nat
  deriving DecidableEq, Repr

/-- STATUS after reset (70_reset_and_hazards.md R340). -/
def Status.zero : Status where
  done := false
  err := false
  errCode := .none
  bvClamp := false
  empty := false
  qRollback := false
  bvOverrun := false
  cmdDrop := false
  accErr := false

/-- The machine right after power-on reset (70_reset_and_hazards.md R340): registers 0, MDB, IS, XR and PCM unwritten,
OVL and V +0.0 (what their unlisted bytes read as), the sequencer IDLE, no hidden state. -/
def State.reset : State where
  cmd := 0#32
  status := Status.zero
  irqEn := 0#32
  hufBitpos := 0#32
  hufPart2start := 0#32
  hufGranule := 0#32
  hufTables := 0#32
  hufSfbsel := 0#32
  hufNonzero := 0#32
  hufRegion := 0#32
  hufBveff := 0#32
  mem := []
  phase := .idle
  engine := none
  inputs := []
  readData := 0#32
  draws := 0

end Sys2Proof.Machine
end

