-- ==== Sys2Proof/Machine/Mem.lean ====
section
/-! DEFINITION. The address map (20_memory.md R88) and the named operations over the memories: one read of a byte, one
store of a run of bytes, and the wider accesses built from them. Memory is kept in one canonical form (`Memory.wf`). -/

namespace Sys2Proof.Machine

/-- What an address belongs to (20_memory.md R88). -/
inductive Region where
  | regs | mdb | is | xr | pcm | ovl | v | unmapped
  deriving DecidableEq, Repr

/-- The host address map (20_memory.md R88). -/
def region (a : Nat) : Region :=
  if a < 0x100 then .regs
  else if 0x1000 ≤ a ∧ a < 0x2000 then .mdb
  else if 0x2000 ≤ a ∧ a < 0x2480 then .is
  else if 0x3000 ≤ a ∧ a < 0x3900 then .xr
  else if 0x4000 ≤ a ∧ a < 0x4900 then .pcm
  else if 0x5000 ≤ a ∧ a < 0x6200 then .ovl
  else if 0x8000 ≤ a ∧ a < 0xA000 then .v
  else .unmapped

/-- The regions that are memories. -/
def Region.isMemory : Region → Bool
  | .regs => false
  | .mdb => true
  | .is => true
  | .xr => true
  | .pcm => true
  | .ovl => true
  | .v => true
  | .unmapped => false

/-- What an address with no cell reads as: no value in MDB, IS, XR and PCM (10_state.md R56); 0 in OVL and V, which are
never unwritten (R52, R53), and at an unmapped address (20_memory.md R90). -/
def unlisted (a : Nat) : Option Byte :=
  match region a with
  | .mdb => none
  | .is => none
  | .xr => none
  | .pcm => none
  | .ovl => some 0#8
  | .v => some 0#8
  | .regs => some 0#8
  | .unmapped => some 0#8

/-- The byte at `a`, none where nothing has written it (10_state.md R56). -/
def Memory.get (m : Memory) (a : Nat) : Option Byte :=
  match m.find? (fun c => c.1 == a) with
  | some c => some c.2
  | none => unlisted a

/-- The cells of a run of bytes from `lo` up: a byte equal to what its address reads as unlisted needs none. -/
def Memory.cells : Nat → List (Option Byte) → Memory
  | _, [] => []
  | lo, none :: bs => Memory.cells (lo + 1) bs
  | lo, some v :: bs =>
    if unlisted lo = some v then Memory.cells (lo + 1) bs else (lo, v) :: Memory.cells (lo + 1) bs

/-- Replace the bytes from `lo` up by `bs`; `none` leaves its byte unwritten (10_state.md R56). -/
def Memory.store (m : Memory) (lo : Nat) (bs : List (Option Byte)) : Memory :=
  m.filter (fun c => decide (c.1 < lo)) ++ Memory.cells lo bs ++
    m.filter (fun c => decide (lo + bs.length ≤ c.1))

/-- Addresses strictly rise. -/
def Memory.rising : Memory → Bool
  | [] => true
  | [_] => true
  | c :: d :: m => decide (c.1 < d.1) && Memory.rising (d :: m)

/-- The canonical form: addresses strictly rise, each belongs to a memory, and no cell says what an unlisted address
reads as anyway. -/
def Memory.wf (m : Memory) : Bool :=
  m.rising && m.all (fun c => (region c.1).isMemory && decide (unlisted c.1 ≠ some c.2))

/-- The cells of `[lo, lo + n)`: a smaller memory that answers the same there (`Memory.get_slice`). -/
def Memory.slice (m : Memory) (lo n : Nat) : Memory :=
  m.filter (fun c => decide (lo ≤ c.1) && decide (c.1 < lo + n))

/-- The `n` bytes from `lo` up. -/
def Memory.bytes (m : Memory) : Nat → Nat → List (Option Byte)
  | _, 0 => []
  | lo, n + 1 => m.get lo :: Memory.bytes m (lo + 1) n

/-- The word at `a`, little-endian (20_memory.md R81); none where a byte of it is unwritten. -/
def Memory.word (m : Memory) (a : Nat) : Option Word :=
  match m.get a, m.get (a + 1), m.get (a + 2), m.get (a + 3) with
  | some b0, some b1, some b2, some b3 => some (wordOfBytes b0 b1 b2 b3)
  | _, _, _, _ => none

/-- The half at `a`, little-endian (20_memory.md R81); none where a byte of it is unwritten. -/
def Memory.half (m : Memory) (a : Nat) : Option Half :=
  match m.get a, m.get (a + 1) with
  | some b0, some b1 => some (halfOfBytes b0 b1)
  | _, _ => none

/-- The `n` words from `lo` up, none where a byte of them is unwritten. -/
def Memory.wordsFrom (m : Memory) : Nat → Nat → Option (List Word)
  | _, 0 => some []
  | lo, n + 1 =>
    match m.word lo, Memory.wordsFrom m (lo + 4) n with
    | some w, some ws => some (w :: ws)
    | _, _ => none

/-- `wordsFrom` over the slice it reads, which is the same and cheaper (`Memory.words_eq`). -/
def Memory.words (m : Memory) (lo n : Nat) : Option (List Word) :=
  (m.slice lo (4 * n)).wordsFrom lo n

/-- The bytes of a list of words, each little-endian (20_memory.md R81). -/
def wordListBytes (ws : List Word) : List (Option Byte) :=
  ws.flatMap (fun w => w.bytes.map some)

/-- The bytes of a list of halves, each little-endian (20_memory.md R81). -/
def halfListBytes (hs : List Half) : List (Option Byte) :=
  hs.flatMap (fun h => (Half.bytes h).map some)

/-- Drop the cells of a run of bytes: unwritten in MDB, IS, XR and PCM (10_state.md R56), +0.0 in OVL and V, whose
unlisted bytes read 0. -/
def Memory.forget (m : Memory) (lo n : Nat) : Memory :=
  m.filter (fun c => decide (c.1 < lo) || decide (lo + n ≤ c.1))

/-! Where the elements lie (20_memory.md R88). -/

/-- MDB[a]. -/
def mdbAddr (a : Nat) : Nat := 0x1000 + a

/-- IS[k]. -/
def isAddr (k : Nat) : Nat := 0x2000 + 2 * k

/-- XR[k]. -/
def xrAddr (k : Nat) : Nat := 0x3000 + 4 * k

/-- PCM[n]. -/
def pcmAddr (n : Nat) : Nat := 0x4000 + 2 * n

/-- The index of a channel's part of OVL and V. -/
def channelIndex : Channel → Nat
  | .left => 0
  | .right => 1

/-- OVL[ch][sb][i]. -/
def ovlAddr (ch : Channel) (sb i : Nat) : Nat := 0x5000 + 4 * (576 * channelIndex ch + 18 * sb + i)

/-- V[ch][i]. -/
def vAddr (ch : Channel) (i : Nat) : Nat := 0x8000 + 4 * (1024 * channelIndex ch + i)

end Sys2Proof.Machine
end

