-- ==== Sys2Proof/Machine/Operands.lean ====
section
/-! DEFINITION. The fields of the registers (10_state.md R33 to R44), the bits a write can change, and the selections the
commands make by them: regions and tables of HUFF, boundaries of ALIAS, transforms of HYBRID, PCM places of SYNTH. -/

namespace Sys2Proof.Machine

/-! Writable bits; every other bit is RAZ/WI (10_state.md section 3). -/

/-- CMD: OP, CH, BT, MIXED, NCH (10_state.md R33). -/
def cmdMask : Word := 0x0000171F#32

/-- IRQ_EN: DONE_IE, ERR_IE (10_state.md R36). -/
def irqEnMask : Word := 0x00000003#32

/-- HUF_BITPOS: POS (10_state.md R37). -/
def bitposMask : Word := 0x0000FFFF#32

/-- HUF_PART2START: P2START (10_state.md R38). -/
def part2startMask : Word := 0x0000FFFF#32

/-- HUF_GRANULE: PART23_LEN, BIG_VALUES (10_state.md R39). -/
def granuleMask : Word := 0x01FF0FFF#32

/-- HUF_TABLES: TS0 to C1SEL (10_state.md R42). -/
def tablesMask : Word := 0x00FFFFFF#32

/-- HUF_SFBSEL: SRI (10_state.md R43). -/
def sfbselMask : Word := 0x00000003#32

/-! Fields of the command snapshot (10_state.md R59). -/

/-- CMD.OP (R33). -/
def Snapshot.op (s : Snapshot) : Nat := s.cmd.field 0 4
/-- HUF_BITPOS.POS (R37). -/
def Snapshot.pos (s : Snapshot) : Nat := s.hufBitpos.field 0 16
/-- HUF_PART2START.P2START (R38). -/
def Snapshot.p2start (s : Snapshot) : Nat := s.hufPart2start.field 0 16
/-- HUF_GRANULE.PART23_LEN (R39). -/
def Snapshot.part23Len (s : Snapshot) : Nat := s.hufGranule.field 0 12
/-- HUF_GRANULE.BIG_VALUES (R39). -/
def Snapshot.bigValues (s : Snapshot) : Nat := s.hufGranule.field 16 9
/-- HUF_TABLES.TS0 (R42). -/
def Snapshot.ts0 (s : Snapshot) : Nat := s.hufTables.field 0 5
/-- HUF_TABLES.TS1 (R42). -/
def Snapshot.ts1 (s : Snapshot) : Nat := s.hufTables.field 5 5
/-- HUF_TABLES.TS2 (R42). -/
def Snapshot.ts2 (s : Snapshot) : Nat := s.hufTables.field 10 5
/-- HUF_TABLES.R0CNT (R42). -/
def Snapshot.r0cnt (s : Snapshot) : Nat := s.hufTables.field 15 4
/-- HUF_TABLES.R1CNT (R42). -/
def Snapshot.r1cnt (s : Snapshot) : Nat := s.hufTables.field 19 3
/-- HUF_TABLES.WS (R42). -/
def Snapshot.ws (s : Snapshot) : Bool := s.hufTables.getLsbD 22
/-- HUF_TABLES.C1SEL (R42). -/
def Snapshot.c1sel (s : Snapshot) : Bool := s.hufTables.getLsbD 23
/-- HUF_SFBSEL.SRI (R43). -/
def Snapshot.sri (s : Snapshot) : Nat := s.hufSfbsel.field 0 2

/-! What HUFF computes from them before it reads a bit. -/

/-- The effective big_values (40_huffman.md R153). -/
def Snapshot.bv (s : Snapshot) : Nat := min s.bigValues Config.bvMax

/-- Whether big_values was clamped (40_huffman.md R153). -/
def Snapshot.clamped (s : Snapshot) : Bool := decide (Config.bvMax < s.bigValues)

/-- The end position E1 (40_huffman.md R152). -/
def Snapshot.endPos (s : Snapshot) : Nat := s.p2start + s.part23Len

/-- The region boundaries (40_huffman.md R151): none where SRI = 3 is needed, which raises BAD_SFB. -/
def Snapshot.regions (s : Snapshot) : Option (Nat × Nat) :=
  if s.ws then some (36, 576)
  else if s.sri = 3 then none
  else
    let a := s.r0cnt + 1
    let b := s.r0cnt + s.r1cnt + 2
    let r1 := (Config.sfbLong s.sri).getD a 576
    let r2 := if b ≤ 22 then (Config.sfbLong s.sri).getD b 576 else 576
    some (r1, r2)

/-- Tables 4 and 14 do not exist (40_huffman.md R155). -/
def reservedTable (t : Nat) : Bool := decide (t = 4) || decide (t = 14)

/-- Whether the regions `[0, r1)`, `[r1, r2)`, `[r2, 576)` that meet `[0, 2 * bv)` all select existing tables
(40_huffman.md R155). -/
def Snapshot.tablesOk (s : Snapshot) (r1 r2 : Nat) : Bool :=
  let n := 2 * s.bv
  !(decide (0 < n) && decide (0 < r1) && reservedTable s.ts0) &&
    !(decide (r1 < n) && decide (r1 < r2) && reservedTable s.ts1) &&
    !(decide (r2 < n) && decide (r2 < 576) && reservedTable s.ts2)

/-- The table of the pair at coefficient `k` (40_huffman.md R157). -/
def Snapshot.tableAt (s : Snapshot) (r1 r2 k : Nat) : Nat :=
  if k < r1 then s.ts0 else if k < r2 then s.ts1 else s.ts2

/-! Selections of the other commands. -/

/-- How many boundaries ALIAS processes, from subband 0 up (41_antialias.md R213). -/
def boundaryCount (bt : BlockType) (mixed : Bool) : Nat :=
  match bt with
  | .normal => 31
  | .start => 31
  | .stop => 31
  | .short => if mixed then 1 else 0

/-- The transform of subband `sb` (42_hybrid_imdct.md R231): a long window, or none for the short form. -/
def transformOf (bt : BlockType) (mixed : Bool) (sb : Nat) : Option LongWindow :=
  match bt with
  | .normal => some .normal
  | .start => some .start
  | .stop => some .stop
  | .short => if mixed ∧ sb < 2 then some .normal else none

/-! Tables of a walk. -/

/-- The words of a table of HTAB (30_encoding.md R120). -/
def TableId.words : TableId → List Half
  | .pair t => Config.pairWords t.toNat
  | .quad c1sel => Config.quadWords c1sel

/-- The form a table's words are decoded in (30_encoding.md R121). -/
def TableId.form : TableId → Form
  | .pair _ => .pairWord
  | .quad _ => .quadWord

/-- How many bytes a host access has (20_memory.md R80). -/
def Width.count : Width → Nat
  | .w1 => 1
  | .w2 => 2
  | .w4 => 4

end Sys2Proof.Machine
end

