-- ==== Sys2Proof/Machine/Flags.lean ====
section
/-! DEFINITION. STATUS and the irq output: the word software reads, the W1C write, what an accepted START and a
completion do to the flags (10_state.md R35, R36, R47; 60_exceptions.md R310 to R315). -/

namespace Sys2Proof.Machine

/-- The number of an error code (60_exceptions.md R310). -/
def ErrCode.code : ErrCode → Nat
  | .none => 0
  | .badOpcode => 1
  | .badTable => 2
  | .badSfb => 3
  | .mdbRange => 4
  | .badChannel => 5

/-- The STATUS word (10_state.md R35). -/
def Status.word (st : Status) (busy : Bool) : Word :=
  BitVec.ofNat 32 (busy.toNat + 2 * st.done.toNat + 4 * st.err.toNat + 16 * ErrCode.code st.errCode +
    256 * st.bvClamp.toNat + 512 * st.empty.toNat + 1024 * st.qRollback.toNat + 2048 * st.bvOverrun.toNat +
    65536 * st.cmdDrop.toNat + 131072 * st.accErr.toNat)

/-- A write of `v` to STATUS (10_state.md R35, 60_exceptions.md R314): a 1 in bit 1, 2, 16 or 17 clears DONE, ERR with
ERRCODE, CMD_DROP or ACC_ERR; no other bit has an effect. -/
def Status.writeOneToClear (st : Status) (v : Word) : Status :=
  { st with
    done := st.done && !v.getLsbD 1
    err := st.err && !v.getLsbD 2
    errCode := if v.getLsbD 2 then .none else st.errCode
    cmdDrop := st.cmdDrop && !v.getLsbD 16
    accErr := st.accErr && !v.getLsbD 17 }

/-- What an accepted START clears (10_state.md R35, 70_reset_and_hazards.md R348): DONE, ERR, ERRCODE and the four HUFF
flags, not CMD_DROP and ACC_ERR. -/
def Status.atStart (st : Status) : Status :=
  { st with
    done := false
    err := false
    errCode := .none
    bvClamp := false
    empty := false
    qRollback := false
    bvOverrun := false }

/-- A successful completion sets DONE (60_exceptions.md R312). -/
def Status.completed (st : Status) : Status := { st with done := true }

/-- An error completion sets ERR and ERRCODE (60_exceptions.md R313). -/
def Status.failed (st : Status) (c : ErrCode) : Status := { st with err := true, errCode := c }

/-- The four HUFF flags at a successful completion (40_huffman.md R172, R173). -/
def Status.withHuffFlags (st : Status) (clamp empty rollback overrun : Bool) : Status :=
  { st with bvClamp := clamp, empty := empty, qRollback := rollback, bvOverrun := overrun }

/-- Whether the sequencer is BUSY (10_state.md R58). -/
def Phase.isBusy : Phase → Bool
  | .idle => false
  | .busy _ => true

/-- STATUS.BUSY (10_state.md R35, R58). -/
def State.busy (s : State) : Bool := s.phase.isBusy

/-- What a read of STATUS returns (10_state.md R35). -/
def State.statusWord (s : State) : Word := s.status.word s.busy

/-- The irq output (10_state.md R36, 60_exceptions.md R315). -/
def State.irq (s : State) : Bool :=
  (s.status.done && s.irqEn.getLsbD 0) || (s.status.err && s.irqEn.getLsbD 1)

end Sys2Proof.Machine
end

