-- ==== Sys2Proof/Machine/Ops.lean ====
section
/-! DEFINITION. The operations the commands and the host share: completing a command, ending it in an error (the block's
form of an exception) and acknowledging it, starting a command, the two resets, free values, and the bit reads of MDB. -/

namespace Sys2Proof.Machine

/-! ## Starting and completing a command -/

/-- The registers a START snapshots (10_state.md R59, 70_reset_and_hazards.md R348). -/
def State.parameters (s : State) : Snapshot where
  cmd := s.cmd
  hufBitpos := s.hufBitpos
  hufPart2start := s.hufPart2start
  hufGranule := s.hufGranule
  hufTables := s.hufTables
  hufSfbsel := s.hufSfbsel

/-- What a command reads its operands from: the snapshot of its START (10_state.md R59). -/
def State.operands (s : State) : Snapshot :=
  match s.phase with
  | .idle => s.parameters
  | .busy snap => snap

/-- Successful completion, `finish` (60_exceptions.md R312): BUSY 0, DONE 1, no hidden state left. -/
def finish (s : State) : State :=
  { s with phase := .idle, engine := none, status := s.status.completed }

/-- Error completion, `raise Error(code)` (60_exceptions.md R313, R317): BUSY 0, ERR 1 and ERRCODE; nothing else changes
but that MDB_RANGE leaves IS unwritten (40_huffman.md R171). L3HD saves no pc and enters no handler. -/
def raiseError (c : ErrCode) (s : State) : State :=
  { s with
    phase := .idle
    engine := none
    status := s.status.failed c
    mem := if c = .mdbRange then s.mem.forget (isAddr 0) 1152 else s.mem }

/-- Acknowledgement of a completion, the block's return from an error (60_exceptions.md R314, R318): a write to STATUS. -/
def acknowledge (v : Word) (s : State) : State := { s with status := s.status.writeOneToClear v }

/-- An accepted START (70_reset_and_hazards.md R348): the snapshot is taken, BUSY is 1, the flags of `Status.atStart` are
cleared. -/
def acceptStart (s : State) : State :=
  { s with phase := .busy s.parameters, engine := none, status := s.status.atStart }

/-- A write of 1 to CTRL.START (70_reset_and_hazards.md R348, 10_state.md R40): dropped while BUSY; a reserved opcode ends
at once in BAD_OPCODE. -/
def start (s : State) : State :=
  match s.phase with
  | .busy _ => { s with status := { s.status with cmdDrop := true } }
  | .idle =>
    if 6 ≤ s.parameters.op then raiseError .badOpcode (acceptStart s) else acceptStart s

/-! ## Resets -/

/-- OVL[0..1] and V[0..1] at +0.0 (70_reset_and_hazards.md R340, R343). -/
def clearCarried (m : Memory) : Memory := (m.forget 0x5000 4608).forget 0x8000 8192

/-- OVL[ch] and V[ch] at +0.0 (44_control.md R291). -/
def clearChannel (ch : Channel) (m : Memory) : Memory :=
  (m.forget (ovlAddr ch 0 0) 2304).forget (vAddr ch 0) 4096

/-- The memories an abandoned command was to write, marked unwritten (70_reset_and_hazards.md R343): IS for HUFF, XR for
ALIAS and HYBRID, PCM for SYNTH. -/
def abandonMemory (phase : Phase) (m : Memory) : Memory :=
  match phase with
  | .idle => m
  | .busy snap =>
    match snap.op with
    | 1 => m.forget (isAddr 0) 1152
    | 2 => m.forget (xrAddr 0) 2304
    | 3 => m.forget (xrAddr 0) 2304
    | 4 => m.forget (pcmAddr 0) 2304
    | _ => m

/-- Soft reset (70_reset_and_hazards.md R343). -/
def softReset (s : State) : State :=
  { State.reset with
    mem := clearCarried (abandonMemory s.phase s.mem)
    inputs := s.inputs
    readData := s.readData
    draws := s.draws }

/-- Power-on reset (70_reset_and_hazards.md R340). The model's own fields go on (log 16). -/
def powerOnReset (s : State) : State :=
  { State.reset with inputs := s.inputs, readData := s.readData, draws := s.draws }

/-! ## Free values -/

/-- The free word number `k` of the present step (00_scope.md R12). -/
def State.draw (s : State) (k : Nat) : Word := Config.freeWord (s.draws + k)

/-! ## Bit reads of MDB -/

/-- Why a command ends before its end: an error of the block, or a fault of the model. -/
inductive Stop where
  | error (c : ErrCode)
  | fault (f : Fault)
  deriving DecidableEq, Repr

/-- Bit `pos` of MDB: bit 7 - (pos mod 8) of byte pos div 8 (20_memory.md R85, R86). -/
def readBit (m : Memory) (pos : Nat) : Except Stop (Bool × Nat) :=
  if Config.mdbBits ≤ pos then .error (.error .mdbRange)
  else
    match m.get (mdbAddr (pos / 8)) with
    | none => .error (.fault .unwrittenRead)
    | some b => .ok (b.getLsbD (7 - pos % 8), pos + 1)

/-- `n` bits from `pos`, the first the most significant, appended to `v` (20_memory.md R87). -/
def readBits (m : Memory) : Nat → Nat → Nat → Except Stop (Nat × Nat)
  | 0, v, pos => .ok (v, pos)
  | n + 1, v, pos =>
    match readBit m pos with
    | .error e => .error e
    | .ok (b, pos) => readBits m n (2 * v + b.toNat) pos

/-- Where a branch word leads (30_encoding.md R121): i + 1 on a 0, i + 1 + (-e) on a 1. -/
def branchTarget (index offset : Nat) (bit : Bool) : Nat :=
  if bit then index + 1 + offset else index + 1

/-! ## Fetch -/

/-- What the sequencer runs next: the current table word of a walk that is under way, else the command word of the
snapshot (30_encoding.md R110, R122), with its bytes. -/
def fetch (snap : Snapshot) (engine : Option Engine) : Form × List Byte :=
  match engine with
  | some ⟨_, some w, _⟩ => (w.table.form, Half.bytes w.word)
  | _ => (.command, Word.bytes snap.cmd)

end Sys2Proof.Machine
end

