-- ==== Sys2Proof/Machine/Bus.lean ====
section
/-! DEFINITION. The host's accesses (20_memory.md R80 to R92; 10_state.md R33 to R45, R60). -/

namespace Sys2Proof.Machine

/-- The registers of the register file (10_state.md section 3). -/
inductive Reg where
  | id | cmd | ctrl | status | irqEn | hufBitpos | hufPart2start | hufGranule | hufTables | hufSfbsel
  | hufNonzero | hufRegion | hufBveff
  deriving DecidableEq, Repr

/-- The register that holds the byte at offset `a` (10_state.md R32 to R44); none at the unused offsets (R45). -/
def regAt (a : Nat) : Option Reg :=
  match a / 4 with
  | 0 => some .id
  | 1 => some .cmd
  | 2 => some .ctrl
  | 3 => some .status
  | 4 => some .irqEn
  | 8 => some .hufBitpos
  | 9 => some .hufPart2start
  | 10 => some .hufGranule
  | 11 => some .hufTables
  | 12 => some .hufSfbsel
  | 13 => some .hufNonzero
  | 14 => some .hufRegion
  | 15 => some .hufBveff
  | _ => none

/-- What a read of a register returns (10_state.md R32 to R44); CTRL reads 0 (R34). -/
def readReg (s : State) : Reg → Word
  | .id => Config.idValue
  | .cmd => s.cmd
  | .ctrl => 0#32
  | .status => s.statusWord
  | .irqEn => s.irqEn
  | .hufBitpos => s.hufBitpos
  | .hufPart2start => s.hufPart2start
  | .hufGranule => s.hufGranule
  | .hufTables => s.hufTables
  | .hufSfbsel => s.hufSfbsel
  | .hufNonzero => s.hufNonzero
  | .hufRegion => s.hufRegion
  | .hufBveff => s.hufBveff

/-- STATUS.ACC_ERR is set (10_state.md R35). -/
def setAccErr (s : State) : State := { s with status := { s.status with accErr := true } }

/-- A write of a command's parameter: ignored with ACC_ERR while BUSY (10_state.md R41). -/
def whenIdle (s written : State) : State := if s.busy then setAccErr s else written

/-- A write of CTRL (10_state.md R34): SRST wins over START. -/
def writeCtrl (v : Word) (s : State) : State :=
  if v.getLsbD 1 then softReset s else if v.getLsbD 0 then start s else s

/-- A performed write of `v` to a register (10_state.md R32 to R44): reserved bits stay 0, read-only registers keep their
value. -/
def writeReg (s : State) (r : Reg) (v : Word) : State :=
  match r with
  | .id => s
  | .cmd => whenIdle s { s with cmd := v &&& cmdMask }
  | .ctrl => writeCtrl v s
  | .status => acknowledge v s
  | .irqEn => { s with irqEn := v &&& irqEnMask }
  | .hufBitpos => whenIdle s { s with hufBitpos := v &&& bitposMask }
  | .hufPart2start => whenIdle s { s with hufPart2start := v &&& part2startMask }
  | .hufGranule => whenIdle s { s with hufGranule := v &&& granuleMask }
  | .hufTables => whenIdle s { s with hufTables := v &&& tablesMask }
  | .hufSfbsel => whenIdle s { s with hufSfbsel := v &&& sfbselMask }
  | .hufNonzero => s
  | .hufRegion => s
  | .hufBveff => s

/-- An access is naturally aligned (20_memory.md R83). -/
def aligned (a : Nat) (width : Width) : Bool := decide (a % Width.count width = 0)

/-- A register access that is performed: naturally aligned and 4 bytes wide (20_memory.md R82). -/
def wholeRegister (a : Nat) (width : Width) : Bool := decide (width = .w4) && aligned a width

/-- The little-endian value of some bytes (20_memory.md R81); none where one is unwritten. -/
def bytesValue : List (Option Byte) → Option Nat
  | [] => some 0
  | none :: _ => none
  | some b :: bs =>
    match bytesValue bs with
    | none => none
    | some v => some (b.toNat + 256 * v)

/-- The value a read answers. -/
def answer (v : Word) (s : State) : State := { s with readData := v }

/-- An UNSPECIFIED value of the access's width: any of the 2^(8n) (93_implementation_defined.md U5, U6). -/
def answerFree (width : Width) (s : State) : State :=
  { s with
    readData := BitVec.ofNat 32 ((s.draw 0).toNat % 2 ^ (8 * Width.count width))
    draws := s.draws + 1 }

/-- A host read (20_memory.md R80, R82, R83, R90; 10_state.md R60). -/
def hostRead (addr : Address) (width : Width) (s : State) : Host.Outcome State Fault Refusal :=
  match region addr.toNat with
  | .regs =>
    match regAt addr.toNat with
    | none => .next (answer 0#32 s)
    | some r =>
      if wholeRegister addr.toNat width then .next (answer (readReg s r) s)
      else .next (answerFree width (setAccErr s))
  | .unmapped => .next (answer 0#32 s)
  | _ =>
    if !aligned addr.toNat width then .next (answerFree width (setAccErr s))
    else if s.busy then .next (answerFree width s)
    else
      match bytesValue (s.mem.bytes addr.toNat (Width.count width)) with
      | none => .fault .unwrittenRead
      | some v => .next (answer (BitVec.ofNat 32 v) s)

/-- A host write (20_memory.md R80, R82, R83, R90; 10_state.md R60): the low `n` bytes of `value` at `addr` up. -/
def hostWrite (addr : Address) (width : Width) (value : Word) (s : State) : State :=
  match region addr.toNat with
  | .regs =>
    match regAt addr.toNat with
    | none => s
    | some r => if wholeRegister addr.toNat width then writeReg s r value else setAccErr s
  | .unmapped => s
  | _ =>
    if !aligned addr.toNat width then setAccErr s
    else if s.busy then setAccErr s
    else { s with mem := s.mem.store addr.toNat ((value.bytes.take (Width.count width)).map some) }

end Sys2Proof.Machine
end

