-- ==== Sys2Proof/Machine/Antialias.lean ====
section
/-! DEFINITION. ALIAS, the antialias butterflies (41_antialias.md R210 to R222), bit-exact binary32. -/

namespace Sys2Proof.Machine

/-- lo' of one butterfly (41_antialias.md R212). -/
def butterflyLow (lo up cs ca : Word) : Word := F32.sub (F32.mul lo cs) (F32.mul up ca)

/-- up' of one butterfly (41_antialias.md R212). -/
def butterflyHigh (lo up cs ca : Word) : Word := F32.add (F32.mul up cs) (F32.mul lo ca)

/-- The 16 entries XR[18*sb + 10 .. 18*sb + 25] around a boundary after its eight butterflies, from the 16 before
(41_antialias.md R212, R214): entry 7 - i is butterfly i's lo, entry 8 + i its up. A NaN result takes its sign and payload
from the free word `draw j` (R218). -/
def boundaryWords (draw : Nat → Word) (B : List Word) : List Word :=
  (List.range 16).map fun j =>
    let i := if j < 8 then 7 - j else j - 8
    let lo := B.getD (7 - i) 0
    let up := B.getD (8 + i) 0
    let cs := Config.cs.getD i 0
    let ca := Config.ca.getD i 0
    F32.settle (draw j) (if j < 8 then butterflyLow lo up cs ca else butterflyHigh lo up cs ca)

/-- XR after the butterflies of boundaries `sb` to `sb + n - 1`, each from the values at START (41_antialias.md R214,
R215): none where an entry it reads is unwritten. `start` is the memory at START, `m` what earlier boundaries left. -/
def aliasBoundaries (draw : Nat → Word) (start : Memory) : Nat → Nat → Memory → Option Memory
  | 0, _, m => some m
  | n + 1, sb, m =>
    match start.words (xrAddr (18 * sb + 10)) 16 with
    | none => none
    | some B =>
      aliasBoundaries draw start n (sb + 1)
        (m.store (xrAddr (18 * sb + 10))
          (wordListBytes (boundaryWords (fun j => draw (18 * sb + 10 + j)) B)))

/-- ALIAS (41_antialias.md R215). -/
def execAntialias (bt : BlockType) (mixed : Bool) (s : State) : Host.Outcome State Fault Refusal :=
  match aliasBoundaries s.draw s.mem (boundaryCount bt mixed) 0 s.mem with
  | none => .fault .unwrittenRead
  | some m => .next (finish { s with mem := m, draws := s.draws + 576 })

end Sys2Proof.Machine
end

