-- ==== Sys2Proof/Machine/Control.lean ====
section
/-! DEFINITION. NOP, CLRSTATE and the reserved opcodes (44_control.md R290 to R293). -/

namespace Sys2Proof.Machine

/-- NOP (44_control.md R290): completes successfully and does nothing else. -/
def execNop (s : State) : Host.Outcome State Fault Refusal := .next (finish s)

/-- CLRSTATE (44_control.md R291). -/
def execClrstate (ch : Channel) (s : State) : Host.Outcome State Fault Refusal :=
  .next (finish { s with mem := clearChannel ch s.mem })

/-- OP 6 and 7 (44_control.md R292): Error(BAD_OPCODE). -/
def execReserved67 (_op : BitVec 4) (s : State) : Host.Outcome State Fault Refusal :=
  .next (raiseError .badOpcode s)

/-- OP 8 to 15 (44_control.md R292): Error(BAD_OPCODE). -/
def execReserved8to15 (_op : BitVec 4) (s : State) : Host.Outcome State Fault Refusal :=
  .next (raiseError .badOpcode s)

end Sys2Proof.Machine
end

