-- ==== Sys2Proof/Machine/Huffman.lean ====
section
/-! DEFINITION. HUFF, the Huffman spectral decoder (40_huffman.md R150 to R175), on the bits of MDB. -/

namespace Sys2Proof.Machine

/-- The table walk (30_encoding.md R122) from index `i`: the leaf word and the cursor after it. `fuel` is the table's
length, which no walk inside the table can outlast, since a branch leads only to higher indices. -/
def walkFrom (ws : List Half) (m : Memory) : Nat → Nat → Nat → Except Stop (Half × Nat)
  | 0, _, _ => .error (.fault .walkLeftTable)
  | fuel + 1, i, pos =>
    match ws[i]? with
    | none => .error (.fault .walkLeftTable)
    | some e =>
      if e.getLsbD 15 then
        match readBit m pos with
        | .error stop => .error stop
        | .ok (bit, pos) => walkFrom ws m fuel (branchTarget i (65536 - e.toNat) bit) pos
      else .ok (e, pos)

/-- `walk(T)` (30_encoding.md R122). -/
def walk (ws : List Half) (m : Memory) (pos : Nat) : Except Stop (Half × Nat) := walkFrom ws m ws.length 0 pos

/-- The sign bit of a magnitude `mag`, read only if it is not 0; 1 means negative (40_huffman.md R160). -/
def signed (m : Memory) (mag pos : Nat) : Except Stop (Int × Nat) :=
  if mag = 0 then .ok (0, pos)
  else
    match readBit m pos with
    | .error stop => .error stop
    | .ok (s, pos) => .ok (if s then -(mag : Int) else mag, pos)

/-- `value(t, m)` with linbits = LINBITS[t] (40_huffman.md R160, R161; 30_encoding.md R125). -/
def pairValue (m : Memory) (linbits mag pos : Nat) : Except Stop (Int × Nat) :=
  if 0 < linbits ∧ mag = 15 then
    match readBits m linbits 0 pos with
    | .error stop => .error stop
    | .ok (extra, pos) => signed m (15 + extra) pos
  else signed m mag pos

/-- One pair of table `t` (40_huffman.md R158): x completely, then y. -/
def decodePair (m : Memory) (t pos : Nat) : Except Stop (List Int × Nat) :=
  match walk (Config.pairWords t) m pos with
  | .error stop => .error stop
  | .ok (e, pos) =>
    match pairValue m (Config.linbits t) (e.toNat / 16) pos with
    | .error stop => .error stop
    | .ok (x, pos) =>
      match pairValue m (Config.linbits t) (e.toNat % 16) pos with
      | .error stop => .error stop
      | .ok (y, pos) => .ok ([x, y], pos)

/-- `n` pairs from coefficient `k` (40_huffman.md R157, R158, R162): the end position is not tested. -/
def decodePairs (ops : Snapshot) (r1 r2 : Nat) (m : Memory) : Nat → Nat → Nat → Except Stop (List Int × Nat)
  | 0, _, pos => .ok ([], pos)
  | n + 1, k, pos =>
    match decodePair m (ops.tableAt r1 r2 k) pos with
    | .error stop => .error stop
    | .ok (xy, pos) =>
      match decodePairs ops r1 r2 m n (k + 2) pos with
      | .error stop => .error stop
      | .ok (rest, pos) => .ok (xy ++ rest, pos)

/-- The values of the magnitudes of a quad, each 1 followed at once by its sign bit (40_huffman.md R165, 30_encoding.md R126). -/
def quadValues (m : Memory) : List Bool → Nat → Except Stop (List Int × Nat)
  | [], pos => .ok ([], pos)
  | b :: bs, pos =>
    match signed m b.toNat pos with
    | .error stop => .error stop
    | .ok (x, pos) =>
      match quadValues m bs pos with
      | .error stop => .error stop
      | .ok (rest, pos) => .ok (x :: rest, pos)

/-- One quad (40_huffman.md R165): v, w, x, y are bits 3, 2, 1, 0 of the leaf. -/
def decodeQuad (m : Memory) (c1sel : Bool) (pos : Nat) : Except Stop (List Int × Nat) :=
  match walk (Config.quadWords c1sel) m pos with
  | .error stop => .error stop
  | .ok (e, pos) => quadValues m [e.getLsbD 3, e.getLsbD 2, e.getLsbD 1, e.getLsbD 0] pos

/-- The count1 loop (40_huffman.md R165): while idx < 576 and pos < E1. `fuel` 144 is one for every quad that fits below
576. Values past coefficient 575 are dropped at the end (`huffDecode`, R166). -/
def decodeQuads (m : Memory) (c1sel : Bool) (endPos : Nat) : Nat → Nat → Nat → Except Stop (List Int × Nat)
  | 0, _, pos => .ok ([], pos)
  | fuel + 1, idx, pos =>
    if idx < 576 ∧ pos < endPos then
      match decodeQuad m c1sel pos with
      | .error stop => .error stop
      | .ok (vals, pos) =>
        match decodeQuads m c1sel endPos fuel (idx + 4) pos with
        | .error stop => .error stop
        | .ok (rest, pos) => .ok (vals ++ rest, pos)
    else .ok ([], pos)

/-- The last quad is discarded (40_huffman.md R167): the cursor is past E1 + OVERRUN_SLACK and a quad was decoded. -/
def rollsBack (slack pos endPos quads : Nat) : Bool := decide (endPos + slack < pos) && decide (0 < quads)

/-- What a successful HUFF commits (40_huffman.md R169). -/
structure HuffResult where
  spectrum : List Int
  nz : Nat
  r1 : Nat
  r2 : Nat
  bv : Nat
  clamp : Bool
  empty : Bool
  rollback : Bool
  overrun : Bool
  deriving DecidableEq, Repr

/-- The first `nz` values and zeros up to coefficient 575 (40_huffman.md R168). -/
def zeroFilled (vals : List Int) (nz : Nat) : List Int :=
  vals.take nz ++ List.replicate (576 - nz) 0

/-- An empty granule (40_huffman.md R154). -/
def emptyGranule (ops : Snapshot) : HuffResult where
  spectrum := zeroFilled [] 0
  nz := 0
  r1 := 0
  r2 := 0
  bv := 0
  clamp := ops.clamped
  empty := true
  rollback := false
  overrun := false

/-- The result once both regions are decoded: `pairVals` with the cursor `pairPos` after them, `quadVals` with `quadPos`,
under an OVERRUN_SLACK of `slack` (40_huffman.md R164, R167, R168). -/
def huffResult (slack : Nat) (ops : Snapshot) (r1 r2 : Nat) (pairVals : List Int) (pairPos : Nat) (quadVals : List Int)
    (quadPos : Nat) : HuffResult :=
  let quads := quadVals.length / 4
  let rollback := rollsBack slack quadPos ops.endPos quads
  let idx := 2 * ops.bv + 4 * (if rollback then quads - 1 else quads)
  let nz := min idx 576
  { spectrum := zeroFilled (pairVals ++ quadVals) nz
    nz := nz
    r1 := r1
    r2 := r2
    bv := ops.bv
    clamp := ops.clamped
    empty := false
    rollback := rollback
    overrun := decide (ops.endPos < pairPos) }

/-- HUFF up to its commit (40_huffman.md R172), with the error order of 60_exceptions.md R316. -/
def huffDecode (slack : Nat) (ops : Snapshot) (m : Memory) : Except Stop HuffResult :=
  if ops.part23Len = 0 then .ok (emptyGranule ops)
  else
    match ops.regions with
    | none => .error (.error .badSfb)
    | some (r1, r2) =>
      if ops.tablesOk r1 r2 then
        match decodePairs ops r1 r2 m ops.bv 0 ops.pos with
        | .error stop => .error stop
        | .ok (pairVals, pairPos) =>
          match decodeQuads m ops.c1sel ops.endPos 144 (2 * ops.bv) pairPos with
          | .error stop => .error stop
          | .ok (quadVals, quadPos) => .ok (huffResult slack ops r1 r2 pairVals pairPos quadVals quadPos)
      else .error (.error .badTable)

/-- The bytes of IS for a spectrum (10_state.md R49, 20_memory.md R89). -/
def spectrumBytes (vals : List Int) : List (Option Byte) :=
  halfListBytes (vals.map (BitVec.ofInt 16))

/-- The commit (40_huffman.md R169, R170): IS, the result registers, the cursor at E1 mod 65536, the four flags. -/
def commitHuff (ops : Snapshot) (r : HuffResult) (s : State) : State :=
  { s with
    mem := s.mem.store (isAddr 0) (spectrumBytes r.spectrum)
    hufNonzero := BitVec.ofNat 32 r.nz
    hufRegion := BitVec.ofNat 32 (r.r1 + 65536 * r.r2)
    hufBveff := BitVec.ofNat 32 r.bv
    hufBitpos := BitVec.ofNat 32 (ops.endPos % 65536)
    status := s.status.withHuffFlags r.clamp r.empty r.rollback r.overrun }

/-- HUFF under an OVERRUN_SLACK of `slack` (40_huffman.md R172). -/
def huffWith (slack : Nat) (s : State) : Host.Outcome State Fault Refusal :=
  match huffDecode slack s.operands s.mem with
  | .ok r => .next (finish (commitHuff s.operands r s))
  | .error (.error c) => .next (raiseError c s)
  | .error (.fault f) => .fault f

/-- HUFF (40_huffman.md R172), with the machine's OVERRUN_SLACK (00_scope.md R6). -/
def execHuff (s : State) : Host.Outcome State Fault Refusal := huffWith Config.overrunSlack s

end Sys2Proof.Machine
end

