-- ==== Sys2Proof/Machine/Hybrid.lean ====
section
/-! DEFINITION. HYBRID, the IMDCT with overlap-add (42_hybrid_imdct.md R230 to R247), over the parameter FP. -/

namespace Sys2Proof.Machine

/-- The 36 transform outputs of subband `sb` (42_hybrid_imdct.md R231, R243, R245), under draw `n`. -/
def transform (n : Nat) (bt : BlockType) (mixed : Bool) (sb : Nat) (X : List Word) : Fin 36 → Word :=
  match transformOf bt mixed sb with
  | some b => Config.imdct.long n b (fun k => X.getD k.val 0)
  | none => Config.imdct.short n (fun k => X.getD k.val 0)

/-- One sample of the overlap-add, `fl32(o_i + OVL[CH][sb][i])` (42_hybrid_imdct.md R240); free where an operand is NaN or
infinite or the exact sum lies outside the binary32 range, also where it would round back into it (41_antialias.md R218;
log 19, log 20). -/
def overlapAdd (draw o v : Word) : Word :=
  if F32.isFinite o && F32.isFinite v && decide ((F32.units o + F32.units v).natAbs ≤ F32.maxUnits) then F32.add o v
  else draw

/-- XR' of a subband (42_hybrid_imdct.md R240). -/
def hybridSamples (draw : Nat → Word) (o : Fin 36 → Word) (O : List Word) : List Word :=
  List.ofFn fun i : Fin 18 => overlapAdd (draw i) (o ⟨i.val, by omega⟩) (O.getD i.val 0)

/-- OVL' of a subband (42_hybrid_imdct.md R240). -/
def hybridOverlap (o : Fin 36 → Word) : List Word :=
  List.ofFn fun i : Fin 18 => o ⟨18 + i.val, by omega⟩

/-- XR' and OVL'[ch] of subbands `sb` to `sb + n - 1` (42_hybrid_imdct.md R243); none where an XR entry is unwritten
(R244). -/
def hybridSubbands (s : State) (ch : Channel) (bt : BlockType) (mixed : Bool) :
    Nat → Nat → Option (List Word × List Word)
  | 0, _ => some ([], [])
  | n + 1, sb =>
    match s.mem.words (xrAddr (18 * sb)) 18, s.mem.words (ovlAddr ch sb 0) 18,
        hybridSubbands s ch bt mixed n (sb + 1) with
    | some X, some O, some (xs, os) =>
      let o := transform (s.draws + sb) bt mixed sb X
      some (hybridSamples (fun i => s.draw (18 * sb + i)) o O ++ xs, hybridOverlap o ++ os)
    | _, _, _ => none

/-- HYBRID (42_hybrid_imdct.md R243): all 32 subbands (R241). -/
def execHybrid (ch : Channel) (bt : BlockType) (mixed : Bool) (s : State) : Host.Outcome State Fault Refusal :=
  match hybridSubbands s ch bt mixed 32 0 with
  | none => .fault .unwrittenRead
  | some (xs, os) =>
    .next (finish { s with
      mem := (s.mem.store (xrAddr 0) (wordListBytes xs)).store (ovlAddr ch 0 0) (wordListBytes os)
      draws := s.draws + 576 })

end Sys2Proof.Machine
end

