-- ==== Sys2Proof/Machine/Synthesis.lean ====
section
/-! DEFINITION. SYNTH, the polyphase synthesis filterbank and PCM packing (43_synthesis.md R260 to R279), over the
parameter FP. -/

namespace Sys2Proof.Machine

/-- ROUND of an amplitude taken exactly (43_synthesis.md R270): in units of 2^-149, t = s + 1/2. -/
def roundPcm (reading : PcmRounding) (s : Word) : Int :=
  let t : Int := F32.units s + 2 ^ 148
  let r : Int := t.tdiv (2 ^ 149)
  let down : Bool :=
    match reading with
    | .truncHalfNeg => decide (t < 0)
    | .truncResultNeg => decide (r < 0)
  max (-32768) (min (if down then r - 1 else r) 32767)

/-- A PCM sample (43_synthesis.md R270); free where the amplitude is NaN or infinite (R271). -/
def pcmSample (draw s : Word) : Half :=
  if F32.isFinite s then BitVec.ofInt 16 (roundPcm Config.pcmRounding s) else draw.extractLsb' 0 16

/-- The slot's input with the frequency inversion (43_synthesis.md R262): the odd slots of odd subbands are negated. -/
def slotInput (XR : List Word) (ts : Nat) (sb : Fin 32) : Word :=
  let x := XR.getD (18 * sb.val + ts) 0
  if sb.val % 2 = 1 ∧ ts % 2 = 1 then F32.neg x else x

/-- The history after a slot: the 64 matrix outputs, then the newest 960 of the entries before (43_synthesis.md R263, R264). -/
def shiftHistory (V : List Word) (new : Fin 64 → Word) : List Word := List.ofFn new ++ V.take 960

/-- The window input (43_synthesis.md R265). -/
def windowInput (V : List Word) (i : Fin 512) : Word :=
  let block := i.val / 64
  let r := i.val % 64
  if r < 32 then V.getD (128 * block + r) 0 else V.getD (128 * block + 96 + (r - 32)) 0

/-- The 32 PCM samples of a slot from its amplitudes (43_synthesis.md R270). -/
def slotPcm (draw : Nat → Word) (amp : Fin 32 → Word) : List Half :=
  List.ofFn fun j : Fin 32 => pcmSample (draw j) (amp j)

/-- Slots `ts` to `ts + n - 1` from history `V` (43_synthesis.md R275): their PCM samples and the history after them. -/
def synthSlots (draws : Nat) (XR : List Word) : Nat → Nat → List Word → List Half × List Word
  | 0, _, V => ([], V)
  | n + 1, ts, V =>
    let V1 := shiftHistory V (Config.filterbank.matrix (draws + ts) (slotInput XR ts))
    let amp := Config.filterbank.window (draws + ts) (windowInput V1)
    let rest := synthSlots draws XR n (ts + 1) V1
    (slotPcm (fun j => Config.freeWord (draws + (32 * ts + j))) amp ++ rest.1, rest.2)

/-- The bytes of PCM[2n], PCM[2n+1], … in stereo (43_synthesis.md R272): the channel's own samples, and between them what
the other channel's entries hold in `old`. -/
def stereoBytes (old : Memory) (ch : Channel) : Nat → List Half → List (Option Byte)
  | _, [] => []
  | n, h :: hs =>
    let new := (Half.bytes h).map some
    let rest := stereoBytes old ch (n + 1) hs
    match ch with
    | .left => new ++ old.bytes (pcmAddr (2 * n + 1)) 2 ++ rest
    | .right => old.bytes (pcmAddr (2 * n)) 2 ++ new ++ rest

/-- The PCM bytes from PCM[0] up that a SYNTH stores (43_synthesis.md R272). -/
def pcmBytes (old : Memory) (ch : Channel) (nch : Packing) (pcm : List Half) : List (Option Byte) :=
  match nch with
  | .mono => halfListBytes pcm
  | .stereo => stereoBytes (old.slice (pcmAddr 0) 2304) ch 0 pcm

/-- All 576 XR entries, a subband at a time; none where one is unwritten (43_synthesis.md R275). -/
def readXr (m : Memory) : Nat → Nat → Option (List Word)
  | 0, _ => some []
  | n + 1, sb =>
    match m.words (xrAddr (18 * sb)) 18, readXr m n (sb + 1) with
    | some ws, some rest => some (ws ++ rest)
    | _, _ => none

/-- V[ch], a block of 64 at a time; never unwritten (10_state.md R53). -/
def readHistory (m : Memory) (ch : Channel) : Nat → Nat → Option (List Word)
  | 0, _ => some []
  | n + 1, block =>
    match m.words (vAddr ch (64 * block)) 64, readHistory m ch n (block + 1) with
    | some ws, some rest => some (ws ++ rest)
    | _, _ => none

/-- BAD_CHANNEL: channel 1 in mono (43_synthesis.md R274). -/
def badChannel (ch : Channel) (nch : Packing) : Bool :=
  match ch, nch with
  | .right, .mono => true
  | _, _ => false

/-- What SYNTH leaves (43_synthesis.md R275): V[ch], the PCM entries of R272, and the draws taken. -/
def commitSynth (ch : Channel) (nch : Packing) (XR V : List Word) (s : State) : State :=
  let out := synthSlots s.draws XR 18 0 V
  { s with
    mem := (s.mem.store (vAddr ch 0) (wordListBytes out.2)).store (pcmAddr 0) (pcmBytes s.mem ch nch out.1)
    draws := s.draws + 576 }

/-- SYNTH (43_synthesis.md R275). -/
def execSynth (ch : Channel) (nch : Packing) (s : State) : Host.Outcome State Fault Refusal :=
  if badChannel ch nch then .next (raiseError .badChannel s)
  else
    match readXr s.mem 32 0, readHistory s.mem ch 16 0 with
    | some XR, some V => .next (finish (commitSynth ch nch XR V s))
    | _, _ => .fault .unwrittenRead

end Sys2Proof.Machine
end

