-- ==== Sys2Proof/Machine/TableWord.lean ====
section
/-! DEFINITION. The Huffman table words as single instructions of a walk under way (30_encoding.md R121, R122; log 10).
HUFF runs whole walks by the same rule in its one step (`walkFrom`). -/

namespace Sys2Proof.Machine

/-- A branch word (30_encoding.md R121, R122): read one bit at the cursor, move the index by it, read the next table word.
A bit past the end of MDB ends the HUFF in MDB_RANGE (20_memory.md R86). -/
def execHtabBranch (offset : Nat) (s : State) : Host.Outcome State Fault Refusal :=
  match s.engine with
  | none => .refused .noWalk
  | some ⟨_, none, _⟩ => .refused .noWalk
  | some ⟨pos, some w, decoded⟩ =>
    match readBit s.mem pos with
    | .error (.error c) => .next (raiseError c s)
    | .error (.fault f) => .fault f
    | .ok (bit, pos) =>
      match w.table.words[branchTarget w.index offset bit]? with
      | none => .fault .walkLeftTable
      | some e =>
        .next { s with engine := some ⟨pos, some ⟨w.table, branchTarget w.index offset bit, e⟩, decoded⟩ }

/-- A leaf ends the walk: the index is discarded (40_huffman.md R156), the cursor stays (30_encoding.md R122). -/
def endWalk (leaf : Leaf) (s : State) : Host.Outcome State Fault Refusal :=
  match s.engine with
  | none => .refused .noWalk
  | some ⟨_, none, _⟩ => .refused .noWalk
  | some ⟨pos, some _, _⟩ => .next { s with engine := some ⟨pos, none, some leaf⟩ }

/-- A leaf word of a pair table (30_encoding.md R121). -/
def execHtabLeafPair (x y : Fin 16) (s : State) : Host.Outcome State Fault Refusal := endWalk (.pair x y) s

/-- A leaf word of a quad table (30_encoding.md R121). -/
def execHtabLeafQuad (v w x y : Bool) (s : State) : Host.Outcome State Fault Refusal := endWalk (.quad v w x y) s

end Sys2Proof.Machine
end

