-- ==== Sys2Proof/Machine/Dispatch.lean ====
section
/-! DEFINITION. The meaning of each instruction, one arm a constructor. -/

namespace Sys2Proof.Machine

def exec (i : Instr) (s : State) : Host.Outcome State Fault Refusal :=
  match i with
  | .nop => Sys2Proof.Machine.execNop s
  | .huff => Sys2Proof.Machine.execHuff s
  | .antialias bt mixed => Sys2Proof.Machine.execAntialias bt mixed s
  | .hybrid ch bt mixed => Sys2Proof.Machine.execHybrid ch bt mixed s
  | .synth ch nch => Sys2Proof.Machine.execSynth ch nch s
  | .clrstate ch => Sys2Proof.Machine.execClrstate ch s
  | .reserved67 op => Sys2Proof.Machine.execReserved67 op s
  | .reserved8to15 op => Sys2Proof.Machine.execReserved8to15 op s
  | .htabBranch offset => Sys2Proof.Machine.execHtabBranch offset s
  | .htabLeafPair x y => Sys2Proof.Machine.execHtabLeafPair x y s
  | .htabLeafQuad v w x y => Sys2Proof.Machine.execHtabLeafQuad v w x y s

end Sys2Proof.Machine
end

