-- ==== Sys2Proof/Machine/Step.lean ====
section
/-! DEFINITION. One step: the next input happens (00_scope.md R13, 20_memory.md R94, 70_reset_and_hazards.md R360). -/

namespace Sys2Proof.Machine

/-- The sequencer's step on a running command (70_reset_and_hazards.md R360): run what `fetch` finds. -/
def sequencerStep (snap : Snapshot) (s : State) : Host.Outcome State Fault Refusal :=
  match decode (fetch snap s.engine).1 (fetch snap s.engine).2 with
  | .ok (i, _) => exec i s
  | .error _ => .refused .notATableWord

/-- The sequencer's turn: nothing happens while IDLE (10_state.md R58). -/
def sequencerTurn (s : State) : Host.Outcome State Fault Refusal :=
  match s.phase with
  | .idle => .next s
  | .busy snap => sequencerStep snap s

/-- One step: the head of `inputs` happens. With no input left the sequencer has its turn, so a running command completes
(70_reset_and_hazards.md R361) and an idle block stays as it is (60_exceptions.md R325). -/
def step (s : State) : Host.Outcome State Fault Refusal :=
  match s.inputs with
  | [] => sequencerTurn s
  | .read addr width :: rest => hostRead addr width { s with inputs := rest }
  | .write addr width value :: rest => .next (hostWrite addr width value { s with inputs := rest })
  | .sequencer :: rest => sequencerTurn { s with inputs := rest }
  | .powerOn :: rest => .next (powerOnReset { s with inputs := rest })

/-- A command word in CMD with its START just accepted and the sequencer next (30_encoding.md R110, 10_state.md R59). -/
def State.withCommand (s : State) (w : Word) : State :=
  { acceptStart { s with cmd := w &&& cmdMask } with inputs := .sequencer :: s.inputs }

/-- A HUFF in CMD stopped at table word `e`, at index 0 of a table whose contents 30_encoding.md R127 gives, with the
sequencer next (log 10). -/
def State.withTableWord (s : State) (form : Form) (e : Half) : State :=
  let t := acceptStart { s with cmd := 1#32 }
  let table : TableId := if form = .quadWord then .quad false else .pair 1#5
  { t with
    engine := some ⟨t.operands.pos, some ⟨table, 0, e⟩, none⟩
    inputs := .sequencer :: s.inputs }

/-- `s` with the instruction of bits `w` where the next step fetches (log 1, log 10, log 11). -/
def State.withFetchWord (s : State) (nbits w : Nat) : State :=
  if nbits ≤ 16 then s.withTableWord (bareTableForm w) (BitVec.ofNat 16 w) else s.withCommand (BitVec.ofNat 32 w)

end Sys2Proof.Machine
end

