-- ==== Sys2Proof/Safety.lean ====
section
/-! DEFINITION. What counts as a legal state of L3HD, in the terms the claims use: the invariant a step keeps. -/

namespace Sys2Proof.Machine

/-- Reserved register bits are 0 (RAZ/WI, 10_state.md section 3) and the result registers hold values in their ranges
(10_state.md R44). -/
def State.registersOk (s : State) : Bool :=
  decide (s.cmd &&& cmdMask = s.cmd) && decide (s.irqEn &&& irqEnMask = s.irqEn) &&
  decide (s.hufBitpos &&& bitposMask = s.hufBitpos) && decide (s.hufPart2start &&& part2startMask = s.hufPart2start) &&
  decide (s.hufGranule &&& granuleMask = s.hufGranule) && decide (s.hufTables &&& tablesMask = s.hufTables) &&
  decide (s.hufSfbsel &&& sfbselMask = s.hufSfbsel) && decide (s.hufNonzero.toNat ≤ 576) &&
  decide (s.hufRegion.toNat % 65536 ≤ 576) && decide (s.hufRegion.toNat / 65536 ≤ 576) &&
  decide (s.hufBveff.toNat ≤ 288)

/-- A running command has a defined opcode, and its registers equal its snapshot (10_state.md R59; 44_control.md R292:
a reserved opcode ends at its START). -/
def State.commandOk (s : State) : Bool :=
  match s.phase with
  | .idle => true
  | .busy snap => decide (snap = s.parameters) && decide (snap.op < 6)

/-- The four HUFF flags are 0. -/
def Status.noHuffFlags (st : Status) : Bool := !st.bvClamp && !st.empty && !st.qRollback && !st.bvOverrun

/-- DONE and ERR are never both 1 (60_exceptions.md R316), ERRCODE is 0 exactly when ERR is 0 (10_state.md R35), after an
error the HUFF flags are 0 (R313), and while a command runs all of them are 0 (70_reset_and_hazards.md R348). -/
def State.flagsOk (s : State) : Bool :=
  !(s.status.done && s.status.err) && decide (s.status.err = true ↔ s.status.errCode ≠ .none) &&
  (!s.status.err || s.status.noHuffFlags) &&
  (!s.busy || (!s.status.done && !s.status.err && s.status.noHuffFlags))

/-- Hidden state of a stopped HUFF exists only while a HUFF runs (10_state.md R57), and its walk holds the table word at
its index (30_encoding.md R122). -/
def State.engineOk (s : State) : Bool :=
  match s.engine with
  | none => true
  | some e =>
    (match s.phase with
      | .idle => false
      | .busy snap => decide (snap.op = 1)) &&
    (match e.walk with
      | none => true
      | some w => decide (w.table.words[w.index]? = some w.word))

/-- The invariant of the machine. -/
abbrev State.Inv (s : State) : Prop :=
  s.mem.wf = true ∧ s.registersOk = true ∧ s.commandOk = true ∧ s.flagsOk = true ∧ s.engineOk = true

/-- Every byte of `[lo, lo + n)` has been written (10_state.md R56). -/
def Memory.Written (m : Memory) (lo n : Nat) : Prop := ∀ j, j < n → (m.get (lo + j)).isSome = true

/-- `t` is `s` in everything but STATUS, the phase and the hidden state of a stopped HUFF. -/
def SameButStatus (s t : State) : Prop :=
  t = { s with status := t.status, phase := t.phase, engine := t.engine }

/-- The configuration registers: a command writes none of them (10_state.md R33 to R43). -/
def SameConfig (s t : State) : Prop :=
  t.cmd = s.cmd ∧ t.irqEn = s.irqEn ∧ t.hufPart2start = s.hufPart2start ∧ t.hufGranule = s.hufGranule ∧
    t.hufTables = s.hufTables ∧ t.hufSfbsel = s.hufSfbsel

/-- The registers HUFF writes (10_state.md R37, R44). -/
def SameResults (s t : State) : Prop :=
  t.hufBitpos = s.hufBitpos ∧ t.hufNonzero = s.hufNonzero ∧ t.hufRegion = s.hufRegion ∧ t.hufBveff = s.hufBveff

/-- Every byte outside `[lo, lo + n)` reads in `t` as in `s`. -/
def SameOutside (s t : State) (lo n : Nat) : Prop :=
  ∀ a, a < lo ∨ lo + n ≤ a → t.mem.get a = s.mem.get a

/-- Which PCM entry sample `n` of a SYNTH goes to (43_synthesis.md R272). -/
def pcmIndex (ch : Channel) (nch : Packing) (n : Nat) : Nat :=
  match nch with
  | .mono => n
  | .stereo => 2 * n + channelIndex ch

/-! ## Bits of MDB -/

/-- MDB holds the bits `bits` from bit position `pos` up, all of them inside MDB and written (20_memory.md R85). -/
def HoldsBits (m : Memory) (pos : Nat) (bits : List Bool) : Prop :=
  ∀ j (h : j < bits.length), readBit m (pos + j) = .ok (bits[j], pos + j + 1)

/-- The sign bits of some values, one for each that is not 0 (30_encoding.md R125, R126; 1 means negative). -/
def signBits (vals : List Int) : List Bool := (vals.filter (fun v => v ≠ 0)).map (fun v => decide (v < 0))

/-- The bits of a pair coded with table 1 (30_encoding.md R127, R130). -/
def table1Bits (x y : Int) : List Bool :=
  (match x.natAbs, y.natAbs with
    | 0, 0 => [true]
    | 0, _ => [false, false, true]
    | _, 0 => [false, true]
    | _, _ => [false, false, false]) ++ signBits [x, y]

/-- The number vwxy of four magnitudes (30_encoding.md R121). -/
def quadIndex (v w x y : Int) : Nat :=
  8 * min v.natAbs 1 + 4 * min w.natAbs 1 + 2 * min x.natAbs 1 + min y.natAbs 1

/-- The bits of a quad coded with table A, or with table B (the 4 bits of 15 - vwxy) (30_encoding.md R127, R131). -/
def quadBits (tableB : Bool) (q : Int × Int × Int × Int) : List Bool :=
  (if tableB then [q.1 == 0, q.2.1 == 0, q.2.2.1 == 0, q.2.2.2 == 0]
    else Config.tableACodes.getD (quadIndex q.1 q.2.1 q.2.2.1 q.2.2.2) []) ++
    signBits [q.1, q.2.1, q.2.2.1, q.2.2.2]

/-- The bits of a list of pairs from coefficient `k` up, the pair at `k` coded with table `table k`: none for table 0, which
codes only (0, 0), else those of table 1 (30_encoding.md R127; 40_huffman.md R157, R159). -/
def codedPairs (table : Nat → Nat) : Nat → List (Int × Int) → List Bool
  | _, [] => []
  | k, p :: ps => (if table k = 0 then [] else table1Bits p.1 p.2) ++ codedPairs table (k + 2) ps

/-- Table 0 codes only the pair (0, 0), table 1 only values -1, 0 and 1 (30_encoding.md R127). -/
def CodablePairs (table : Nat → Nat) : Nat → List (Int × Int) → Prop
  | _, [] => True
  | k, p :: ps =>
    (table k = 0 ∧ p = (0, 0) ∨ table k = 1 ∧ p.1.natAbs ≤ 1 ∧ p.2.natAbs ≤ 1) ∧ CodablePairs table (k + 2) ps

/-- A value of -1, 0 or 1. -/
def SmallValue (v : Int) : Prop := v.natAbs ≤ 1

/-- IS is unwritten in `m` and every other byte is as in `m₀`: what MDB_RANGE leaves of memory (60_exceptions.md R313). -/
def SpectrumLost (m₀ m : Memory) : Prop :=
  (∀ a, region a = .is → m.get a = none) ∧ (∀ a, region a ≠ .is → m.get a = m₀.get a)

/-! ## The exact transform of a subband -/

/-- Output `i` of the transform 42_hybrid_imdct.md R231 selects for subband `sb`, in exact arithmetic (R232, R234). -/
noncomputable def exactTransform (bt : BlockType) (mixed : Bool) (sb : Nat) (X : Fin 18 → Word) (i : Fin 36) : ℝ :=
  match transformOf bt mixed sb with
  | some b => Exact.long b X i
  | none => Exact.short X i

/-- Where that transform is exactly 0 whatever the inputs (42_hybrid_imdct.md R245, R246). -/
def transformEdge (bt : BlockType) (mixed : Bool) (sb i : Nat) : Bool :=
  match transformOf bt mixed sb with
  | some b => Exact.longEdge b i
  | none => Exact.shortEdge i

/-- The most bits a pair of table `t` can take: no walk visits more words than the table has, and each value has at most
LINBITS escape bits and a sign (30_encoding.md R130). -/
def pairBound (t : Nat) : Nat := (Config.pairWords t).length + 2 * (Config.linbits t + 1)

/-- The most bits a HUFF can read: its pairs, then 144 quads of at most 31 table words and 4 signs (70_reset_and_hazards.md
R361, 30_encoding.md R131). -/
def Snapshot.readBound (ops : Snapshot) : Nat :=
  ops.bv * max (pairBound ops.ts0) (max (pairBound ops.ts1) (pairBound ops.ts2)) + 144 * 35

/-- A state in which exactly one more command, the one in CMD, has been started and has run: the START write and then the
sequencer's step (70_reset_and_hazards.md R348, R360). -/
def runCommand (s : State) : Host.Outcome State Fault Refusal := sequencerTurn (start s)

end Sys2Proof.Machine
end

