-- ==== Sys2Proof/Certificates/Slice0/Obligations.lean ====
section
/-! DEFINITION. The statements for the provers, from the numbered rules of spec/, by family. -/

open Sys2Proof Sys2Proof.Machine

/-! ## Encodings (30_encoding.md) -/

/-- Words written out from R110, R111, R121 and R127 decode to the instructions they stand for; that the bare word 0x000B
is read as a quad leaf is the model's choice (log 11). -/
def Obligations.SpecWordsDecode : Prop :=
  decodeTableWord 32 0x00000000 = some .nop ∧
  decodeTableWord 32 0x00000001 = some .huff ∧
  decodeTableWord 32 0x00000602 = some (.antialias .short true) ∧
  decodeTableWord 32 0x00000113 = some (.hybrid .right .start false) ∧
  decodeTableWord 32 0x00001004 = some (.synth .left .stereo) ∧
  decodeTableWord 32 0x00000015 = some (.clrstate .right) ∧
  decodeTableWord 32 0x00000007 = some (.reserved67 7#4) ∧
  decodeTableWord 32 0x0000000F = some (.reserved8to15 15#4) ∧
  decodeTableWord 16 0xFFFB = some (.htabBranch 5) ∧
  decodeTableWord 16 0x0011 = some (.htabLeafPair 1 1) ∧
  decodeTableWord 16 0x000B = some (.htabLeafQuad true false true true)

/-- Decoding the bytes of a well-formed instruction gives it back, whatever bytes follow (R110, R111, R121): no bit of
an encoding is dropped. -/
def Obligations.DecodeInvertsEncode : Prop :=
  ∀ (i : Instr) (rest : List Byte), WellFormed i = true → decode i.form (encode i ++ rest) = .ok (i, rest)

/-- Two command words that agree on OP and on the fields the row of R111 lists are the same instruction (R112). -/
def Obligations.UnlistedFieldsAreIgnored : Prop :=
  ∀ (w w' : Word), w.field 0 4 = w'.field 0 4 →
    (w.field 0 4 = 2 ∨ w.field 0 4 = 3 → w.field 8 2 = w'.field 8 2 ∧ w.getLsbD 10 = w'.getLsbD 10) →
    (w.field 0 4 = 3 ∨ w.field 0 4 = 4 ∨ w.field 0 4 = 5 → w.getLsbD 4 = w'.getLsbD 4) →
    (w.field 0 4 = 4 → w.getLsbD 12 = w'.getLsbD 12) →
    decodeCommand w = decodeCommand w'

/-- For the words of tables 1, A and B that R127 lists: where MDB holds the codeword of an entry and its sign bits, the
decoder reads exactly those bits and answers those values. In every table a leaf magnitude of 15 takes LINBITS more bits,
most significant first, where LINBITS is not 0; a value that is not 0 takes its sign bit after them, 1 for negative; and x is
read completely before y (R124, R125, R130; 40_huffman.md R158, R160, R161; 20_memory.md R87). -/
def Obligations.ListedCodewordsDecode : Prop :=
  (∀ (m : Memory) (pos : Nat) (x y : Int), SmallValue x → SmallValue y → HoldsBits m pos (table1Bits x y) →
    decodePair m 1 pos = .ok ([x, y], pos + (table1Bits x y).length)) ∧
  (∀ (m : Memory) (pos : Nat) (tableB : Bool) (v w x y : Int), SmallValue v → SmallValue w → SmallValue x → SmallValue y →
    HoldsBits m pos (quadBits tableB (v, w, x, y)) →
    decodeQuad m tableB pos = .ok ([v, w, x, y], pos + (quadBits tableB (v, w, x, y)).length)) ∧
  (∀ (m : Memory) (linbits extra pos : Nat) (negative : Bool), 0 < linbits → extra < 2 ^ linbits →
    HoldsBits m pos (bitsMsb linbits extra ++ [negative]) →
    pairValue m linbits 15 pos =
      .ok (if negative then -(15 + (extra : Int)) else 15 + (extra : Int), pos + linbits + 1)) ∧
  (∀ (m : Memory) (linbits mag pos : Nat) (negative : Bool), linbits = 0 ∨ mag ≠ 15 → mag ≠ 0 → HoldsBits m pos [negative] →
    pairValue m linbits mag pos = .ok (if negative then -(mag : Int) else (mag : Int), pos + 1)) ∧
  (∀ (m : Memory) (linbits pos : Nat), pairValue m linbits 0 pos = .ok (0, pos)) ∧
  (∀ (m : Memory) (t pos p₁ p₂ p₃ : Nat) (e : Half) (x y : Int), walk (Config.pairWords t) m pos = .ok (e, p₁) →
    pairValue m (Config.linbits t) (e.toNat / 16) p₁ = .ok (x, p₂) →
    pairValue m (Config.linbits t) (e.toNat % 16) p₂ = .ok (y, p₃) → decodePair m t pos = .ok ([x, y], p₃)) ∧
  (∀ t, t < 16 → Config.linbits t = 0) ∧
  (List.range 16).map (fun j => Config.linbits (16 + j)) = [1, 2, 3, 4, 6, 8, 10, 13, 4, 5, 6, 7, 8, 9, 11, 13]

/-- No walk from index 0 of a table of HTAB leaves the table, every leaf of the table, answered by a walk or not, is a leaf of
that kind of table in the table's range, and a walk reads at most one bit for each word of the table (R122, R123). A walk that
left its table would end in the model's fault walkLeftTable (log 21). A walk answers a leaf exactly where MDB holds a codeword
of that leaf, and reads exactly that codeword, in the code of the table: those R127 gives for tables 0, 1, A and B, and for
the others the ISO code of that number, which the spec does not reproduce and of which the model knows no codeword (R123;
log 7). -/
def Obligations.WalksEndAtLeaves : Prop :=
  (∀ (t : Nat) (m : Memory) (pos : Nat), t < 32 →
    walk (Config.pairWords t) m pos ≠ .error (.fault .walkLeftTable) ∧
    ∀ e pos', walk (Config.pairWords t) m pos = .ok (e, pos') →
      Config.pairLeafOk (Config.tableSize t) e = true ∧ pos ≤ pos' ∧
        pos' ≤ pos + (Config.pairWords t).length) ∧
  (∀ (tableB : Bool) (m : Memory) (pos : Nat),
    walk (Config.quadWords tableB) m pos ≠ .error (.fault .walkLeftTable) ∧
    ∀ e pos', walk (Config.quadWords tableB) m pos = .ok (e, pos') →
      Config.quadLeafOk e = true ∧ pos ≤ pos' ∧ pos' ≤ pos + 31) ∧
  (∀ t e, t < 32 → e ∈ Config.pairWords t → e.getLsbD 15 = false → Config.pairLeafOk (Config.tableSize t) e = true) ∧
  (∀ tableB e, e ∈ Config.quadWords tableB → e.getLsbD 15 = false → Config.quadLeafOk e = true) ∧
  (∀ (t : Nat) (m : Memory) (pos pos' : Nat) (e : Half), t < 32 →
    (walk (Config.pairWords t) m pos = .ok (e, pos') ↔
      ∃ w, (w, e) ∈ Config.pairCode (Config.codeTable t) ∧ HoldsBits m pos w ∧ pos' = pos + w.length)) ∧
  (∀ (tableB : Bool) (m : Memory) (pos pos' : Nat) (e : Half),
    walk (Config.quadWords tableB) m pos = .ok (e, pos') ↔
      ∃ w, (w, e) ∈ Config.quadCode tableB ∧ HoldsBits m pos w ∧ pos' = pos + w.length)

/-! ## One step (70_reset_and_hazards.md R360) -/

/-- When the sequencer's turn comes and what it fetches decodes to `i`, the step is exec of `i`; it fetches the command word
of the snapshot, or the word of a walk that is under way, and a walk word that is no table word is refused by name. With no
command running its turn, and a step with no input, leave the block as it is (60_exceptions.md R325). An input of the host
is that access, done at once. The list of inputs that says whose turn it is, and what happens when it is empty, are the
model's (log 1, log 2), and so is the refusal (log 21). -/
def Obligations.StepRunsDecodedInstruction : Prop :=
  (∀ (s : State) (snap : Snapshot) (i : Instr) (rest : List Byte), s.phase = .busy snap →
    decode (fetch snap s.engine).1 (fetch snap s.engine).2 = .ok (i, rest) →
    (s.inputs = [] → step s = exec i s) ∧
    (∀ later, s.inputs = .sequencer :: later → step s = exec i { s with inputs := later })) ∧
  (∀ (snap : Snapshot) (engine : Option Engine), (engine = none ∨ ∃ pos d, engine = some ⟨pos, none, d⟩) →
    decode (fetch snap engine).1 (fetch snap engine).2 = .ok (decodeCommand snap.cmd, [])) ∧
  (∀ (snap : Snapshot) (pos : Nat) (w : Walk) (d : Option Leaf) (i : Instr),
    decodeTableHalf w.table.form w.word = .ok i →
    decode (fetch snap (some ⟨pos, some w, d⟩)).1 (fetch snap (some ⟨pos, some w, d⟩)).2 = .ok (i, [])) ∧
  (∀ (s : State) (snap : Snapshot) (pos : Nat) (w : Walk) (d : Option Leaf) (e : DecodeError), s.phase = .busy snap →
    s.engine = some ⟨pos, some w, d⟩ → decodeTableHalf w.table.form w.word = .error e → s.inputs = [] →
    step s = .refused .notATableWord) ∧
  (∀ (s : State), s.phase = .idle →
    (s.inputs = [] → step s = .next s) ∧
    (∀ later, s.inputs = .sequencer :: later → step s = .next { s with inputs := later })) ∧
  (∀ (s : State) (addr : Address) (width : Width) (later : List Input), s.inputs = .read addr width :: later →
    step s = hostRead addr width { s with inputs := later }) ∧
  (∀ (s : State) (addr : Address) (width : Width) (v : Word) (later : List Input),
    s.inputs = .write addr width v :: later → step s = .next (hostWrite addr width v { s with inputs := later }))

/-- Running the words of a table one at a time, as instructions, is `walk` of the table: it ends in the same leaf with the
cursor where `walk` leaves it and changes nothing else (R121, R122; 40_huffman.md R156). That a table word runs as an
instruction of its own is the model's choice (log 10). -/
def Obligations.TableWordsComputeTheWalk : Prop :=
  ∀ (s : State) (snap : Snapshot) (table : TableId) (e₀ e : Half) (pos pos' : Nat) (d : Option Leaf),
    s.phase = .busy snap → s.inputs = [] → s.engine = some ⟨pos, some ⟨table, 0, e₀⟩, d⟩ →
    table.words[0]? = some e₀ → walk table.words s.mem pos = .ok (e, pos') →
    ∃ (n : Nat) (leaf : Leaf),
      (decodeTableHalf table.form e = match leaf with
        | .pair x y => .ok (.htabLeafPair x y)
        | .quad v w x y => .ok (.htabLeafQuad v w x y)) ∧
      Host.Core.run Sys2Proof.core n s = .next { s with engine := some ⟨pos', none, some leaf⟩ }

/-- A branch word reads the bit at the cursor `pos`, bit 7 - (pos mod 8) of byte pos div 8 of MDB, and moves to i + 1 on a 0,
to i + 1 + (-e) on a 1, where the table has a word there; with the cursor at or past the end of MDB it ends the HUFF in
MDB_RANGE; outside a walk it has no meaning and is refused by name, the model's choice (R121, R122; 20_memory.md R85, R86;
log 10, log 21). -/
def Obligations.BranchWordMovesTheWalk : Prop :=
  (∀ (s : State) (offset pos : Nat) (w : Walk) (d : Option Leaf) (b : Byte) (bit : Bool) (e : Half),
    s.engine = some ⟨pos, some w, d⟩ → pos < 32768 → s.mem.get (0x1000 + pos / 8) = some b →
    bit = b.getLsbD (7 - pos % 8) →
    w.table.words[if bit then w.index + 1 + offset else w.index + 1]? = some e →
    exec (.htabBranch offset) s = .next { s with
      engine := some ⟨pos + 1, some ⟨w.table, if bit then w.index + 1 + offset else w.index + 1, e⟩, d⟩ }) ∧
  (∀ (s : State) (offset pos : Nat) (w : Walk) (d : Option Leaf), s.engine = some ⟨pos, some w, d⟩ → 32768 ≤ pos →
    ∃ m : Memory, SpectrumLost s.mem m ∧ exec (.htabBranch offset) s = .next { s with
      phase := .idle, engine := none, status := { s.status with err := true, errCode := .mdbRange }, mem := m }) ∧
  (∀ (s : State) (offset : Nat), (s.engine = none ∨ ∃ pos d, s.engine = some ⟨pos, none, d⟩) →
    exec (.htabBranch offset) s = .refused .noWalk)

/-- A leaf word ends the walk with its symbol, reads no bit and changes nothing else; outside a walk it has no meaning and
is refused by name, the model's choice (R121, R122; 40_huffman.md R156; log 10, log 21). -/
def Obligations.LeafWordsEndTheWalk : Prop :=
  (∀ (s : State) (pos : Nat) (w : Walk) (d : Option Leaf), s.engine = some ⟨pos, some w, d⟩ →
    (∀ x y, exec (.htabLeafPair x y) s = .next { s with engine := some ⟨pos, none, some (.pair x y)⟩ }) ∧
    (∀ a b x y, exec (.htabLeafQuad a b x y) s = .next { s with engine := some ⟨pos, none, some (.quad a b x y)⟩ })) ∧
  (∀ (s : State), (s.engine = none ∨ ∃ pos d, s.engine = some ⟨pos, none, d⟩) →
    (∀ x y, exec (.htabLeafPair x y) s = .refused .noWalk) ∧
    (∀ a b x y, exec (.htabLeafQuad a b x y) s = .refused .noWalk))

/-! ## Invariants of every step -/

/-- The machine's invariant: canonical memory, reserved bits 0 and results in range, the snapshot equal to the registers
while a command runs, the flags consistent, hidden state only inside a HUFF. -/
def Obligations.StepKeepsTheInvariant : Prop :=
  ∀ (s t : State), s.Inv → step s = .next t → t.Inv

/-- Memory keeps its canonical form in every step, from every state whose memory has it. -/
def Obligations.StepKeepsMemoryCanonical : Prop :=
  ∀ (s t : State), s.mem.wf = true → step s = .next t → t.mem.wf = true

def Obligations.ResetMeetsTheInvariant : Prop := State.reset.Inv

/-- A step leaves no HUFF half done where none was: a command is one indivisible transformation (00_scope.md R11). -/
def Obligations.StepLeavesNoHalfDoneCommand : Prop :=
  ∀ (s t : State), s.engine = none → step s = .next t → t.engine = none

/-- Nothing writes MDB but a host write to MDB; only power-on reset forgets it (20_memory.md R86, 10_state.md R48). -/
def Obligations.OnlyTheHostWritesMdb : Prop :=
  ∀ (s t : State) (a : Nat), step s = .next t → region a = .mdb →
    (∀ addr width v rest, s.inputs = .write addr width v :: rest → region addr.toNat ≠ .mdb) →
    (∀ rest, s.inputs ≠ .powerOn :: rest) →
    t.mem.get a = s.mem.get a

/-- The value registers reset to, and the memories: MDB, IS, XR and PCM unwritten, OVL and V +0.0, the sequencer IDLE with
no command, irq 0; the reset input makes any state so at once, of which the model's own fields are no part
(70_reset_and_hazards.md R340). -/
def Obligations.ResetState : Prop :=
  readReg State.reset .id = 0x4C334844#32 ∧
  (∀ r : Reg, r ≠ .id → readReg State.reset r = 0#32) ∧
  State.reset.phase = .idle ∧ State.reset.irq = false ∧ State.reset.engine = none ∧
  (∀ a, region a = .mdb ∨ region a = .is ∨ region a = .xr ∨ region a = .pcm → State.reset.mem.get a = none) ∧
  (∀ a, region a = .ovl ∨ region a = .v → State.reset.mem.get a = some 0#8) ∧
  (∀ (s : State) (rest : List Input), s.inputs = .powerOn :: rest →
    ∃ t, step s = .next t ∧
      t = { State.reset with inputs := t.inputs, readData := t.readData, draws := t.draws })

/-! ## Frames of the commands -/

/-- No command writes a configuration register, CMD_DROP or ACC_ERR, and none touches the bus (10_state.md R41, R47). -/
def Obligations.CommandsKeepConfiguration : Prop :=
  ∀ (i : Instr) (s t : State), exec i s = .next t →
    SameConfig s t ∧ t.inputs = s.inputs ∧ t.readData = s.readData ∧
      t.status.cmdDrop = s.status.cmdDrop ∧ t.status.accErr = s.status.accErr

/-- Only HUFF writes HUF_BITPOS, HUF_NONZERO, HUF_REGION, HUF_BVEFF and the four HUFF flags (10_state.md R44, R47). -/
def Obligations.OnlyHuffWritesResults : Prop :=
  ∀ (i : Instr) (s t : State), i ≠ .huff → exec i s = .next t →
    SameResults s t ∧ t.status.bvClamp = s.status.bvClamp ∧ t.status.empty = s.status.empty ∧
      t.status.qRollback = s.status.qRollback ∧ t.status.bvOverrun = s.status.bvOverrun

/-- What the four data commands leave of the registers, the flags and the sequencer when they complete successfully: HUFF
changes its result registers, HUF_BITPOS, its flags and memory, ALIAS, HYBRID and SYNTH only memory (10_state.md R47;
60_exceptions.md R312); the count of draws is the model's own (log 4). -/
def Obligations.DataCommandsKeepTheirRegisters : Prop :=
  (∀ (s t : State), s.status.err = false → exec .huff s = .next t → t.status.err = false →
    t = { s with
      phase := .idle, engine := none, mem := t.mem
      hufBitpos := t.hufBitpos, hufNonzero := t.hufNonzero, hufRegion := t.hufRegion, hufBveff := t.hufBveff
      status := { s.status with
        done := true, bvClamp := t.status.bvClamp, empty := t.status.empty
        qRollback := t.status.qRollback, bvOverrun := t.status.bvOverrun } }) ∧
  (∀ (bt : BlockType) (mixed : Bool) (s t : State), exec (.antialias bt mixed) s = .next t →
    t = { s with
      phase := .idle, engine := none, mem := t.mem, draws := t.draws, status := { s.status with done := true } }) ∧
  (∀ (ch : Channel) (bt : BlockType) (mixed : Bool) (s t : State), exec (.hybrid ch bt mixed) s = .next t →
    t = { s with
      phase := .idle, engine := none, mem := t.mem, draws := t.draws, status := { s.status with done := true } }) ∧
  (∀ (ch : Channel) (nch : Packing) (s t : State), ¬ (ch = .right ∧ nch = .mono) →
    exec (.synth ch nch) s = .next t →
    t = { s with
      phase := .idle, engine := none, mem := t.mem, draws := t.draws, status := { s.status with done := true } })

/-- An error completion changes STATUS and ends the command; it changes nothing else, but that MDB_RANGE leaves IS
unwritten (60_exceptions.md R313). Stated for every instruction and every state that was not already in error. -/
def Obligations.ErrorsArePrecise : Prop :=
  ∀ (i : Instr) (s t : State), exec i s = .next t → s.status.err = false → t.status.err = true →
    t = { s with
      status := { s.status with err := true, errCode := t.status.errCode }
      phase := .idle
      engine := none
      mem := t.mem } ∧
    (t.status.errCode ≠ .mdbRange → t.mem = s.mem) ∧
    (t.status.errCode = .mdbRange →
      (∀ a, region a = .is → t.mem.get a = none) ∧ (∀ a, region a ≠ .is → t.mem.get a = s.mem.get a))

/-- What each command leaves of the memories: every byte outside the entries it stores reads as before (R49, R50, R51,
R52, R53 of 10_state.md; 40_huffman.md R150, 41_antialias.md R214, 42_hybrid_imdct.md R230, 43_synthesis.md R272,
44_control.md R291). -/
def Obligations.CommandsStoreOnlyTheirEntries : Prop :=
  (∀ (s t : State), exec .nop s = .next t → t.mem = s.mem) ∧
  (∀ (s t : State), exec .huff s = .next t → SameOutside s t (isAddr 0) 1152) ∧
  (∀ (bt : BlockType) (mixed : Bool) (s t : State) (a : Nat), exec (.antialias bt mixed) s = .next t →
    (∀ sb, sb < boundaryCount bt mixed → a < xrAddr (18 * sb + 10) ∨ xrAddr (18 * sb + 26) ≤ a) →
    t.mem.get a = s.mem.get a) ∧
  (∀ (ch : Channel) (bt : BlockType) (mixed : Bool) (s t : State) (a : Nat), exec (.hybrid ch bt mixed) s = .next t →
    region a ≠ .xr → (a < ovlAddr ch 0 0 ∨ ovlAddr ch 32 0 ≤ a) → t.mem.get a = s.mem.get a) ∧
  (∀ (ch : Channel) (nch : Packing) (s t : State) (a : Nat), exec (.synth ch nch) s = .next t →
    (a < vAddr ch 0 ∨ vAddr ch 1024 ≤ a) →
    (∀ n, n < 576 → a < pcmAddr (pcmIndex ch nch n) ∨ pcmAddr (pcmIndex ch nch n + 1) ≤ a) →
    t.mem.get a = s.mem.get a) ∧
  (∀ (ch : Channel) (s t : State) (a : Nat), exec (.clrstate ch) s = .next t →
    (a < ovlAddr ch 0 0 ∨ ovlAddr ch 32 0 ≤ a) → (a < vAddr ch 0 ∨ vAddr ch 1024 ≤ a) →
    t.mem.get a = s.mem.get a) ∧
  (∀ (op : BitVec 4) (s t : State), exec (.reserved67 op) s = .next t → t.mem = s.mem) ∧
  (∀ (op : BitVec 4) (s t : State), exec (.reserved8to15 op) s = .next t → t.mem = s.mem) ∧
  (∀ (offset : Nat) (s t : State) (a : Nat), exec (.htabBranch offset) s = .next t →
    region a ≠ .is → t.mem.get a = s.mem.get a) ∧
  (∀ (x y : Fin 16) (s t : State), exec (.htabLeafPair x y) s = .next t → t.mem = s.mem) ∧
  (∀ (v w x y : Bool) (s t : State), exec (.htabLeafQuad v w x y) s = .next t → t.mem = s.mem)

/-! ## Control commands (44_control.md) -/

/-- NOP completes successfully and does nothing else; a START with OP 0, whatever the other fields of CMD hold, and the
sequencer's step after it leave DONE 1 and the flags an accepted START clears 0 and change nothing else (44_control.md
R290); right after reset CMD holds it. -/
def Obligations.NopCompletes : Prop :=
  (∀ (s : State), exec .nop s = .next { s with
    phase := .idle, engine := none, status := { s.status with done := true } }) ∧
  (∀ (s : State), s.phase = .idle → s.cmd.field 0 4 = 0 →
    runCommand s = .next { s with
      engine := none
      status := { s.status with
        done := true, err := false, errCode := .none
        bvClamp := false, empty := false, qRollback := false, bvOverrun := false } }) ∧
  State.reset.cmd.field 0 4 = 0

/-- CLRSTATE reads CH alone of CMD, zeroes OVL[CH] and V[CH], completes, and changes nothing else (44_control.md R291). -/
def Obligations.ClrstateZeroesItsChannel : Prop :=
  (∀ w : Word, w.field 0 4 = 5 → decodeCommand w = .clrstate (if w.getLsbD 4 then .right else .left)) ∧
  ∀ (s : State) (ch : Channel), ∃ m : Memory,
    exec (.clrstate ch) s = .next { s with
      phase := .idle, engine := none, status := { s.status with done := true }, mem := m } ∧
    (∀ a, ovlAddr ch 0 0 ≤ a → a < ovlAddr ch 32 0 → m.get a = some 0#8) ∧
    (∀ a, vAddr ch 0 ≤ a → a < vAddr ch 1024 → m.get a = some 0#8) ∧
    (∀ a, a < ovlAddr ch 0 0 ∨ ovlAddr ch 32 0 ≤ a → a < vAddr ch 0 ∨ vAddr ch 1024 ≤ a → m.get a = s.mem.get a)

/-- A reserved opcode ends in BAD_OPCODE with no other change, as an instruction and at its START (44_control.md R292). -/
def Obligations.ReservedOpcodesRaiseBadOpcode : Prop :=
  (∀ (s : State) (op : BitVec 4), exec (.reserved67 op) s = .next { s with
    phase := .idle, engine := none, status := { s.status with err := true, errCode := .badOpcode } }) ∧
  (∀ (s : State) (op : BitVec 4), exec (.reserved8to15 op) s = .next { s with
    phase := .idle, engine := none, status := { s.status with err := true, errCode := .badOpcode } }) ∧
  (∀ (s : State), s.phase = .idle → 6 ≤ s.cmd.field 0 4 → start s = { s with
    engine := none
    status := { s.status with
      done := false, err := true, errCode := .badOpcode
      bvClamp := false, empty := false, qRollback := false, bvOverrun := false } })

/-! ## HUFF (40_huffman.md) -/

/-- A HUFF takes its operands from the snapshot, or from the registers where no command runs (10_state.md R59; log 30), at
the bits of R37 to R39, R42 and R43 of 10_state.md, with at most 288 pairs (R153). The region boundaries (R151): 36 and 576
with WS = 1; none with WS = 0 and SRI = 3; else r1 = SFB_LONG[SRI][R0CNT + 1] and r2 = SFB_LONG[SRI][R0CNT + R1CNT + 2], or
576 above index 22. Always r1 < r2, both even, none past 576. -/
def Obligations.RegionBoundariesAreEvenAndOrdered : Prop :=
  (∀ (s : State) (snap : Snapshot), s.phase = .busy snap → s.operands = snap) ∧
  (∀ (s : State), s.phase = .idle → s.operands =
    ⟨s.cmd, s.hufBitpos, s.hufPart2start, s.hufGranule, s.hufTables, s.hufSfbsel⟩) ∧
  (∀ (ops : Snapshot),
    ops.pos = ops.hufBitpos.field 0 16 ∧ ops.p2start = ops.hufPart2start.field 0 16 ∧
    ops.part23Len = ops.hufGranule.field 0 12 ∧ ops.bigValues = ops.hufGranule.field 16 9 ∧
    ops.ts0 = ops.hufTables.field 0 5 ∧ ops.ts1 = ops.hufTables.field 5 5 ∧ ops.ts2 = ops.hufTables.field 10 5 ∧
    ops.r0cnt = ops.hufTables.field 15 4 ∧ ops.r1cnt = ops.hufTables.field 19 3 ∧
    ops.ws = ops.hufTables.getLsbD 22 ∧ ops.c1sel = ops.hufTables.getLsbD 23 ∧ ops.sri = ops.hufSfbsel.field 0 2 ∧
    ops.bv = min (ops.hufGranule.field 16 9) 288) ∧
  (∀ (ops : Snapshot), ops.ws = true → ops.regions = some (36, 576)) ∧
  (∀ (ops : Snapshot), ops.ws = false → ops.sri = 3 → ops.regions = none) ∧
  (∀ (ops : Snapshot), ops.ws = false → ops.sri ≠ 3 → ∃ r1 r2, ops.regions = some (r1, r2) ∧
    (Config.sfbLong ops.sri)[ops.r0cnt + 1]? = some r1 ∧
    (ops.r0cnt + ops.r1cnt + 2 ≤ 22 → (Config.sfbLong ops.sri)[ops.r0cnt + ops.r1cnt + 2]? = some r2) ∧
    (22 < ops.r0cnt + ops.r1cnt + 2 → r2 = 576)) ∧
  (∀ (ops : Snapshot) (r1 r2 : Nat), ops.regions = some (r1, r2) →
    r1 < r2 ∧ r2 ≤ 576 ∧ r1 % 2 = 0 ∧ r2 % 2 = 0 ∧ 0 < r1)

/-- An empty granule: IS all 0, the results 0, the cursor at E1 mod 65536, EMPTY, and BV_CLAMP if big_values is above 288,
whatever the tables, SRI and MDB hold (R154). -/
def Obligations.EmptyGranuleIsSilence : Prop :=
  ∀ (s : State), s.operands.hufGranule.field 0 12 = 0 → ∃ m : Memory,
    exec .huff s = .next { s with
      phase := .idle
      engine := none
      mem := m
      hufNonzero := 0#32
      hufRegion := 0#32
      hufBveff := 0#32
      hufBitpos := BitVec.ofNat 32 (s.operands.hufPart2start.field 0 16 % 65536)
      status := { s.status with
        done := true, empty := true
        bvClamp := decide (288 < s.operands.hufGranule.field 16 9), qRollback := false, bvOverrun := false } } ∧
    (∀ k, k < 576 → m.half (isAddr k) = some 0#16) ∧
    (∀ a, a < isAddr 0 ∨ isAddr 576 ≤ a → m.get a = s.mem.get a)

/-- WS = 0 with SRI = 3 on a granule that is not empty ends in BAD_SFB (R151). -/
def Obligations.ReservedRateRaisesBadSfb : Prop :=
  ∀ (s : State), s.operands.hufGranule.field 0 12 ≠ 0 → s.operands.hufTables.getLsbD 22 = false →
    s.operands.hufSfbsel.field 0 2 = 3 →
    exec .huff s = .next { s with
      phase := .idle, engine := none, status := { s.status with err := true, errCode := .badSfb } }

/-- A region that holds a decoded pair and selects table 4 or 14 ends the command in BAD_TABLE before a bit is read; a
region that holds none may select them (R155). -/
def Obligations.MissingTableRaisesBadTable : Prop :=
  ∀ (s : State) (r1 r2 : Nat), s.operands.hufGranule.field 0 12 ≠ 0 → s.operands.regions = some (r1, r2) →
    (((0 < s.operands.bv ∧ (s.operands.ts0 = 4 ∨ s.operands.ts0 = 14)) ∨
      (r1 < 2 * s.operands.bv ∧ (s.operands.ts1 = 4 ∨ s.operands.ts1 = 14)) ∨
      (r2 < 2 * s.operands.bv ∧ (s.operands.ts2 = 4 ∨ s.operands.ts2 = 14))) →
      exec .huff s = .next { s with
        phase := .idle, engine := none, status := { s.status with err := true, errCode := .badTable } }) ∧
    (¬ ((0 < s.operands.bv ∧ (s.operands.ts0 = 4 ∨ s.operands.ts0 = 14)) ∨
      (r1 < 2 * s.operands.bv ∧ (s.operands.ts1 = 4 ∨ s.operands.ts1 = 14)) ∨
      (r2 < 2 * s.operands.bv ∧ (s.operands.ts2 = 4 ∨ s.operands.ts2 = 14))) →
      s.operands.tablesOk r1 r2 = true ∧
        ∀ t, exec .huff s = .next t → s.status.errCode ≠ .badTable → t.status.errCode ≠ .badTable)

/-- With MDB written, HUFF answers a next state on every granule whose regions and tables exist: it completes successfully,
with the results of R168 to R170, or it ends in MDB_RANGE (R171). It completes where even the longest codewords keep the
cursor inside MDB, and it ends in MDB_RANGE where its first walk has to read a bit at or past the end of MDB. -/
def Obligations.HuffCompletes : Prop :=
  (∀ (s : State) (r1 r2 : Nat), s.operands.part23Len ≠ 0 → s.operands.regions = some (r1, r2) →
    s.operands.tablesOk r1 r2 = true → s.mem.Written (mdbAddr 0) 4096 →
    ∃ t : State, exec .huff s = .next t ∧ t.phase = .idle ∧
      (t.status.done = true ∧ t.status.err = s.status.err ∧
        t.status.bvClamp = decide (288 < s.operands.bigValues) ∧ t.status.empty = false ∧
        t.hufBveff = BitVec.ofNat 32 (min s.operands.bigValues 288) ∧
        t.hufRegion = BitVec.ofNat 32 (r1 + 65536 * r2) ∧
        t.hufBitpos = BitVec.ofNat 32 ((s.operands.p2start + s.operands.part23Len) % 65536) ∧
        t.hufNonzero.toNat ≤ 576 ∧ 2 * (min s.operands.bigValues 288) ≤ t.hufNonzero.toNat ∧
        (∀ k, k < 576 → (t.mem.half (isAddr k)).isSome = true) ∧
        (∀ k, t.hufNonzero.toNat ≤ k → k < 576 → t.mem.half (isAddr k) = some 0#16) ∨
       32768 < s.operands.pos + s.operands.readBound ∧ SpectrumLost s.mem t.mem ∧
        t = { s with
          phase := .idle, engine := none, mem := t.mem
          status := { s.status with err := true, errCode := .mdbRange } })) ∧
  (∀ (s : State) (r1 r2 : Nat), s.operands.part23Len ≠ 0 → s.operands.regions = some (r1, r2) →
    s.operands.tablesOk r1 r2 = true → 32768 ≤ s.operands.pos →
    (0 < s.operands.bv ∧ (∃ e, (Config.pairWords s.operands.ts0)[0]? = some e ∧ e.getLsbD 15 = true) ∨
      s.operands.bv = 0 ∧ s.operands.pos < s.operands.p2start + s.operands.part23Len) →
    ∃ m : Memory, SpectrumLost s.mem m ∧ exec .huff s = .next { s with
      phase := .idle, engine := none, status := { s.status with err := true, errCode := .mdbRange }, mem := m })

/-- Every value HUFF writes lies in -8206 to 8206, so it fits its 16 bits, under either OVERRUN_SLACK (10_state.md R49,
R160). -/
def Obligations.SpectrumValuesAreBounded : Prop :=
  ∀ (slack : Nat) (ops : Snapshot) (m : Memory) (r : HuffResult), huffDecode slack ops m = .ok r →
    r.spectrum.length = 576 ∧ ∀ v ∈ r.spectrum, -8206 ≤ v ∧ v ≤ 8206

/-- What an encoder of tables 0, 1, A and B writes, HUFF decodes: pairs, each coded with the table of its region (TS0 below
r1, TS1 below r2, else TS2), then quads, each with its sign bits, ending exactly at E1, come back as the spectrum, with every
other coefficient 0, no flag but DONE, and the cursor at E1 (R157 to R160, R165, R168 to R170; 30_encoding.md R127, R130 to
R132). -/
def Obligations.HuffDecodesAnEncodedGranule : Prop :=
  ∀ (s : State) (r1 r2 : Nat) (pairs : List (Int × Int)) (quads : List (Int × Int × Int × Int)) (table : Nat → Nat),
    (∀ k, table k = if k < r1 then s.operands.ts0 else if k < r2 then s.operands.ts1 else s.operands.ts2) →
    CodablePairs table 0 pairs →
    (∀ q ∈ quads, SmallValue q.1 ∧ SmallValue q.2.1 ∧ SmallValue q.2.2.1 ∧ SmallValue q.2.2.2) →
    2 * pairs.length + 4 * quads.length ≤ 576 →
    s.operands.bigValues = pairs.length → s.operands.regions = some (r1, r2) →
    s.operands.part23Len ≠ 0 →
    HoldsBits s.mem s.operands.pos (codedPairs table 0 pairs ++ quads.flatMap (quadBits s.operands.c1sel)) →
    s.operands.p2start + s.operands.part23Len = s.operands.pos +
      (codedPairs table 0 pairs ++ quads.flatMap (quadBits s.operands.c1sel)).length →
    ∃ t : State, exec .huff s = .next t ∧ t.status.done = true ∧ t.status.qRollback = false ∧
      t.status.bvOverrun = false ∧ t.status.bvClamp = false ∧ t.status.empty = false ∧
      t.hufNonzero.toNat = 2 * pairs.length + 4 * quads.length ∧
      t.hufBitpos = BitVec.ofNat 32 ((s.operands.p2start + s.operands.part23Len) % 65536) ∧
      ∀ k, k < 576 → t.mem.half (isAddr k) =
        some (BitVec.ofInt 16
          ((pairs.flatMap (fun p => [p.1, p.2]) ++
            quads.flatMap (fun q => [q.1, q.2.1, q.2.2.1, q.2.2.2])).getD k 0))

/-- Once both regions are decoded HUFF completes. The last quad is discarded exactly when a quad was decoded and the cursor
has passed E1 + OVERRUN_SLACK; the quads kept give HUF_NONZERO and the entries of IS, and Q_ROLLBACK and BV_OVERRUN say what
happened (R164, R167 to R170). Stated for every slack; the machine's is 0 or 1, which is all that is known of it (00_scope.md
R6, 92_eei_decisions.md D10; log 8). Pairs are decoded one after another whatever the cursor, each with the table of its
region (R157, R158, R162); quads while the index is below 576 and the cursor before E1 (R165). -/
def Obligations.OverrunDiscardsOneQuad : Prop :=
  (∀ (slack : Nat) (s : State) (r1 r2 : Nat) (pairVals quadVals : List Int) (pairPos quadPos : Nat),
    s.operands.part23Len ≠ 0 → s.operands.regions = some (r1, r2) → s.operands.tablesOk r1 r2 = true →
    decodePairs s.operands r1 r2 s.mem s.operands.bv 0 s.operands.pos = .ok (pairVals, pairPos) →
    decodeQuads s.mem s.operands.c1sel (s.operands.p2start + s.operands.part23Len) 144 (2 * s.operands.bv) pairPos =
      .ok (quadVals, quadPos) →
    ∃ t : State, huffWith slack s = .next t ∧ (slack = Config.overrunSlack → exec .huff s = .next t) ∧
      t.status.done = true ∧
      (t.status.qRollback = true ↔ quadVals ≠ [] ∧ s.operands.p2start + s.operands.part23Len + slack < quadPos) ∧
      (t.status.bvOverrun = true ↔ s.operands.p2start + s.operands.part23Len < pairPos) ∧
      t.status.bvClamp = decide (288 < s.operands.bigValues) ∧ t.status.empty = false ∧
      t.hufNonzero.toNat = min (2 * s.operands.bv + quadVals.length - (if t.status.qRollback then 4 else 0)) 576 ∧
      t.hufRegion = BitVec.ofNat 32 (r1 + 65536 * r2) ∧ t.hufBveff = BitVec.ofNat 32 s.operands.bv ∧
      t.hufBitpos = BitVec.ofNat 32 ((s.operands.p2start + s.operands.part23Len) % 65536) ∧
      (∀ k, k < 576 → t.mem.half (isAddr k) =
        some (BitVec.ofInt 16 (if k < t.hufNonzero.toNat then (pairVals ++ quadVals).getD k 0 else 0)))) ∧
  (Config.overrunSlack = 0 ∨ Config.overrunSlack = 1) ∧
  (∀ (ops : Snapshot) (r1 r2 : Nat) (m : Memory) (k pos : Nat), decodePairs ops r1 r2 m 0 k pos = .ok ([], pos)) ∧
  (∀ (ops : Snapshot) (r1 r2 : Nat) (m : Memory) (n k pos p q : Nat) (xy rest : List Int),
    decodePair m (if k < r1 then ops.ts0 else if k < r2 then ops.ts1 else ops.ts2) pos = .ok (xy, p) →
    decodePairs ops r1 r2 m n (k + 2) p = .ok (rest, q) →
    decodePairs ops r1 r2 m (n + 1) k pos = .ok (xy ++ rest, q)) ∧
  (∀ (m : Memory) (c1sel : Bool) (endPos fuel idx pos : Nat), 576 ≤ idx ∨ endPos ≤ pos →
    decodeQuads m c1sel endPos fuel idx pos = .ok ([], pos)) ∧
  (∀ (m : Memory) (c1sel : Bool) (endPos fuel idx pos p q : Nat) (vals rest : List Int), idx < 576 → pos < endPos →
    decodeQuad m c1sel pos = .ok (vals, p) → decodeQuads m c1sel endPos fuel (idx + 4) p = .ok (rest, q) →
    decodeQuads m c1sel endPos (fuel + 1) idx pos = .ok (vals ++ rest, q))

/-- HUFF reads nothing but its HUF_* operands and MDB: two states that agree on those and on STATUS end alike, whatever
CMD, the other memories and the registers that are no operands hold (R150; 30_encoding.md R112). -/
def Obligations.HuffReadsOnlyItsOperands : Prop :=
  ∀ (s s' : State), { s.operands with cmd := 0#32 } = { s'.operands with cmd := 0#32 } →
    (∀ a, region a = .mdb → s.mem.get a = s'.mem.get a) → s.status = s'.status →
    (∀ f, exec .huff s = .fault f → exec .huff s' = .fault f) ∧
    (∀ t, exec .huff s = .next t → ∃ t', exec .huff s' = .next t' ∧ t.status = t'.status ∧
      (t.status.err = false → t.hufBitpos = t'.hufBitpos ∧ t.hufNonzero = t'.hufNonzero ∧
        t.hufRegion = t'.hufRegion ∧ t.hufBveff = t'.hufBveff ∧
        ∀ a, region a = .is → t.mem.get a = t'.mem.get a))

/-! ## ALIAS (41_antialias.md) -/

/-- ALIAS completes wherever the entries around its boundaries are written, and each butterfly's two entries are those of
R212 from the values at START, with the constants of R211. A result that is no NaN is stored as it is; for a NaN result every
NaN is possible, and nothing else, its sign and payload being free (R212 to R216, R218; log 4, log 29). -/
def Obligations.AliasAppliesItsButterflies : Prop :=
  (∀ (bt : BlockType) (mixed : Bool) (s : State),
    (∀ sb, sb < boundaryCount bt mixed → s.mem.Written (xrAddr (18 * sb + 10)) 64) →
    ∃ t : State, exec (.antialias bt mixed) s = .next t ∧
      ∀ sb i lo up cs ca, sb < boundaryCount bt mixed → i < 8 →
        s.mem.word (xrAddr (18 * sb + 17 - i)) = some lo → s.mem.word (xrAddr (18 * (sb + 1) + i)) = some up →
        Config.cs[i]? = some cs → Config.ca[i]? = some ca →
        t.mem.word (xrAddr (18 * sb + 17 - i)) =
          some (F32.settle (s.draw (18 * sb + 17 - i)) (F32.sub (F32.mul lo cs) (F32.mul up ca))) ∧
        t.mem.word (xrAddr (18 * (sb + 1) + i)) =
          some (F32.settle (s.draw (18 * (sb + 1) + i)) (F32.add (F32.mul up cs) (F32.mul lo ca)))) ∧
  (∀ draw r : Word, F32.isNaN r = false → F32.settle draw r = r) ∧
  (∀ draw r : Word, F32.isNaN r = true → F32.isNaN (F32.settle draw r) = true) ∧
  (∀ r x : Word, F32.isNaN r = true → F32.isNaN x = true → ∃ draw : Word, F32.settle draw r = x) ∧
  (∀ x : Word, F32.isNaN x = true ↔ x.field 23 8 = 255 ∧ x.field 0 23 ≠ 0) ∧
  Config.cs = [0x3F5B84A8#32, 0x3F61B9D8#32, 0x3F731ADD#32, 0x3F7BBA81#32, 0x3F7EDA41#32, 0x3F7FC8FD#32, 0x3F7FF965#32,
    0x3F7FFF8D#32] ∧
  Config.ca = [0xBF03B5FE#32, 0xBEF186DA#32, 0xBEA07302#32, 0xBE3A4774#32, 0xBDC1B01D#32, 0xBD27CB87#32, 0xBC68A11D#32,
    0xBB727B46#32]

/-- How many boundaries each block type has (R213), and a pure short block reads and changes no entry. -/
def Obligations.AliasSkipsPureShortBlocks : Prop :=
  (∀ bt mixed, bt ≠ .short → boundaryCount bt mixed = 31) ∧ boundaryCount .short true = 1 ∧
  ∀ (s : State), ∃ t, exec (.antialias .short false) s = .next t ∧ t.mem = s.mem ∧ t.status.done = true

/-- Entries 8 and 9 of every subband, XR[0..9] and XR[566..575] are never touched (R214). -/
def Obligations.AliasNeverTouchesMiddleEntries : Prop :=
  ∀ (bt : BlockType) (mixed : Bool) (s t : State) (sb i : Nat), sb < 32 → i < 18 →
    exec (.antialias bt mixed) s = .next t →
    (i = 8 ∨ i = 9 ∨ 18 * sb + i ≤ 9 ∨ 566 ≤ 18 * sb + i) →
    t.mem.word (xrAddr (18 * sb + i)) = s.mem.word (xrAddr (18 * sb + i))

/-- A silent XR stays silent: with every entry +0 ALIAS leaves every byte of memory as it was (R221). -/
def Obligations.AliasKeepsSilence : Prop :=
  ∀ (bt : BlockType) (mixed : Bool) (s : State), (∀ k, k < 576 → s.mem.word (xrAddr k) = some F32.plusZero) →
    ∃ t, exec (.antialias bt mixed) s = .next t ∧ ∀ a, t.mem.get a = s.mem.get a

/-- The binary32 addition rounds to nearest, ties to even: no finite value is nearer to the exact sum, and one as near
belongs to a tie whose even side was taken (R216). Past the range the result is the infinity of the sum's sign, from the
midpoint above the largest finite value on; an exact sum of 0 is +0 but for two negative operands; NaN and infinity give the
classes of IEEE 754; a subtraction adds the operand with its sign bit flipped (R216 to R218). A value is read off its encoding
in units of 2^-149 (20_memory.md R89). -/
def Obligations.AdditionRoundsToNearestEven : Prop :=
  (∀ (a b : Word), F32.isFinite a = true → F32.isFinite b = true → F32.isFinite (F32.add a b) = true →
    ∀ c : Word, F32.isFinite c = true →
      |F32.units (F32.add a b) - (F32.units a + F32.units b)| ≤ |F32.units c - (F32.units a + F32.units b)| ∧
      (|F32.units (F32.add a b) - (F32.units a + F32.units b)| = |F32.units c - (F32.units a + F32.units b)| →
        F32.units c ≠ F32.units (F32.add a b) → (F32.add a b).toNat % 2 = 0)) ∧
  (∀ (a b : Word), F32.isFinite a = true → F32.isFinite b = true →
    (F32.isFinite (F32.add a b) = false ↔ (2 ^ 25 - 1) * 2 ^ 252 ≤ |F32.units a + F32.units b|) ∧
    (F32.isFinite (F32.add a b) = false →
      F32.add a b = if F32.units a + F32.units b < 0 then 0xFF800000#32 else 0x7F800000#32) ∧
    (F32.units a + F32.units b = 0 →
      F32.add a b = if F32.sign a && F32.sign b then 0x80000000#32 else 0x00000000#32)) ∧
  (∀ (a b : Word), F32.isNaN a = true ∨ F32.isNaN b = true → F32.isNaN (F32.add a b) = true) ∧
  (∀ (a b : Word), F32.isInf a = true → F32.isInf b = true →
    (F32.sign a = F32.sign b → F32.add a b = a) ∧ (F32.sign a ≠ F32.sign b → F32.isNaN (F32.add a b) = true)) ∧
  (∀ (a b : Word), F32.isInf a = true → F32.isFinite b = true → F32.add a b = a ∧ F32.add b a = a) ∧
  (∀ (a b : Word), F32.sub a b = F32.add a (b ^^^ 0x80000000#32)) ∧
  (∀ (a : Word), (F32.isFinite a = true ↔ a.field 23 8 ≠ 255) ∧ F32.sign a = a.getLsbD 31 ∧
    (F32.isInf a = true ↔ a.field 23 8 = 255 ∧ a.field 0 23 = 0) ∧
    F32.units a = (if a.getLsbD 31 then -1 else 1) *
      (if a.field 23 8 = 0 then (a.field 0 23 : Int) else (2 ^ 23 + (a.field 0 23 : Int)) * 2 ^ (a.field 23 8 - 1)))

/-- The binary32 multiplication rounds to nearest, ties to even (R216); products are compared in units of 2^-298. Past the
range the result is an infinity, from the midpoint above the largest finite value on; the sign of every result that is no
NaN, a zero included, is the product of the signs; NaN and infinity give the classes of IEEE 754 (R216 to R218). -/
def Obligations.MultiplicationRoundsToNearestEven : Prop :=
  (∀ (a b : Word), F32.isFinite a = true → F32.isFinite b = true → F32.isFinite (F32.mul a b) = true →
    ∀ c : Word, F32.isFinite c = true →
      |F32.units (F32.mul a b) * 2 ^ 149 - F32.units a * F32.units b| ≤
        |F32.units c * 2 ^ 149 - F32.units a * F32.units b| ∧
      (|F32.units (F32.mul a b) * 2 ^ 149 - F32.units a * F32.units b| =
          |F32.units c * 2 ^ 149 - F32.units a * F32.units b| →
        F32.units c ≠ F32.units (F32.mul a b) → (F32.mul a b).toNat % 2 = 0)) ∧
  (∀ (a b : Word), F32.isFinite a = true → F32.isFinite b = true →
    (F32.isFinite (F32.mul a b) = false ↔ (2 ^ 25 - 1) * 2 ^ 401 ≤ |F32.units a * F32.units b|) ∧
    (F32.isFinite (F32.mul a b) = false → F32.isInf (F32.mul a b) = true) ∧
    F32.sign (F32.mul a b) = (F32.sign a != F32.sign b)) ∧
  (∀ (a b : Word), F32.isNaN a = true ∨ F32.isNaN b = true → F32.isNaN (F32.mul a b) = true) ∧
  (∀ (a b : Word), F32.isInf a = true → F32.isNaN b = false →
    (F32.isZero b = true → F32.isNaN (F32.mul a b) = true ∧ F32.isNaN (F32.mul b a) = true) ∧
    (F32.isZero b = false →
      F32.mul a b = (if F32.sign a = F32.sign b then 0x7F800000#32 else 0xFF800000#32) ∧ F32.mul b a = F32.mul a b))

/-! ## HYBRID (42_hybrid_imdct.md) -/

/-- HYBRID completes wherever XR is written; every subband's new overlap is the second half of its transform and its
samples are the first half added to the carried overlap (R240, R243): one binary32 addition where both are finite and their
exact sum is in the binary32 range as the model reads it, else a free value (41_antialias.md R218; log 19, log 20). The
transform is the long one with window 0, 1 or 3 for BT 0, 1 or 3, the long one with window 0 for subbands 0 and 1 of a mixed
block of BT 2, and the short one for every other subband of BT 2 (R231). -/
def Obligations.HybridOverlapAddsEverySubband : Prop :=
  (∀ (ch : Channel) (bt : BlockType) (mixed : Bool) (s : State), s.mem.Written (xrAddr 0) 2304 →
    ∃ t : State, exec (.hybrid ch bt mixed) s = .next t ∧ t.status.done = true ∧ t.phase = .idle ∧
      ∀ sb X, sb < 32 → s.mem.words (xrAddr (18 * sb)) 18 = some X →
        ∀ i (h : i < 18),
          t.mem.word (ovlAddr ch sb i) = some (transform (s.draws + sb) bt mixed sb X ⟨18 + i, by omega⟩) ∧
          ∀ v, s.mem.word (ovlAddr ch sb i) = some v →
            t.mem.word (xrAddr (18 * sb + i)) =
              some (overlapAdd (s.draw (18 * sb + i)) (transform (s.draws + sb) bt mixed sb X ⟨i, by omega⟩) v)) ∧
  (∀ (n sb : Nat) (mixed : Bool) (X : List Word),
    transform n .normal mixed sb X = Config.imdct.long n .normal (fun k => X.getD k.val 0) ∧
    transform n .start mixed sb X = Config.imdct.long n .start (fun k => X.getD k.val 0) ∧
    transform n .stop mixed sb X = Config.imdct.long n .stop (fun k => X.getD k.val 0) ∧
    (mixed = true ∧ sb < 2 → transform n .short mixed sb X = Config.imdct.long n .normal (fun k => X.getD k.val 0)) ∧
    (mixed = false ∨ 2 ≤ sb → transform n .short mixed sb X = Config.imdct.short n (fun k => X.getD k.val 0))) ∧
  (∀ (draw o v : Word),
    (F32.isFinite o = true → F32.isFinite v = true → |F32.units o + F32.units v| ≤ (2 ^ 24 - 1) * 2 ^ 253 →
      overlapAdd draw o v = F32.add o v) ∧
    (F32.isFinite o = false ∨ F32.isFinite v = false ∨ (2 ^ 24 - 1) * 2 ^ 253 < |F32.units o + F32.units v| →
      overlapAdd draw o v = draw))

/-- A subband whose inputs are all zero gives a new overlap of exactly +0, and its samples are the carried overlap, bit
for bit but that -0 becomes +0 (R237, R240, R246). -/
def Obligations.SilentSubbandPassesItsOverlap : Prop :=
  ∀ (ch : Channel) (bt : BlockType) (mixed : Bool) (s t : State) (sb i : Nat) (v : Word), sb < 32 → i < 18 →
    exec (.hybrid ch bt mixed) s = .next t →
    (∀ k, k < 18 → ∃ x, s.mem.word (xrAddr (18 * sb + k)) = some x ∧ F32.isZero x = true) →
    s.mem.word (ovlAddr ch sb i) = some v → F32.isFinite v = true →
    t.mem.word (ovlAddr ch sb i) = some F32.plusZero ∧
    t.mem.word (xrAddr (18 * sb + i)) = some (if F32.isZero v then F32.plusZero else v)

/-- For finite inputs every output of a subband's transform, long or short, is within TOL_IMDCT of the exact one, where that
is in the binary32 range as the model reads it (log 20): the new overlap is such an output, and a sample is such an output
added to a finite carried overlap, where the exact sum is in that range, and has its value where that overlap is a zero. Where
the transform is exactly 0 the new overlap is exactly +0 and the sample is a finite carried overlap (R232 to R235, R240,
R245, R246). -/
def Obligations.HybridMeetsItsTolerance : Prop :=
  ∀ (ch : Channel) (bt : BlockType) (mixed : Bool) (s t : State) (sb i : Nat) (h : i < 18)
    (X : Fin 18 → Word), sb < 32 → exec (.hybrid ch bt mixed) s = .next t →
    (∀ k : Fin 18, s.mem.word (xrAddr (18 * sb + k)) = some (X k)) → Exact.AllFinite X →
    (Exact.InRange (exactTransform bt mixed sb X ⟨18 + i, by omega⟩) →
      ∃ w, t.mem.word (ovlAddr ch sb i) = some w ∧ F32.isFinite w = true ∧
        |Exact.real w - exactTransform bt mixed sb X ⟨18 + i, by omega⟩| ≤
          (Config.imdct.tol : ℝ) * Exact.absSum X) ∧
    (transformEdge bt mixed sb (18 + i) = true → t.mem.word (ovlAddr ch sb i) = some F32.plusZero) ∧
    (∀ v, s.mem.word (ovlAddr ch sb i) = some v → F32.isFinite v = true →
      (Exact.InRange (exactTransform bt mixed sb X ⟨i, by omega⟩) →
        ∃ o, F32.isFinite o = true ∧
          |Exact.real o - exactTransform bt mixed sb X ⟨i, by omega⟩| ≤ (Config.imdct.tol : ℝ) * Exact.absSum X ∧
          (|F32.units o + F32.units v| ≤ (2 ^ 24 - 1) * 2 ^ 253 →
            t.mem.word (xrAddr (18 * sb + i)) = some (F32.add o v)) ∧
          (F32.isZero v = true → ∃ w, t.mem.word (xrAddr (18 * sb + i)) = some w ∧ F32.isFinite w = true ∧
            Exact.real w = Exact.real o)) ∧
      (transformEdge bt mixed sb i = true →
        t.mem.word (xrAddr (18 * sb + i)) = some (if F32.isZero v then F32.plusZero else v)))

/-- In the short form the last six overlap values are exactly +0 and the first six samples are the carried overlap, for
finite inputs (R234, R246). -/
def Obligations.ShortFormEdgesAreExact : Prop :=
  ∀ (ch : Channel) (bt : BlockType) (mixed : Bool) (s t : State) (sb : Nat) (X : Fin 18 → Word), sb < 32 →
    exec (.hybrid ch bt mixed) s = .next t → transformOf bt mixed sb = none →
    (∀ k : Fin 18, s.mem.word (xrAddr (18 * sb + k)) = some (X k)) → Exact.AllFinite X →
    (∀ i, 12 ≤ i → i < 18 → t.mem.word (ovlAddr ch sb i) = some F32.plusZero) ∧
    (∀ i v, i < 6 → s.mem.word (ovlAddr ch sb i) = some v → F32.isFinite v = true →
      t.mem.word (xrAddr (18 * sb + i)) = some (if F32.isZero v then F32.plusZero else v))

/-! ## SYNTH (43_synthesis.md) -/

/-- Channel 1 in mono ends SYNTH in BAD_CHANNEL with no other change, whatever is written; HYBRID and CLRSTATE of channel 1
make no such check (R274). -/
def Obligations.MonoRightRaisesBadChannel : Prop :=
  (∀ (s : State), exec (.synth .right .mono) s = .next { s with
    phase := .idle, engine := none, status := { s.status with err := true, errCode := .badChannel } }) ∧
  (∀ (s t : State) (bt : BlockType) (mixed : Bool), exec (.hybrid .right bt mixed) s = .next t →
    t.status = { s.status with done := true }) ∧
  (∀ (s t : State), exec (.clrstate .right) s = .next t → t.status = { s.status with done := true })

/-- SYNTH completes wherever XR is written: V[CH] and the 576 PCM samples are those of the 18 slots of R275, packed as R272
says. -/
def Obligations.SynthStoresHistoryAndPcm : Prop :=
  ∀ (ch : Channel) (nch : Packing) (s : State) (XR V : List Word), ¬ (ch = .right ∧ nch = .mono) →
    XR.length = 576 → V.length = 1024 →
    (∀ k (h : k < XR.length), s.mem.word (xrAddr k) = some XR[k]) →
    (∀ i (h : i < V.length), s.mem.word (vAddr ch i) = some V[i]) →
    ∃ t : State, exec (.synth ch nch) s = .next t ∧ t.status.done = true ∧ t.phase = .idle ∧
      (∀ i, i < 1024 → t.mem.word (vAddr ch i) = (synthSlots s.draws XR 18 0 V).2[i]?) ∧
      (∀ n, n < 576 → t.mem.half (pcmAddr (pcmIndex ch nch n)) = (synthSlots s.draws XR 18 0 V).1[n]?)

/-- The slots of a command run in order, each from the history the one before it leaves, and the last one's history is what
they end with; no slot answers no sample and leaves the history as it is (R275). One slot (R262 to R265): its input is XR's
slot, the sign bit flipped in an odd slot of an odd subband; the history moves by 64 and its newest 64 entries are the matrix
of the slot's input; U interleaves the history's blocks; and the samples of the slot are ROUND of the window's amplitudes where
those are finite, under the machine's PCM_ROUNDING, of which nothing is known but that it is one of the two readings (log 9).
With finite inputs the matrix outputs and the amplitudes are within TOL_SYNTH of the exact sums, where those are in the
binary32 range as the model reads it (R264, R267, R268, R276; log 20). -/
def Obligations.SynthSlotShiftsHistory : Prop :=
  (∀ (draws ts : Nat) (XR V : List Word), synthSlots draws XR 0 ts V = ([], V)) ∧
  ∀ (draws n ts : Nat) (XR V : List Word), V.length = 1024 →
    (∀ sb : Fin 32, slotInput XR ts sb =
      if sb.val % 2 = 1 ∧ ts % 2 = 1 then XR.getD (18 * sb.val + ts) 0 ^^^ 0x80000000#32 else XR.getD (18 * sb.val + ts) 0) ∧
    ∃ V1 : List Word, V1.length = 1024 ∧
      (∀ i : Fin 64, V1[i.val]? = some (Config.filterbank.matrix (draws + ts) (slotInput XR ts) i)) ∧
      (∀ i : Fin 64, Exact.AllFinite (slotInput XR ts) → Exact.InRange (Exact.matrix (slotInput XR ts) i) →
        ∃ w, V1[i.val]? = some w ∧ F32.isFinite w = true ∧
          |Exact.real w - Exact.matrix (slotInput XR ts) i| ≤
            (Config.filterbank.tol : ℝ) * Exact.absSum (slotInput XR ts)) ∧
      (∀ i, 64 ≤ i → i < 1024 → V1[i]? = V[i - 64]?) ∧
      (∀ b j (hb : b < 8) (hj : j < 32),
        V1[128 * b + j]? = some (windowInput V1 ⟨64 * b + j, by omega⟩) ∧
        V1[128 * b + 96 + j]? = some (windowInput V1 ⟨64 * b + 32 + j, by omega⟩)) ∧
      (synthSlots draws XR (n + 1) ts V).2 = (synthSlots draws XR n (ts + 1) V1).2 ∧
      (synthSlots draws XR (n + 1) ts V).1.drop 32 = (synthSlots draws XR n (ts + 1) V1).1 ∧
      (∀ j : Fin 32,
        F32.isFinite (Config.filterbank.window (draws + ts) (windowInput V1) j) = true →
        (synthSlots draws XR (n + 1) ts V).1[j.val]? = some (BitVec.ofInt 16
          (roundPcm Config.pcmRounding (Config.filterbank.window (draws + ts) (windowInput V1) j)))) ∧
      (∀ j : Fin 32, Exact.AllFinite (Exact.foldInput (windowInput V1) j) →
        Exact.InRange (Exact.amplitude Config.synthWindow.d (windowInput V1) j) →
        ∃ a, F32.isFinite a = true ∧
          |Exact.real a - Exact.amplitude Config.synthWindow.d (windowInput V1) j| ≤ (Config.filterbank.tol : ℝ) *
            (32768 * ∑ m, |Exact.foldTerm Config.synthWindow.d (windowInput V1) j m|) ∧
          (synthSlots draws XR (n + 1) ts V).1[j.val]? = some (BitVec.ofInt 16 (roundPcm Config.pcmRounding a)))

/-- Zero in, zero out: with XR and V[CH] all zeros every PCM sample the command stores is 0 and V[CH] ends all zero (R277). -/
def Obligations.SilenceInSilenceOut : Prop :=
  ∀ (ch : Channel) (nch : Packing) (s : State), ¬ (ch = .right ∧ nch = .mono) →
    (∀ k, k < 576 → ∃ x, s.mem.word (xrAddr k) = some x ∧ F32.isZero x = true) →
    (∀ i, i < 1024 → ∃ v, s.mem.word (vAddr ch i) = some v ∧ F32.isZero v = true) →
    ∃ t : State, exec (.synth ch nch) s = .next t ∧
      (∀ n, n < 576 → t.mem.half (pcmAddr (pcmIndex ch nch n)) = some 0#16) ∧
      (∀ i, i < 1024 → ∃ v, t.mem.word (vAddr ch i) = some v ∧ F32.isZero v = true)

/-- ROUND under TRUNC_HALF_NEG: floor(s + 1/2) clamped for s ≥ -1/2; below that, floor(s + 1/2) clamped, less 1 where
s + 1/2 is an integer. A negative exact integer is kept, and an infinite or NaN amplitude gives any value (R271). -/
def Obligations.RoundingIsHalfUpAboveMinusHalf : Prop :=
  (∀ s : Word, F32.isFinite s = true →
    (-(2 ^ 148) ≤ F32.units s → roundPcm .truncHalfNeg s =
      max (-32768) (min ((F32.units s + 2 ^ 148) / 2 ^ 149) 32767)) ∧
    (F32.units s < -(2 ^ 148) → (F32.units s + 2 ^ 148) % 2 ^ 149 ≠ 0 → roundPcm .truncHalfNeg s =
      max (-32768) (min ((F32.units s + 2 ^ 148) / 2 ^ 149) 32767)) ∧
    (F32.units s < -(2 ^ 148) → (F32.units s + 2 ^ 148) % 2 ^ 149 = 0 → roundPcm .truncHalfNeg s =
      max (-32768) (min ((F32.units s + 2 ^ 148) / 2 ^ 149 - 1) 32767)) ∧
    (∀ n : Int, -32768 ≤ n → n ≤ 32767 → F32.units s = n * 2 ^ 149 → roundPcm .truncHalfNeg s = n)) ∧
  (∀ s : Word, F32.isFinite s = false → ∀ x : Half, ∃ draw : Word, pcmSample draw s = x)

/-- The two readings of PCM_ROUNDING differ only for -1.5 < s < -0.5, where TRUNC_HALF_NEG gives -1 and TRUNC_RESULT_NEG
gives 0, and both always answer a 16-bit value (R270). -/
def Obligations.RoundingReadingsDifferOnlyNearMinusOne : Prop :=
  ∀ s : Word, F32.isFinite s = true →
    (∀ reading, -32768 ≤ roundPcm reading s ∧ roundPcm reading s ≤ 32767) ∧
    (-(3 * 2 ^ 148) < F32.units s ∧ F32.units s < -(2 ^ 148) →
      roundPcm .truncHalfNeg s = -1 ∧ roundPcm .truncResultNeg s = 0) ∧
    (¬ (-(3 * 2 ^ 148) < F32.units s ∧ F32.units s < -(2 ^ 148)) →
      roundPcm .truncHalfNeg s = roundPcm .truncResultNeg s)

/-! ## The host's accesses (10_state.md, 20_memory.md) -/

/-- A write of CTRL with START = 1 and SRST = 0 (70_reset_and_hazards.md R348): dropped with CMD_DROP while BUSY; else the
snapshot is taken, BUSY is 1 and the listed flags are 0; a reserved opcode ends at once in BAD_OPCODE. -/
def Obligations.StartWriteTakesTheSnapshot : Prop :=
  ∀ (s : State) (v : Word), v.getLsbD 0 = true → v.getLsbD 1 = false →
    (s.busy = true → hostWrite 0x0008#16 .w4 v s = { s with status := { s.status with cmdDrop := true } }) ∧
    (s.busy = false → s.cmd.field 0 4 < 6 → hostWrite 0x0008#16 .w4 v s = { s with
      phase := .busy ⟨s.cmd, s.hufBitpos, s.hufPart2start, s.hufGranule, s.hufTables, s.hufSfbsel⟩
      engine := none
      status := { s.status with
        done := false, err := false, errCode := .none
        bvClamp := false, empty := false, qRollback := false, bvOverrun := false } }) ∧
    (s.busy = false → 6 ≤ s.cmd.field 0 4 → hostWrite 0x0008#16 .w4 v s = { s with
      phase := .idle
      engine := none
      status := { s.status with
        done := false, err := true, errCode := .badOpcode
        bvClamp := false, empty := false, qRollback := false, bvOverrun := false } })

/-- A soft reset (70_reset_and_hazards.md R343): registers and STATUS 0, the sequencer IDLE, OVL and V +0.0, MDB kept, the
memory a running HUFF, ALIAS, HYBRID or SYNTH was to write unwritten and the others kept; SRST wins over START (10_state.md R34). -/
def Obligations.SoftResetState : Prop :=
  ∀ (s : State) (v : Word), v.getLsbD 1 = true →
    hostWrite 0x0008#16 .w4 v s = softReset s ∧
    (∀ r : Reg, r ≠ .id → readReg (softReset s) r = 0#32) ∧ (softReset s).phase = .idle ∧
    (softReset s).irq = false ∧
    (∀ a, region a = .ovl ∨ region a = .v → (softReset s).mem.get a = some 0#8) ∧
    (∀ a, region a = .mdb → (softReset s).mem.get a = s.mem.get a) ∧
    (s.phase = .idle → ∀ a, region a = .is ∨ region a = .xr ∨ region a = .pcm →
      (softReset s).mem.get a = s.mem.get a) ∧
    (∀ snap a, s.phase = .busy snap →
      (region a = .is → (softReset s).mem.get a = if snap.op = 1 then none else s.mem.get a) ∧
      (region a = .xr → (softReset s).mem.get a = if snap.op = 2 ∨ snap.op = 3 then none else s.mem.get a) ∧
      (region a = .pcm → (softReset s).mem.get a = if snap.op = 4 then none else s.mem.get a))

/-- A write to STATUS clears DONE, ERR with ERRCODE, CMD_DROP and ACC_ERR where it writes 1 to bit 1, 2, 16, 17, and changes
nothing else, in every phase; an accepted START clears DONE, ERR, ERRCODE and the four HUFF flags (60_exceptions.md R314). -/
def Obligations.StatusWriteOneToClear : Prop :=
  (∀ (s : State) (v : Word), hostWrite 0x000C#16 .w4 v s = { s with
    status := { s.status with
      done := s.status.done && !v.getLsbD 1
      err := s.status.err && !v.getLsbD 2
      errCode := if v.getLsbD 2 then .none else s.status.errCode
      cmdDrop := s.status.cmdDrop && !v.getLsbD 16
      accErr := s.status.accErr && !v.getLsbD 17 } }) ∧
  (∀ (s : State), s.busy = false → s.cmd.field 0 4 < 6 →
    (start s).status = { s.status with
      done := false, err := false, errCode := .none
      bvClamp := false, empty := false, qRollback := false, bvOverrun := false })

/-- The bits of the STATUS word are those of 10_state.md R35, and every other bit reads 0. -/
def Obligations.StatusWordLayout : Prop :=
  ∀ (st : Status) (busy : Bool),
    (st.word busy).getLsbD 0 = busy ∧ (st.word busy).getLsbD 1 = st.done ∧ (st.word busy).getLsbD 2 = st.err ∧
    (st.word busy).field 4 4 = ErrCode.code st.errCode ∧
    (st.word busy).getLsbD 8 = st.bvClamp ∧ (st.word busy).getLsbD 9 = st.empty ∧
    (st.word busy).getLsbD 10 = st.qRollback ∧ (st.word busy).getLsbD 11 = st.bvOverrun ∧
    (st.word busy).getLsbD 16 = st.cmdDrop ∧ (st.word busy).getLsbD 17 = st.accErr ∧
    (st.word busy).getLsbD 3 = false ∧ (st.word busy).field 12 4 = 0 ∧ (st.word busy).field 18 14 = 0

/-- While a command runs, a 4-byte write to one of its parameter registers and any access-size write to a memory are ignored
and set ACC_ERR; nothing else changes (10_state.md R41, R60). -/
def Obligations.BusyWritesAreIgnored : Prop :=
  ∀ (s : State) (addr : Address) (width : Width) (v : Word), s.busy = true →
    ((width = .w4 ∧ (addr = 0x0004#16 ∨ addr = 0x0020#16 ∨ addr = 0x0024#16 ∨ addr = 0x0028#16 ∨ addr = 0x002C#16 ∨
        addr = 0x0030#16)) ∨ (region addr.toNat).isMemory = true) →
    hostWrite addr width v s = { s with status := { s.status with accErr := true } }

/-- While a command runs, a host read of a memory faults never: it answers a value and changes nothing but ACC_ERR, the
value read and the count of draws (10_state.md R60); a misaligned one sets ACC_ERR, the model's reading (log 14). -/
def Obligations.BusyMemoryReadsComplete : Prop :=
  ∀ (s : State) (addr : Address) (width : Width), s.busy = true → (region addr.toNat).isMemory = true →
    ∃ t : State, hostRead addr width s = .next t ∧
      t = { s with status := { s.status with accErr := t.status.accErr }, readData := t.readData, draws := s.draws + 1 } ∧
      (aligned addr.toNat width = true → t.status = s.status) ∧
      (aligned addr.toNat width = false → t.status = { s.status with accErr := true })

/-- A misaligned access to a memory, and an access to a register that is not a whole aligned word, is not performed and sets
ACC_ERR (20_memory.md R82, R83); that an access belongs to the register or memory of its first byte, and that a misaligned
access of a memory sets ACC_ERR while BUSY too, are the model's readings (log 13, log 14, log 15). -/
def Obligations.MisalignedAccessesAreRefused : Prop :=
  ∀ (s : State) (addr : Address) (width : Width) (v : Word),
    (((region addr.toNat).isMemory = true ∧ addr.toNat % Width.count width ≠ 0) ∨
      (region addr.toNat = .regs ∧ (regAt addr.toNat).isSome = true ∧ (width ≠ .w4 ∨ addr.toNat % 4 ≠ 0))) →
    hostWrite addr width v s = { s with status := { s.status with accErr := true } } ∧
    ∃ t : State, hostRead addr width s = .next t ∧
      t = { s with status := { s.status with accErr := true }, readData := t.readData, draws := s.draws + 1 }

/-- Unmapped addresses and unused register offsets read 0, ignore writes, and set no flag, in every phase and with every
width and alignment (20_memory.md R90, 10_state.md R45); that an access is at the unused offset or the unmapped address of
its first byte, whatever its other bytes reach, is the model's reading (log 13, log 15). The unmapped addresses are those of
20_memory.md R88, the unused register offsets 0x014 to 0x01F and 0x040 to 0x0FF. -/
def Obligations.UnmappedReadsZero : Prop :=
  (∀ (s : State) (addr : Address) (width : Width) (v : Word),
    (region addr.toNat = .unmapped ∨ (region addr.toNat = .regs ∧ regAt addr.toNat = none)) →
    hostRead addr width s = .next { s with readData := 0#32 } ∧ hostWrite addr width v s = s) ∧
  (∀ a : Nat, region a = .unmapped ↔
    0x0100 ≤ a ∧ a < 0x1000 ∨ 0x2480 ≤ a ∧ a < 0x3000 ∨ 0x3900 ≤ a ∧ a < 0x4000 ∨ 0x4900 ≤ a ∧ a < 0x5000 ∨
      0x6200 ≤ a ∧ a < 0x8000 ∨ 0xA000 ≤ a) ∧
  (∀ a : Nat, region a = .regs ∧ regAt a = none ↔ 0x014 ≤ a ∧ a < 0x020 ∨ 0x040 ≤ a ∧ a < 0x100)

/-- An aligned write of a memory while idle stores exactly the addressed bytes, little-endian, and an aligned read of the
same width then answers them (20_memory.md R81, R83). The memories lie where the address map puts them, each element at the
address the map gives it, little-endian (R88, R89). -/
def Obligations.MemoryReadsBackWhatWasWritten : Prop :=
  (∀ (s : State) (addr : Address) (width : Width) (v : Word), s.busy = false → (region addr.toNat).isMemory = true →
    addr.toNat % Width.count width = 0 →
    hostRead addr width (hostWrite addr width v s) = .next { hostWrite addr width v s with
      readData := BitVec.ofNat 32 (v.toNat % 2 ^ (8 * Width.count width)) } ∧
    (∀ j, j < Width.count width → (hostWrite addr width v s).mem.get (addr.toNat + j) = some (v.byteAt j)) ∧
    (∀ a, a < addr.toNat ∨ addr.toNat + Width.count width ≤ a →
      (hostWrite addr width v s).mem.get a = s.mem.get a) ∧
    hostWrite addr width v s = { s with mem := (hostWrite addr width v s).mem }) ∧
  (∀ a : Nat,
    (region a = .regs ↔ a < 0x0100) ∧ (region a = .mdb ↔ 0x1000 ≤ a ∧ a < 0x2000) ∧
    (region a = .is ↔ 0x2000 ≤ a ∧ a < 0x2480) ∧ (region a = .xr ↔ 0x3000 ≤ a ∧ a < 0x3900) ∧
    (region a = .pcm ↔ 0x4000 ≤ a ∧ a < 0x4900) ∧ (region a = .ovl ↔ 0x5000 ≤ a ∧ a < 0x6200) ∧
    (region a = .v ↔ 0x8000 ≤ a ∧ a < 0xA000) ∧
    ((region a).isMemory = true ↔ region a ≠ .regs ∧ region a ≠ .unmapped)) ∧
  (∀ (k sb i : Nat),
    mdbAddr k = 0x1000 + k ∧ isAddr k = 0x2000 + 2 * k ∧ xrAddr k = 0x3000 + 4 * k ∧ pcmAddr k = 0x4000 + 2 * k ∧
    ovlAddr .left sb i = 0x5000 + 4 * (18 * sb + i) ∧ ovlAddr .right sb i = 0x5000 + 4 * (576 + 18 * sb + i) ∧
    vAddr .left i = 0x8000 + 4 * i ∧ vAddr .right i = 0x8000 + 4 * (1024 + i)) ∧
  (∀ (m : Memory) (a : Nat) (w : Word), m.word a = some w ↔ ∀ j, j < 4 → m.get (a + j) = some (w.extractLsb' (8 * j) 8)) ∧
  (∀ (m : Memory) (a : Nat) (h : Half), m.half a = some h ↔ ∀ j, j < 2 → m.get (a + j) = some (h.extractLsb' (8 * j) 8)) ∧
  Width.count .w1 = 1 ∧ Width.count .w2 = 2 ∧ Width.count .w4 = 4 ∧
  ∀ (v : Word) (j : Nat), v.byteAt j = v.extractLsb' (8 * j) 8

/-- A 4-byte read of a register answers its current value in every phase; a 4-byte write of a parameter register while idle,
and of IRQ_EN in every phase, keeps the register's writable bits and clears the rest, and changes nothing else; a write of a
read-only register, and one of CTRL with START 0 and SRST 0, changes nothing (10_state.md R32 to R34, R36 to R39, R41 to R44). -/
def Obligations.RegistersKeepTheirWritableBits : Prop :=
  (∀ (s : State),
    hostRead 0x0000#16 .w4 s = .next { s with readData := 0x4C334844#32 } ∧
    hostRead 0x0004#16 .w4 s = .next { s with readData := s.cmd } ∧
    hostRead 0x0008#16 .w4 s = .next { s with readData := 0#32 } ∧
    hostRead 0x000C#16 .w4 s = .next { s with readData := s.status.word s.busy } ∧
    hostRead 0x0010#16 .w4 s = .next { s with readData := s.irqEn } ∧
    hostRead 0x0020#16 .w4 s = .next { s with readData := s.hufBitpos } ∧
    hostRead 0x0024#16 .w4 s = .next { s with readData := s.hufPart2start } ∧
    hostRead 0x0028#16 .w4 s = .next { s with readData := s.hufGranule } ∧
    hostRead 0x002C#16 .w4 s = .next { s with readData := s.hufTables } ∧
    hostRead 0x0030#16 .w4 s = .next { s with readData := s.hufSfbsel } ∧
    hostRead 0x0034#16 .w4 s = .next { s with readData := s.hufNonzero } ∧
    hostRead 0x0038#16 .w4 s = .next { s with readData := s.hufRegion } ∧
    hostRead 0x003C#16 .w4 s = .next { s with readData := s.hufBveff }) ∧
  (∀ (s : State) (v : Word), s.busy = false →
    hostWrite 0x0004#16 .w4 v s = { s with cmd := v &&& 0x0000171F#32 } ∧
    hostWrite 0x0020#16 .w4 v s = { s with hufBitpos := v &&& 0x0000FFFF#32 } ∧
    hostWrite 0x0024#16 .w4 v s = { s with hufPart2start := v &&& 0x0000FFFF#32 } ∧
    hostWrite 0x0028#16 .w4 v s = { s with hufGranule := v &&& 0x01FF0FFF#32 } ∧
    hostWrite 0x002C#16 .w4 v s = { s with hufTables := v &&& 0x00FFFFFF#32 } ∧
    hostWrite 0x0030#16 .w4 v s = { s with hufSfbsel := v &&& 0x00000003#32 }) ∧
  (∀ (s : State) (v : Word),
    hostWrite 0x0010#16 .w4 v s = { s with irqEn := v &&& 0x00000003#32 } ∧
    hostWrite 0x0000#16 .w4 v s = s ∧ hostWrite 0x0034#16 .w4 v s = s ∧ hostWrite 0x0038#16 .w4 v s = s ∧
    hostWrite 0x003C#16 .w4 v s = s ∧
    (v.getLsbD 0 = false → v.getLsbD 1 = false → hostWrite 0x0008#16 .w4 v s = s))

/-- A read changes nothing but the value read, the count of draws and ACC_ERR (20_memory.md R92). -/
def Obligations.ReadsHaveNoSideEffects : Prop :=
  ∀ (s t : State) (addr : Address) (width : Width), hostRead addr width s = .next t →
    t = { s with
      readData := t.readData, draws := t.draws
      status := { s.status with accErr := t.status.accErr } } ∧
    (s.status.accErr = true → t.status.accErr = true)

/-- The irq output (60_exceptions.md R315) rises with the completion of a command whose source is enabled and falls with
its acknowledgement, an accepted START, SRST and reset. -/
def Obligations.IrqFollowsCompletion : Prop :=
  ∀ (s : State),
    s.irq = ((s.status.done && s.irqEn.getLsbD 0) || (s.status.err && s.irqEn.getLsbD 1)) ∧
    (s.irqEn.getLsbD 0 = true → (finish s).irq = true) ∧
    (∀ c, s.irqEn.getLsbD 1 = true → (raiseError c s).irq = true) ∧
    (∀ v : Word, v.getLsbD 1 = true → (acknowledge v s).irq = ((acknowledge v s).status.err && s.irqEn.getLsbD 1)) ∧
    (∀ v : Word, v.getLsbD 2 = true → (acknowledge v s).irq = ((acknowledge v s).status.done && s.irqEn.getLsbD 0)) ∧
    (acceptStart s).irq = false ∧ (softReset s).irq = false ∧ (powerOnReset s).irq = false
end

