-- ==== Sys2Proof/Laws/Memory.lean ====
section
/-! SUPPORT. The laws of the memories: a read after a store, what a store leaves alone, and the canonical form. -/

namespace Sys2Proof.Machine

theorem Memory.get_nil (a : Nat) : Memory.get [] a = unlisted a := rfl

theorem Memory.get_append (m₁ m₂ : Memory) (a : Nat) :
    Memory.get (m₁ ++ m₂) a = if m₁.any (fun c => c.1 == a) then Memory.get m₁ a else Memory.get m₂ a := by
  unfold Memory.get
  rw [List.find?_append]
  by_cases h : m₁.any (fun c => c.1 == a) = true
  · obtain ⟨c, hc⟩ := Option.isSome_iff_exists.mp (List.find?_isSome.mpr (List.any_eq_true.mp h))
    simp [h, hc]
  · have : m₁.find? (fun c => c.1 == a) = none := by
      rw [List.find?_eq_none]
      intro c hc hca
      exact h (List.any_eq_true.mpr ⟨c, hc, hca⟩)
    simp [h, this]

/-- A filter that keeps address `a` keeps what it reads as. -/
theorem Memory.get_filter_keep (m : Memory) (p : Host.Cell → Bool) (a : Nat) (h : ∀ b, p (a, b) = true) :
    Memory.get (m.filter p) a = Memory.get m a := by
  induction m with
  | nil => rfl
  | cons c m ih =>
    obtain ⟨x, b⟩ := c
    by_cases hx : x = a
    · subst hx; simp [Memory.get, h]
    · by_cases hp : p (x, b) = true
      · simp only [List.filter_cons_of_pos hp]
        unfold Memory.get at ih ⊢
        simpa [List.find?_cons, hx] using ih
      · simp only [List.filter_cons_of_neg hp, ih]
        unfold Memory.get
        simp [hx]

/-- A filter that drops address `a` makes it read as unlisted. -/
theorem Memory.get_filter_drop (m : Memory) (p : Host.Cell → Bool) (a : Nat) (h : ∀ b, p (a, b) = false) :
    Memory.get (m.filter p) a = unlisted a := by
  have : (m.filter p).find? (fun c => c.1 == a) = none := by
    rw [List.find?_eq_none]
    rintro ⟨x, b⟩ hc hx
    have hxa : x = a := by simpa using hx
    subst hxa
    have := (List.mem_filter.mp hc).2
    simp [h b] at this
  simp [Memory.get, this]

theorem Memory.any_filter_drop (m : Memory) (p : Host.Cell → Bool) (a : Nat) (h : ∀ b, p (a, b) = false) :
    (m.filter p).any (fun c => c.1 == a) = false := by
  rw [List.any_eq_false]
  rintro ⟨x, b⟩ hc hx
  have hxa : x = a := by simpa using hx
  subst hxa
  have := (List.mem_filter.mp hc).2
  simp [h b] at this

/-- The cells of a run of bytes stand at its addresses. -/
theorem Memory.mem_cells {lo : Nat} {bs : List (Option Byte)} {c : Host.Cell} (h : c ∈ Memory.cells lo bs) :
    lo ≤ c.1 ∧ c.1 < lo + bs.length := by
  induction bs generalizing lo with
  | nil => simp [Memory.cells] at h
  | cons b bs ih =>
    cases b with
    | none =>
      have := ih (by simpa [Memory.cells] using h)
      simp only [List.length_cons]; omega
    | some v =>
      simp only [Memory.cells] at h
      split at h
      · have := ih h; simp only [List.length_cons]; omega
      · rcases List.mem_cons.mp h with rfl | h
        · simp
        · have := ih h; simp only [List.length_cons]; omega

theorem Memory.any_cells_out {lo : Nat} {bs : List (Option Byte)} {a : Nat} (h : a < lo ∨ lo + bs.length ≤ a) :
    (Memory.cells lo bs).any (fun c => c.1 == a) = false := by
  rw [List.any_eq_false]
  intro c hc hca
  have := Memory.mem_cells hc
  have hca : c.1 = a := by simpa using hca
  omega

/-- What the cells of a run of bytes read as inside the run. -/
theorem Memory.get_cells (lo : Nat) (bs : List (Option Byte)) (j : Nat) (hj : j < bs.length) :
    Memory.get (Memory.cells lo bs) (lo + j) = (bs[j]).or (unlisted (lo + j)) := by
  induction bs generalizing lo j with
  | nil => simp at hj
  | cons b bs ih =>
    cases j with
    | zero =>
      cases b with
      | none =>
        simp only [Memory.cells, List.getElem_cons_zero, Option.none_or, Nat.add_zero]
        have := Memory.any_cells_out (lo := lo + 1) (bs := bs) (a := lo) (Or.inl (by omega))
        rw [List.any_eq_false] at this
        unfold Memory.get
        rw [List.find?_eq_none.mpr (by simpa using this)]
      | some v =>
        simp only [Memory.cells, List.getElem_cons_zero, Option.some_or, Nat.add_zero]
        split
        next hu =>
          have := Memory.any_cells_out (lo := lo + 1) (bs := bs) (a := lo) (Or.inl (by omega))
          rw [List.any_eq_false] at this
          unfold Memory.get
          rw [List.find?_eq_none.mpr (by simpa using this)]
          exact hu
        next => simp [Memory.get]
    | succ j =>
      have hj' : j < bs.length := by simpa using hj
      have e : lo + (j + 1) = lo + 1 + j := by omega
      have key := ih (lo + 1) j hj'
      rw [e]
      cases b with
      | none => simpa [Memory.cells] using key
      | some v =>
        simp only [Memory.cells, List.getElem_cons_succ]
        split
        · exact key
        · rw [← key]
          unfold Memory.get
          have : (lo == lo + 1 + j) = false := by simp; omega
          simp [this]

/-- A read after a store: inside the run the byte stored (unlisted where it is `none`), outside it what was there. -/
theorem Memory.get_store (m : Memory) (lo : Nat) (bs : List (Option Byte)) (a : Nat) :
    (m.store lo bs).get a =
      if h : lo ≤ a ∧ a < lo + bs.length then (bs[a - lo]'(by omega)).or (unlisted a) else m.get a := by
  have noCell : ∀ {m' : Memory}, m'.any (fun c => c.1 == a) = false → Memory.get m' a = unlisted a := by
    intro m' h'
    have h' := List.any_eq_false.mp h'
    unfold Memory.get
    rw [List.find?_eq_none.mpr (by simpa using h')]
  unfold Memory.store
  rw [Memory.get_append, Memory.get_append, List.any_append]
  by_cases hin : lo ≤ a ∧ a < lo + bs.length
  · have hlow : ∀ b, (fun c : Host.Cell => decide (c.1 < lo)) (a, b) = false := by intro b; simp; omega
    have hhigh : ∀ b, (fun c : Host.Cell => decide (lo + bs.length ≤ c.1)) (a, b) = false := by intro b; simp; omega
    have key := Memory.get_cells lo bs (a - lo) (by omega)
    simp only [show lo + (a - lo) = a by omega] at key
    rw [dif_pos hin, Memory.any_filter_drop m _ a hlow, Memory.get_filter_drop m (fun c => decide (lo + bs.length ≤ c.1)) a hhigh, ← key]
    by_cases hc : (Memory.cells lo bs).any (fun c => c.1 == a) = true
    · simp [hc]
    · have hc : (Memory.cells lo bs).any (fun c => c.1 == a) = false := Bool.eq_false_iff.mpr hc
      rw [noCell hc]
      simp [hc]
  · have hcells : (Memory.cells lo bs).any (fun c => c.1 == a) = false := Memory.any_cells_out (by omega)
    rw [dif_neg hin, hcells, Bool.or_false]
    rcases Nat.lt_or_ge a lo with h | h
    · have keep : ∀ b, (fun c : Host.Cell => decide (c.1 < lo)) (a, b) = true := by intro b; simpa using h
      have drop : ∀ b, (fun c : Host.Cell => decide (lo + bs.length ≤ c.1)) (a, b) = false := by intro b; simp; omega
      rw [Memory.get_filter_drop m (fun c => decide (lo + bs.length ≤ c.1)) a drop, ← Memory.get_filter_keep m (fun c => decide (c.1 < lo)) a keep]
      by_cases h1 : (m.filter (fun c => decide (c.1 < lo))).any (fun c => c.1 == a) = true
      · simp [h1]
      · rw [if_neg h1, noCell (Bool.eq_false_iff.mpr h1)]
    · have drop : ∀ b, (fun c : Host.Cell => decide (c.1 < lo)) (a, b) = false := by intro b; simpa using h
      have keep : ∀ b, (fun c : Host.Cell => decide (lo + bs.length ≤ c.1)) (a, b) = true := by intro b; simp; omega
      rw [Memory.any_filter_drop m _ a drop]
      simpa using Memory.get_filter_keep m _ a keep

theorem Memory.get_store_outside (m : Memory) (lo : Nat) (bs : List (Option Byte)) (a : Nat)
    (h : a < lo ∨ lo + bs.length ≤ a) : (m.store lo bs).get a = m.get a := by
  rw [Memory.get_store, dif_neg (by omega)]

theorem Memory.get_store_inside (m : Memory) (lo : Nat) (bs : List (Option Byte)) (j : Nat) (hj : j < bs.length) :
    (m.store lo bs).get (lo + j) = (bs[j]).or (unlisted (lo + j)) := by
  rw [Memory.get_store, dif_pos ⟨by omega, by omega⟩]
  simp

/-- A read after forgetting a run of bytes. -/
theorem Memory.get_forget (m : Memory) (lo n a : Nat) :
    (m.forget lo n).get a = if lo ≤ a ∧ a < lo + n then unlisted a else m.get a := by
  unfold Memory.forget
  split_ifs with h
  · exact Memory.get_filter_drop m _ a (by intro b; simp; omega)
  · exact Memory.get_filter_keep m _ a (by intro b; simp; omega)

theorem Memory.get_slice (m : Memory) (lo n a : Nat) (h : lo ≤ a ∧ a < lo + n) :
    (m.slice lo n).get a = m.get a :=
  Memory.get_filter_keep m _ a (by intro b; simp [h.1, h.2])

/-! ## Words -/

theorem Memory.wordsFrom_congr {m₁ m₂ : Memory} (lo n : Nat)
    (h : ∀ a, lo ≤ a → a < lo + 4 * n → m₁.get a = m₂.get a) : m₁.wordsFrom lo n = m₂.wordsFrom lo n := by
  induction n generalizing lo with
  | zero => rfl
  | succ n ih =>
    have hw : m₁.word lo = m₂.word lo := by
      unfold Memory.word
      rw [h lo (by omega) (by omega), h (lo + 1) (by omega) (by omega), h (lo + 2) (by omega) (by omega),
        h (lo + 3) (by omega) (by omega)]
    unfold Memory.wordsFrom
    rw [hw, ih (lo + 4) (fun a h1 h2 => h a (by omega) (by omega))]

/-- Reading words through a slice is reading them from the memory. -/
theorem Memory.words_eq (m : Memory) (lo n : Nat) : m.words lo n = m.wordsFrom lo n :=
  Memory.wordsFrom_congr lo n fun a h1 h2 => Memory.get_slice m lo (4 * n) a ⟨h1, h2⟩

/-- `wordsFrom` answers a list of `n` words, each the word at its place. -/
theorem Memory.wordsFrom_some {m : Memory} {lo n : Nat} {ws : List Word} (h : m.wordsFrom lo n = some ws) :
    ws.length = n ∧ ∀ k (hk : k < ws.length), m.word (lo + 4 * k) = some ws[k] := by
  induction n generalizing lo ws with
  | zero =>
    simp only [Memory.wordsFrom, Option.some.injEq] at h
    subst h
    simp
  | succ n ih =>
    unfold Memory.wordsFrom at h
    split at h
    · rename_i w ws' hw hws
      obtain rfl : w :: ws' = ws := by simpa using h
      obtain ⟨hl, hk⟩ := ih hws
      refine ⟨by simp [hl], fun k hk' => ?_⟩
      cases k with
      | zero => simpa using hw
      | succ k =>
        have := hk k (by simpa using hk')
        rw [show lo + 4 * (k + 1) = lo + 4 + 4 * k by omega]
        simpa using this
    · simp at h

/-- A list of the `n` words at their places is what `wordsFrom` answers. -/
theorem Memory.wordsFrom_eq {m : Memory} {lo n : Nat} {ws : List Word} (hl : ws.length = n)
    (h : ∀ k (hk : k < ws.length), m.word (lo + 4 * k) = some ws[k]) : m.wordsFrom lo n = some ws := by
  induction n generalizing lo ws with
  | zero => simp [Memory.wordsFrom, List.length_eq_zero_iff.mp hl]
  | succ n ih =>
    cases ws with
    | nil => simp at hl
    | cons w ws =>
      have h0 : m.word lo = some w := h 0 (by simp)
      have hr : m.wordsFrom (lo + 4) n = some ws := ih (by simpa using hl) fun k hk => by
        have := h (k + 1) (by simpa using hk)
        rw [show lo + 4 + 4 * k = lo + 4 * (k + 1) by omega]
        simpa using this
      simp [Memory.wordsFrom, h0, hr]

theorem Memory.wordsFrom_isSome {m : Memory} {lo n : Nat} (h : ∀ k < n, (m.word (lo + 4 * k)).isSome) :
    (m.wordsFrom lo n).isSome := by
  induction n generalizing lo with
  | zero => simp [Memory.wordsFrom]
  | succ n ih =>
    have h0 := h 0 (by omega)
    have hr := ih (lo := lo + 4) fun k hk => by
      have := h (k + 1) (by omega)
      rwa [show lo + 4 * (k + 1) = lo + 4 + 4 * k by omega] at this
    obtain ⟨w, hw⟩ := Option.isSome_iff_exists.mp h0
    obtain ⟨ws, hws⟩ := Option.isSome_iff_exists.mp hr
    have hw' : m.word lo = some w := by simpa using hw
    unfold Memory.wordsFrom
    simp [hw', hws]

theorem Memory.word_isSome {m : Memory} {a : Nat} (h : ∀ j < 4, (m.get (a + j)).isSome) : (m.word a).isSome := by
  obtain ⟨b0, h0⟩ := Option.isSome_iff_exists.mp (h 0 (by omega))
  obtain ⟨b1, h1⟩ := Option.isSome_iff_exists.mp (h 1 (by omega))
  obtain ⟨b2, h2⟩ := Option.isSome_iff_exists.mp (h 2 (by omega))
  obtain ⟨b3, h3⟩ := Option.isSome_iff_exists.mp (h 3 (by omega))
  rw [Nat.add_zero] at h0
  simp [Memory.word, h0, h1, h2, h3]

/-- The four bytes of a word put together from four bytes. -/
theorem byteAt_wordOfBytes (b0 b1 b2 b3 : Byte) :
    (wordOfBytes b0 b1 b2 b3).byteAt 0 = b0 ∧ (wordOfBytes b0 b1 b2 b3).byteAt 1 = b1 ∧
      (wordOfBytes b0 b1 b2 b3).byteAt 2 = b2 ∧ (wordOfBytes b0 b1 b2 b3).byteAt 3 = b3 := by
  refine ⟨?_, ?_, ?_, ?_⟩ <;>
  · apply BitVec.eq_of_getLsbD_eq
    intro i hi
    simp only [Word.byteAt, wordOfBytes, BitVec.getLsbD_extractLsb', BitVec.getLsbD_append]
    have h1 : ¬ 8 * 1 + i < 8 := by omega
    have h2 : ¬ 8 * 2 + i < 8 := by omega
    have h3 : ¬ 8 * 3 + i < 8 := by omega
    have h4 : ¬ 8 * 2 + i - 8 < 8 := by omega
    have h5 : ¬ 8 * 3 + i - 8 < 8 := by omega
    have h6 : ¬ 8 * 3 + i - 8 - 8 < 8 := by omega
    simp only [hi, decide_true, Bool.true_and, if_true, Nat.mul_zero, Nat.zero_add, h1, h2, h3, h4, h5, h6, if_false,
      show 8 * 1 + i - 8 = i by omega, show 8 * 2 + i - 8 - 8 = i by omega, show 8 * 3 + i - 8 - 8 - 8 = i by omega]

/-- The bytes of a word in memory. -/
theorem Memory.get_of_word {m : Memory} {a : Nat} {w : Word} (h : m.word a = some w) {j : Nat} (hj : j < 4) :
    m.get (a + j) = some (w.byteAt j) := by
  unfold Memory.word at h
  split at h
  · rename_i b0 b1 b2 b3 h0 h1 h2 h3
    cases h
    obtain ⟨e0, e1, e2, e3⟩ := byteAt_wordOfBytes b0 b1 b2 b3
    interval_cases j
    · rw [e0]; exact h0
    · rw [e1]; exact h1
    · rw [e2]; exact h2
    · rw [e3]; exact h3
  · cases h

/-- Memories that agree on its four bytes agree on a word. -/
theorem Memory.word_congr {m m' : Memory} {a : Nat} (h : ∀ j, j < 4 → m.get (a + j) = m'.get (a + j)) :
    m.word a = m'.word a := by
  unfold Memory.word
  have h0 := h 0 (by omega)
  rw [Nat.add_zero] at h0
  rw [h0, h 1 (by omega), h 2 (by omega), h 3 (by omega)]

/-- Entry `j` of a list of words read from memory. -/
theorem Memory.words_getD {m : Memory} {lo n : Nat} {ws : List Word} (h : m.words lo n = some ws) {j : Nat} (hj : j < n) :
    m.word (lo + 4 * j) = some (ws.getD j 0) := by
  rw [Memory.words_eq] at h
  obtain ⟨h1, h2⟩ := Memory.wordsFrom_some h
  rw [h2 j (by omega), List.getD_eq_getElem?_getD, List.getElem?_eq_getElem (by omega)]
  rfl

/-- A word is readable exactly when its four bytes are written. -/
theorem Memory.word_isSome_iff {m : Memory} {a : Nat} :
    (m.word a).isSome ↔ ∀ j < 4, (m.get (a + j)).isSome := by
  refine ⟨fun h j hj => ?_, Memory.word_isSome⟩
  unfold Memory.word at h
  split at h
  · rename_i b0 b1 b2 b3 h0 h1 h2 h3
    interval_cases j <;> simp [h0, h1, h2, h3]
  · simp at h

theorem wordOfBytes_bytes (w : Word) :
    wordOfBytes (w.byteAt 0) (w.byteAt 1) (w.byteAt 2) (w.byteAt 3) = w := by
  apply BitVec.eq_of_getLsbD_eq
  intro i hi
  simp only [wordOfBytes, Word.byteAt, BitVec.getLsbD_append, BitVec.getLsbD_extractLsb']
  by_cases h0 : i < 8
  · simp [h0]
  · by_cases h1 : i < 16
    · simp [h0, show i - 8 < 8 by omega, show 8 * 1 + (i - 8) = i by omega]
    · by_cases h2 : i < 24
      · simp [h0, show ¬ i - 8 < 8 by omega, show i - 8 - 8 < 8 by omega,
          show 8 * 2 + (i - 8 - 8) = i by omega]
      · simp [h0, show ¬ i - 8 < 8 by omega, show ¬ i - 8 - 8 < 8 by omega, show i - 8 - 8 - 8 < 8 by omega,
          show 8 * 3 + (i - 8 - 8 - 8) = i by omega]

theorem halfOfBytes_bytes (h : Half) : halfOfBytes (h.extractLsb' 0 8) (h.extractLsb' 8 8) = h := by
  apply BitVec.eq_of_getLsbD_eq
  intro i hi
  simp only [halfOfBytes, BitVec.getLsbD_append, BitVec.getLsbD_extractLsb']
  by_cases h0 : i < 8
  · simp [h0]
  · simp [h0, show i - 8 < 8 by omega, show 8 + (i - 8) = i by omega]

theorem wordListBytes_length (ws : List Word) : (wordListBytes ws).length = 4 * ws.length := by
  induction ws with
  | nil => rfl
  | cons x xs ih =>
    have e : wordListBytes (x :: xs) = (Word.bytes x).map some ++ wordListBytes xs := by simp [wordListBytes]
    rw [e, List.length_append, ih, List.length_map, List.length_cons]
    simp only [Word.bytes, List.length_cons, List.length_nil]
    omega

theorem halfListBytes_length (hs : List Half) : (halfListBytes hs).length = 2 * hs.length := by
  induction hs with
  | nil => rfl
  | cons x xs ih =>
    have e : halfListBytes (x :: xs) = (Half.bytes x).map some ++ halfListBytes xs := by simp [halfListBytes]
    rw [e, List.length_append, ih, List.length_map, List.length_cons]
    simp only [Half.bytes, List.length_cons, List.length_nil]
    omega

theorem wordListBytes_getElem (ws : List Word) (k j : Nat) (hk : k < ws.length) (hj : j < 4)
    (h : 4 * k + j < (wordListBytes ws).length) : (wordListBytes ws)[4 * k + j] = some (ws[k].byteAt j) := by
  induction ws generalizing k with
  | nil => simp at hk
  | cons w ws ih =>
    have e : wordListBytes (w :: ws) =
        [some (w.byteAt 0), some (w.byteAt 1), some (w.byteAt 2), some (w.byteAt 3)] ++ wordListBytes ws := by
      simp [wordListBytes, Word.bytes]
    cases k with
    | zero =>
      simp only [e]
      interval_cases j <;> simp
    | succ k =>
      simp only [e]
      rw [List.getElem_append_right (by simp; omega)]
      simp only [List.length_cons, List.length_nil, List.getElem_cons_succ]
      have hk' : k < ws.length := by simpa using hk
      have := ih k hk' (by rw [wordListBytes_length]; omega)
      rw [← this]
      congr 1
      omega

theorem halfListBytes_getElem (hs : List Half) (k j : Nat) (hk : k < hs.length) (hj : j < 2)
    (h : 2 * k + j < (halfListBytes hs).length) :
    (halfListBytes hs)[2 * k + j] = some (hs[k].extractLsb' (8 * j) 8) := by
  induction hs generalizing k with
  | nil => simp at hk
  | cons w hs ih =>
    have e : halfListBytes (w :: hs) =
        [some (w.extractLsb' 0 8), some (w.extractLsb' 8 8)] ++ halfListBytes hs := by
      simp [halfListBytes, Half.bytes]
    cases k with
    | zero =>
      simp only [e]
      interval_cases j <;> simp
    | succ k =>
      simp only [e]
      rw [List.getElem_append_right (by simp; omega)]
      simp only [List.length_cons, List.length_nil, List.getElem_cons_succ]
      have hk' : k < hs.length := by simpa using hk
      have := ih k hk' (by rw [halfListBytes_length]; omega)
      rw [← this]
      congr 1
      omega

/-- A word read where a list of words was stored. -/
theorem Memory.word_store (m : Memory) (lo : Nat) (ws : List Word) (k : Nat) (hk : k < ws.length) :
    (m.store lo (wordListBytes ws)).word (lo + 4 * k) = some ws[k] := by
  have hlen := wordListBytes_length ws
  have get : ∀ j (hj : j < 4),
      (m.store lo (wordListBytes ws)).get (lo + 4 * k + j) = some (ws[k].byteAt j) := by
    intro j hj
    have hb : 4 * k + j < (wordListBytes ws).length := by omega
    have := Memory.get_store_inside m lo (wordListBytes ws) (4 * k + j) hb
    rw [wordListBytes_getElem ws k j hk hj hb, ← Nat.add_assoc] at this
    simpa using this
  have h0 := get 0 (by omega)
  rw [Nat.add_zero] at h0
  unfold Memory.word
  rw [h0, get 1 (by omega), get 2 (by omega), get 3 (by omega)]
  simp [wordOfBytes_bytes]

/-- A word outside a store reads as before. -/
theorem Memory.word_store_outside (m : Memory) (lo : Nat) (bs : List (Option Byte)) (a : Nat)
    (h : a + 4 ≤ lo ∨ lo + bs.length ≤ a) : (m.store lo bs).word a = m.word a := by
  unfold Memory.word
  rw [Memory.get_store_outside _ _ _ a (by omega), Memory.get_store_outside _ _ _ (a + 1) (by omega),
    Memory.get_store_outside _ _ _ (a + 2) (by omega), Memory.get_store_outside _ _ _ (a + 3) (by omega)]

/-! ## The canonical form -/

theorem Memory.rising_iff (m : Memory) : m.rising = true ↔ m.Pairwise (fun c d => c.1 < d.1) := by
  induction m with
  | nil => simp [Memory.rising]
  | cons c m ih =>
    cases m with
    | nil => simp [Memory.rising]
    | cons d m =>
      simp only [Memory.rising, Bool.and_eq_true, decide_eq_true_eq, ih, List.pairwise_cons]
      constructor
      · rintro ⟨h, hd, hm⟩
        refine ⟨fun x hx => ?_, hd, hm⟩
        rcases List.mem_cons.mp hx with rfl | hx
        · exact h
        · exact h.trans (hd x hx)
      · rintro ⟨h, hd, hm⟩
        exact ⟨h d (by simp), hd, hm⟩

theorem Memory.wf_iff (m : Memory) :
    m.wf = true ↔ m.Pairwise (fun c d => c.1 < d.1) ∧
      ∀ c ∈ m, (region c.1).isMemory = true ∧ unlisted c.1 ≠ some c.2 := by
  simp [Memory.wf, Memory.rising_iff]

theorem Memory.wf_filter {m : Memory} (h : m.wf = true) (p : Host.Cell → Bool) : Memory.wf (m.filter p) = true := by
  rw [Memory.wf_iff] at h ⊢
  exact ⟨h.1.filter p, fun c hc => h.2 c (List.mem_filter.mp hc).1⟩

theorem Memory.wf_forget {m : Memory} (h : m.wf = true) (lo n : Nat) : (m.forget lo n).wf = true :=
  Memory.wf_filter h _

theorem Memory.cells_wf (lo : Nat) (bs : List (Option Byte))
    (h : ∀ a, lo ≤ a → a < lo + bs.length → (region a).isMemory = true) : (Memory.cells lo bs).wf = true := by
  induction bs generalizing lo with
  | nil => rfl
  | cons b bs ih =>
    have rest := ih (lo + 1) fun a h1 h2 => h a (by omega) (by simp only [List.length_cons]; omega)
    cases b with
    | none => simpa [Memory.cells] using rest
    | some v =>
      simp only [Memory.cells]
      split
      · exact rest
      · rename_i hu
        rw [Memory.wf_iff] at rest ⊢
        refine ⟨List.pairwise_cons.mpr ⟨fun c hc => ?_, rest.1⟩, fun c hc => ?_⟩
        · have := Memory.mem_cells hc
          show lo < c.1
          omega
        · rcases List.mem_cons.mp hc with rfl | hc
          · exact ⟨h lo (by omega) (by simp), hu⟩
          · exact rest.2 c hc

/-- A store into the memories keeps the canonical form. -/
theorem Memory.wf_store {m : Memory} (hm : m.wf = true) (lo : Nat) (bs : List (Option Byte))
    (h : ∀ a, lo ≤ a → a < lo + bs.length → (region a).isMemory = true) : (m.store lo bs).wf = true := by
  have hc := (Memory.wf_iff _).mp (Memory.cells_wf lo bs h)
  have h1 := (Memory.wf_iff _).mp (Memory.wf_filter hm (fun c => decide (c.1 < lo)))
  have h2 := (Memory.wf_iff _).mp (Memory.wf_filter hm (fun c => decide (lo + bs.length ≤ c.1)))
  rw [Memory.wf_iff]
  unfold Memory.store
  refine ⟨?_, ?_⟩
  · rw [List.pairwise_append, List.pairwise_append]
    refine ⟨⟨h1.1, hc.1, ?_⟩, h2.1, ?_⟩
    · intro a ha b hb
      have ha' : a.1 < lo := by simpa using (List.mem_filter.mp ha).2
      have := Memory.mem_cells hb
      omega
    · intro a ha b hb
      have hb' : lo + bs.length ≤ b.1 := by simpa using (List.mem_filter.mp hb).2
      rcases List.mem_append.mp ha with ha | ha
      · have ha' : a.1 < lo := by simpa using (List.mem_filter.mp ha).2
        omega
      · have := Memory.mem_cells ha
        omega
  · intro c hcm
    rcases List.mem_append.mp hcm with hcm | hcm
    · rcases List.mem_append.mp hcm with hcm | hcm
      · exact h1.2 c hcm
      · exact hc.2 c hcm
    · exact h2.2 c hcm

/-! ## Regions -/

theorem region_is {a : Nat} (h : 0x2000 ≤ a) (h' : a < 0x2480) : region a = .is := by
  unfold region; split_ifs <;> first | rfl | omega

theorem region_mdb {a : Nat} (h : 0x1000 ≤ a) (h' : a < 0x2000) : region a = .mdb := by
  unfold region; split_ifs <;> first | rfl | omega

theorem region_xr {a : Nat} (h : 0x3000 ≤ a) (h' : a < 0x3900) : region a = .xr := by
  unfold region; split_ifs <;> first | rfl | omega

theorem region_pcm {a : Nat} (h : 0x4000 ≤ a) (h' : a < 0x4900) : region a = .pcm := by
  unfold region; split_ifs <;> first | rfl | omega

theorem region_ovl {a : Nat} (h : 0x5000 ≤ a) (h' : a < 0x6200) : region a = .ovl := by
  unfold region; split_ifs <;> first | rfl | omega

theorem region_v {a : Nat} (h : 0x8000 ≤ a) (h' : a < 0xA000) : region a = .v := by
  unfold region; split_ifs <;> first | rfl | omega

/-- OVL and V are never unwritten (10_state.md R52, R53). -/
theorem Memory.get_isSome_of_carried (m : Memory) {a : Nat} (h : region a = .ovl ∨ region a = .v) :
    (m.get a).isSome := by
  unfold Memory.get
  split
  · simp
  · rcases h with h | h <;> simp [unlisted, h]

/-- A word is read where its four bytes are, little-endian (20_memory.md R81, R89). -/
theorem Memory.word_iff (m : Memory) (a : Nat) (w : Word) :
    m.word a = some w ↔ ∀ j, j < 4 → m.get (a + j) = some (w.extractLsb' (8 * j) 8) := by
  refine ⟨fun h j hj => Memory.get_of_word h hj, fun h => ?_⟩
  have h0 := h 0 (by omega)
  rw [Nat.add_zero] at h0
  simp only [Memory.word, h0, h 1 (by omega), h 2 (by omega), h 3 (by omega)]
  exact congrArg some (wordOfBytes_bytes w)

theorem Memory.half_iff (m : Memory) (a : Nat) (x : Half) :
    m.half a = some x ↔ ∀ j, j < 2 → m.get (a + j) = some (x.extractLsb' (8 * j) 8) := by
  constructor
  · intro h j hj
    unfold Memory.half at h
    split at h
    · rename_i b0 b1 h0 h1
      cases h
      have : j = 0 ∨ j = 1 := by omega
      rcases this with rfl | rfl
      · rw [Nat.add_zero, h0]; congr 1
        apply BitVec.eq_of_getLsbD_eq; intro i hi
        simp only [halfOfBytes, BitVec.getLsbD_extractLsb', BitVec.getLsbD_append, hi, decide_true, Bool.true_and,
          Nat.mul_zero, Nat.zero_add, if_true]
      · rw [h1]; congr 1
        apply BitVec.eq_of_getLsbD_eq; intro i hi
        simp only [halfOfBytes, BitVec.getLsbD_extractLsb', BitVec.getLsbD_append, hi, decide_true, Bool.true_and,
          Nat.mul_one, show ¬ 8 + i < 8 by omega, Nat.add_sub_cancel_left, if_false]
    · cases h
  · intro h
    have h0 := h 0 (by omega)
    rw [Nat.add_zero] at h0
    simp only [Memory.half, h0, h 1 (by omega)]
    exact congrArg some (halfOfBytes_bytes x)

/-- The address map (20_memory.md R88). -/
theorem region_map (a : Nat) :
    (region a = .regs ↔ a < 0x0100) ∧ (region a = .mdb ↔ 0x1000 ≤ a ∧ a < 0x2000) ∧
    (region a = .is ↔ 0x2000 ≤ a ∧ a < 0x2480) ∧ (region a = .xr ↔ 0x3000 ≤ a ∧ a < 0x3900) ∧
    (region a = .pcm ↔ 0x4000 ≤ a ∧ a < 0x4900) ∧ (region a = .ovl ↔ 0x5000 ≤ a ∧ a < 0x6200) ∧
    (region a = .v ↔ 0x8000 ≤ a ∧ a < 0xA000) := by
  unfold region
  split_ifs <;> simp <;> omega

theorem region_unmapped_iff (a : Nat) : region a = .unmapped ↔
    0x0100 ≤ a ∧ a < 0x1000 ∨ 0x2480 ≤ a ∧ a < 0x3000 ∨ 0x3900 ≤ a ∧ a < 0x4000 ∨ 0x4900 ≤ a ∧ a < 0x5000 ∨
      0x6200 ≤ a ∧ a < 0x8000 ∨ 0xA000 ≤ a := by
  unfold region
  split_ifs <;> simp <;> omega

end Sys2Proof.Machine
end

