-- ==== Sys2Proof/Laws/Antialias.lean ====
section
/-! SUPPORT. What the butterflies of a boundary read and store. -/

namespace Sys2Proof.Machine

theorem boundaryWords_length (draw : Nat → Word) (B : List Word) : (boundaryWords draw B).length = 16 := by
  simp [boundaryWords]

/-- Entry `j` of the 16 around a boundary after its butterflies. -/
theorem boundaryWords_getElem (draw : Nat → Word) (B : List Word) (j : Nat) (h : j < (boundaryWords draw B).length) :
    (boundaryWords draw B)[j] = F32.settle (draw j)
      (if j < 8 then butterflyLow (B.getD j 0) (B.getD (15 - j) 0) (Config.cs.getD (7 - j) 0) (Config.ca.getD (7 - j) 0)
        else butterflyHigh (B.getD (15 - j) 0) (B.getD j 0) (Config.cs.getD (j - 8) 0) (Config.ca.getD (j - 8) 0)) := by
  rw [boundaryWords_length] at h
  simp only [boundaryWords, List.getElem_map, List.getElem_range]
  congr 1
  split
  · rw [show 7 - (7 - j) = j by omega, show 8 + (7 - j) = 15 - j by omega]
  · rw [show 7 - (j - 8) = 15 - j by omega, show 8 + (j - 8) = j by omega]

/-- The butterflies of `n` boundaries from `sb` up leave every other byte alone, whatever memory they start from. -/
theorem aliasBoundaries_outside {draw : Nat → Word} {start : Memory} {n sb : Nat} {m m' : Memory}
    (h : aliasBoundaries draw start n sb m = some m') (a : Nat)
    (ha : ∀ b, sb ≤ b → b < sb + n → a < xrAddr (18 * b + 10) ∨ xrAddr (18 * b + 26) ≤ a) :
    m'.get a = m.get a := by
  induction n generalizing sb m with
  | zero => cases h; rfl
  | succ n ih =>
    unfold aliasBoundaries at h
    split at h
    · cases h
    · rw [ih h fun b h1 h2 => ha b (by omega) (by omega)]
      apply Memory.get_store_outside
      have := ha sb le_rfl (by omega)
      rw [wordListBytes_length, boundaryWords_length]
      simp only [xrAddr] at this ⊢
      omega

/-- The butterflies keep the canonical form. -/
theorem aliasBoundaries_wf {draw : Nat → Word} {start : Memory} {n sb : Nat} {m m' : Memory}
    (h : aliasBoundaries draw start n sb m = some m') (hn : sb + n ≤ 31) (hm : m.wf = true) : m'.wf = true := by
  induction n generalizing sb m with
  | zero => cases h; exact hm
  | succ n ih =>
    unfold aliasBoundaries at h
    split at h
    · cases h
    · refine ih h (by omega) (Memory.wf_store hm _ _ fun a h1 h2 => ?_)
      rw [wordListBytes_length, boundaryWords_length] at h2
      simp only [xrAddr] at h1 h2
      rw [region_xr (by omega) (by omega)]
      rfl

/-- Where the 16 entries around each boundary are written, the butterflies of every boundary are done. -/
theorem aliasBoundaries_isSome {draw : Nat → Word} {start : Memory} {n sb : Nat} {m : Memory}
    (h : ∀ b, sb ≤ b → b < sb + n → ∀ j, j < 64 → (start.get (xrAddr (18 * b + 10) + j)).isSome = true) :
    (aliasBoundaries draw start n sb m).isSome = true := by
  induction n generalizing sb m with
  | zero => rfl
  | succ n ih =>
    unfold aliasBoundaries
    have hw : (start.words (xrAddr (18 * sb + 10)) 16).isSome := by
      rw [Memory.words_eq]
      refine Memory.wordsFrom_isSome fun k hk => Memory.word_isSome fun j hj => ?_
      have := h sb le_rfl (by omega) (4 * k + j) (by omega)
      rwa [← Nat.add_assoc] at this
    obtain ⟨B, hB⟩ := Option.isSome_iff_exists.mp hw
    simp only [hB]
    exact ih fun b h1 h2 => h b (by omega) (by omega)

/-- The 16 entries around boundary `b` after the butterflies are those of `boundaryWords` on the entries at START. -/
theorem aliasBoundaries_word {draw : Nat → Word} {start : Memory} {n sb : Nat} {m m' : Memory}
    (h : aliasBoundaries draw start n sb m = some m') {b : Nat} (h1 : sb ≤ b) (h2 : b < sb + n) :
    ∃ B, start.words (xrAddr (18 * b + 10)) 16 = some B ∧ ∀ j, j < 16 →
      m'.word (xrAddr (18 * b + 10 + j)) = (boundaryWords (fun j => draw (18 * b + 10 + j)) B)[j]? := by
  induction n generalizing sb m with
  | zero => omega
  | succ n ih =>
    unfold aliasBoundaries at h
    split at h
    · cases h
    · rename_i B hB
      by_cases hb : b = sb
      · subst hb
        refine ⟨B, hB, fun j hj => ?_⟩
        have hlen := boundaryWords_length (fun j => draw (18 * b + 10 + j)) B
        rw [List.getElem?_eq_getElem (by rw [hlen]; exact hj)]
        rw [show xrAddr (18 * b + 10 + j) = xrAddr (18 * b + 10) + 4 * j by simp only [xrAddr]; ring]
        have key := Memory.word_store m (xrAddr (18 * b + 10))
          (boundaryWords (fun j => draw (18 * b + 10 + j)) B) j (by rw [hlen]; exact hj)
        rw [← key]
        have out : ∀ a, xrAddr (18 * b + 10) ≤ a → a < xrAddr (18 * b + 10) + 64 → m'.get a =
            (m.store (xrAddr (18 * b + 10)) (wordListBytes (boundaryWords (fun j => draw (18 * b + 10 + j)) B))).get a := by
          intro a ha ha'
          refine aliasBoundaries_outside h a fun b' hb' _ => ?_
          simp only [xrAddr] at ha ha' ⊢
          omega
        unfold Memory.word
        rw [out _ (by omega) (by omega), out _ (by omega) (by omega), out _ (by omega) (by omega),
          out _ (by omega) (by omega)]
      · exact ih h (by omega) (by omega)

end Sys2Proof.Machine
end

