-- ==== Sys2Proof/Laws/State.lean ====
section
/-! SUPPORT. What each named update of the state does to each field, so that no proof unfolds a record update. -/

namespace Sys2Proof.Machine

/-! `finish` -/

@[simp] theorem finish_cmd (s : State) : (finish s).cmd = s.cmd := rfl
@[simp] theorem finish_status (s : State) : (finish s).status = s.status.completed := rfl
@[simp] theorem finish_irqEn (s : State) : (finish s).irqEn = s.irqEn := rfl
@[simp] theorem finish_hufBitpos (s : State) : (finish s).hufBitpos = s.hufBitpos := rfl
@[simp] theorem finish_hufPart2start (s : State) : (finish s).hufPart2start = s.hufPart2start := rfl
@[simp] theorem finish_hufGranule (s : State) : (finish s).hufGranule = s.hufGranule := rfl
@[simp] theorem finish_hufTables (s : State) : (finish s).hufTables = s.hufTables := rfl
@[simp] theorem finish_hufSfbsel (s : State) : (finish s).hufSfbsel = s.hufSfbsel := rfl
@[simp] theorem finish_hufNonzero (s : State) : (finish s).hufNonzero = s.hufNonzero := rfl
@[simp] theorem finish_hufRegion (s : State) : (finish s).hufRegion = s.hufRegion := rfl
@[simp] theorem finish_hufBveff (s : State) : (finish s).hufBveff = s.hufBveff := rfl
@[simp] theorem finish_mem (s : State) : (finish s).mem = s.mem := rfl
@[simp] theorem finish_phase (s : State) : (finish s).phase = .idle := rfl
@[simp] theorem finish_engine (s : State) : (finish s).engine = none := rfl
@[simp] theorem finish_inputs (s : State) : (finish s).inputs = s.inputs := rfl
@[simp] theorem finish_readData (s : State) : (finish s).readData = s.readData := rfl
@[simp] theorem finish_draws (s : State) : (finish s).draws = s.draws := rfl

/-! `raiseError` -/

@[simp] theorem raiseError_cmd (c : ErrCode) (s : State) : (raiseError c s).cmd = s.cmd := rfl
@[simp] theorem raiseError_status (c : ErrCode) (s : State) : (raiseError c s).status = s.status.failed c := rfl
@[simp] theorem raiseError_irqEn (c : ErrCode) (s : State) : (raiseError c s).irqEn = s.irqEn := rfl
@[simp] theorem raiseError_hufBitpos (c : ErrCode) (s : State) : (raiseError c s).hufBitpos = s.hufBitpos := rfl
@[simp] theorem raiseError_hufPart2start (c : ErrCode) (s : State) :
    (raiseError c s).hufPart2start = s.hufPart2start := rfl
@[simp] theorem raiseError_hufGranule (c : ErrCode) (s : State) : (raiseError c s).hufGranule = s.hufGranule := rfl
@[simp] theorem raiseError_hufTables (c : ErrCode) (s : State) : (raiseError c s).hufTables = s.hufTables := rfl
@[simp] theorem raiseError_hufSfbsel (c : ErrCode) (s : State) : (raiseError c s).hufSfbsel = s.hufSfbsel := rfl
@[simp] theorem raiseError_hufNonzero (c : ErrCode) (s : State) : (raiseError c s).hufNonzero = s.hufNonzero := rfl
@[simp] theorem raiseError_hufRegion (c : ErrCode) (s : State) : (raiseError c s).hufRegion = s.hufRegion := rfl
@[simp] theorem raiseError_hufBveff (c : ErrCode) (s : State) : (raiseError c s).hufBveff = s.hufBveff := rfl
@[simp] theorem raiseError_mem (c : ErrCode) (s : State) :
    (raiseError c s).mem = if c = .mdbRange then s.mem.forget (isAddr 0) 1152 else s.mem := rfl
@[simp] theorem raiseError_phase (c : ErrCode) (s : State) : (raiseError c s).phase = .idle := rfl
@[simp] theorem raiseError_engine (c : ErrCode) (s : State) : (raiseError c s).engine = none := rfl
@[simp] theorem raiseError_inputs (c : ErrCode) (s : State) : (raiseError c s).inputs = s.inputs := rfl
@[simp] theorem raiseError_readData (c : ErrCode) (s : State) : (raiseError c s).readData = s.readData := rfl
@[simp] theorem raiseError_draws (c : ErrCode) (s : State) : (raiseError c s).draws = s.draws := rfl

/-! `acceptStart` -/

@[simp] theorem acceptStart_cmd (s : State) : (acceptStart s).cmd = s.cmd := rfl
@[simp] theorem acceptStart_status (s : State) : (acceptStart s).status = s.status.atStart := rfl
@[simp] theorem acceptStart_irqEn (s : State) : (acceptStart s).irqEn = s.irqEn := rfl
@[simp] theorem acceptStart_hufBitpos (s : State) : (acceptStart s).hufBitpos = s.hufBitpos := rfl
@[simp] theorem acceptStart_hufPart2start (s : State) : (acceptStart s).hufPart2start = s.hufPart2start := rfl
@[simp] theorem acceptStart_hufGranule (s : State) : (acceptStart s).hufGranule = s.hufGranule := rfl
@[simp] theorem acceptStart_hufTables (s : State) : (acceptStart s).hufTables = s.hufTables := rfl
@[simp] theorem acceptStart_hufSfbsel (s : State) : (acceptStart s).hufSfbsel = s.hufSfbsel := rfl
@[simp] theorem acceptStart_hufNonzero (s : State) : (acceptStart s).hufNonzero = s.hufNonzero := rfl
@[simp] theorem acceptStart_hufRegion (s : State) : (acceptStart s).hufRegion = s.hufRegion := rfl
@[simp] theorem acceptStart_hufBveff (s : State) : (acceptStart s).hufBveff = s.hufBveff := rfl
@[simp] theorem acceptStart_mem (s : State) : (acceptStart s).mem = s.mem := rfl
@[simp] theorem acceptStart_phase (s : State) : (acceptStart s).phase = .busy s.parameters := rfl
@[simp] theorem acceptStart_engine (s : State) : (acceptStart s).engine = none := rfl
@[simp] theorem acceptStart_inputs (s : State) : (acceptStart s).inputs = s.inputs := rfl
@[simp] theorem acceptStart_readData (s : State) : (acceptStart s).readData = s.readData := rfl
@[simp] theorem acceptStart_draws (s : State) : (acceptStart s).draws = s.draws := rfl

/-! `acknowledge` -/

@[simp] theorem acknowledge_cmd (v : Word) (s : State) : (acknowledge v s).cmd = s.cmd := rfl
@[simp] theorem acknowledge_status (v : Word) (s : State) :
    (acknowledge v s).status = s.status.writeOneToClear v := rfl
@[simp] theorem acknowledge_irqEn (v : Word) (s : State) : (acknowledge v s).irqEn = s.irqEn := rfl
@[simp] theorem acknowledge_hufBitpos (v : Word) (s : State) : (acknowledge v s).hufBitpos = s.hufBitpos := rfl
@[simp] theorem acknowledge_hufPart2start (v : Word) (s : State) :
    (acknowledge v s).hufPart2start = s.hufPart2start := rfl
@[simp] theorem acknowledge_hufGranule (v : Word) (s : State) : (acknowledge v s).hufGranule = s.hufGranule := rfl
@[simp] theorem acknowledge_hufTables (v : Word) (s : State) : (acknowledge v s).hufTables = s.hufTables := rfl
@[simp] theorem acknowledge_hufSfbsel (v : Word) (s : State) : (acknowledge v s).hufSfbsel = s.hufSfbsel := rfl
@[simp] theorem acknowledge_hufNonzero (v : Word) (s : State) : (acknowledge v s).hufNonzero = s.hufNonzero := rfl
@[simp] theorem acknowledge_hufRegion (v : Word) (s : State) : (acknowledge v s).hufRegion = s.hufRegion := rfl
@[simp] theorem acknowledge_hufBveff (v : Word) (s : State) : (acknowledge v s).hufBveff = s.hufBveff := rfl
@[simp] theorem acknowledge_mem (v : Word) (s : State) : (acknowledge v s).mem = s.mem := rfl
@[simp] theorem acknowledge_phase (v : Word) (s : State) : (acknowledge v s).phase = s.phase := rfl
@[simp] theorem acknowledge_engine (v : Word) (s : State) : (acknowledge v s).engine = s.engine := rfl
@[simp] theorem acknowledge_inputs (v : Word) (s : State) : (acknowledge v s).inputs = s.inputs := rfl
@[simp] theorem acknowledge_readData (v : Word) (s : State) : (acknowledge v s).readData = s.readData := rfl
@[simp] theorem acknowledge_draws (v : Word) (s : State) : (acknowledge v s).draws = s.draws := rfl

/-! `setAccErr` -/

@[simp] theorem setAccErr_cmd (s : State) : (setAccErr s).cmd = s.cmd := rfl
@[simp] theorem setAccErr_status (s : State) : (setAccErr s).status = { s.status with accErr := true } := rfl
@[simp] theorem setAccErr_irqEn (s : State) : (setAccErr s).irqEn = s.irqEn := rfl
@[simp] theorem setAccErr_hufBitpos (s : State) : (setAccErr s).hufBitpos = s.hufBitpos := rfl
@[simp] theorem setAccErr_hufPart2start (s : State) : (setAccErr s).hufPart2start = s.hufPart2start := rfl
@[simp] theorem setAccErr_hufGranule (s : State) : (setAccErr s).hufGranule = s.hufGranule := rfl
@[simp] theorem setAccErr_hufTables (s : State) : (setAccErr s).hufTables = s.hufTables := rfl
@[simp] theorem setAccErr_hufSfbsel (s : State) : (setAccErr s).hufSfbsel = s.hufSfbsel := rfl
@[simp] theorem setAccErr_hufNonzero (s : State) : (setAccErr s).hufNonzero = s.hufNonzero := rfl
@[simp] theorem setAccErr_hufRegion (s : State) : (setAccErr s).hufRegion = s.hufRegion := rfl
@[simp] theorem setAccErr_hufBveff (s : State) : (setAccErr s).hufBveff = s.hufBveff := rfl
@[simp] theorem setAccErr_mem (s : State) : (setAccErr s).mem = s.mem := rfl
@[simp] theorem setAccErr_phase (s : State) : (setAccErr s).phase = s.phase := rfl
@[simp] theorem setAccErr_engine (s : State) : (setAccErr s).engine = s.engine := rfl
@[simp] theorem setAccErr_inputs (s : State) : (setAccErr s).inputs = s.inputs := rfl
@[simp] theorem setAccErr_readData (s : State) : (setAccErr s).readData = s.readData := rfl
@[simp] theorem setAccErr_draws (s : State) : (setAccErr s).draws = s.draws := rfl

/-! `answer` -/

@[simp] theorem answer_cmd (v : Word) (s : State) : (answer v s).cmd = s.cmd := rfl
@[simp] theorem answer_status (v : Word) (s : State) : (answer v s).status = s.status := rfl
@[simp] theorem answer_irqEn (v : Word) (s : State) : (answer v s).irqEn = s.irqEn := rfl
@[simp] theorem answer_hufBitpos (v : Word) (s : State) : (answer v s).hufBitpos = s.hufBitpos := rfl
@[simp] theorem answer_hufPart2start (v : Word) (s : State) : (answer v s).hufPart2start = s.hufPart2start := rfl
@[simp] theorem answer_hufGranule (v : Word) (s : State) : (answer v s).hufGranule = s.hufGranule := rfl
@[simp] theorem answer_hufTables (v : Word) (s : State) : (answer v s).hufTables = s.hufTables := rfl
@[simp] theorem answer_hufSfbsel (v : Word) (s : State) : (answer v s).hufSfbsel = s.hufSfbsel := rfl
@[simp] theorem answer_hufNonzero (v : Word) (s : State) : (answer v s).hufNonzero = s.hufNonzero := rfl
@[simp] theorem answer_hufRegion (v : Word) (s : State) : (answer v s).hufRegion = s.hufRegion := rfl
@[simp] theorem answer_hufBveff (v : Word) (s : State) : (answer v s).hufBveff = s.hufBveff := rfl
@[simp] theorem answer_mem (v : Word) (s : State) : (answer v s).mem = s.mem := rfl
@[simp] theorem answer_phase (v : Word) (s : State) : (answer v s).phase = s.phase := rfl
@[simp] theorem answer_engine (v : Word) (s : State) : (answer v s).engine = s.engine := rfl
@[simp] theorem answer_inputs (v : Word) (s : State) : (answer v s).inputs = s.inputs := rfl
@[simp] theorem answer_readData (v : Word) (s : State) : (answer v s).readData = v := rfl
@[simp] theorem answer_draws (v : Word) (s : State) : (answer v s).draws = s.draws := rfl

/-! `answerFree` -/

@[simp] theorem answerFree_cmd (w : Width) (s : State) : (answerFree w s).cmd = s.cmd := rfl
@[simp] theorem answerFree_status (w : Width) (s : State) : (answerFree w s).status = s.status := rfl
@[simp] theorem answerFree_irqEn (w : Width) (s : State) : (answerFree w s).irqEn = s.irqEn := rfl
@[simp] theorem answerFree_hufBitpos (w : Width) (s : State) : (answerFree w s).hufBitpos = s.hufBitpos := rfl
@[simp] theorem answerFree_hufPart2start (w : Width) (s : State) :
    (answerFree w s).hufPart2start = s.hufPart2start := rfl
@[simp] theorem answerFree_hufGranule (w : Width) (s : State) : (answerFree w s).hufGranule = s.hufGranule := rfl
@[simp] theorem answerFree_hufTables (w : Width) (s : State) : (answerFree w s).hufTables = s.hufTables := rfl
@[simp] theorem answerFree_hufSfbsel (w : Width) (s : State) : (answerFree w s).hufSfbsel = s.hufSfbsel := rfl
@[simp] theorem answerFree_hufNonzero (w : Width) (s : State) : (answerFree w s).hufNonzero = s.hufNonzero := rfl
@[simp] theorem answerFree_hufRegion (w : Width) (s : State) : (answerFree w s).hufRegion = s.hufRegion := rfl
@[simp] theorem answerFree_hufBveff (w : Width) (s : State) : (answerFree w s).hufBveff = s.hufBveff := rfl
@[simp] theorem answerFree_mem (w : Width) (s : State) : (answerFree w s).mem = s.mem := rfl
@[simp] theorem answerFree_phase (w : Width) (s : State) : (answerFree w s).phase = s.phase := rfl
@[simp] theorem answerFree_engine (w : Width) (s : State) : (answerFree w s).engine = s.engine := rfl
@[simp] theorem answerFree_inputs (w : Width) (s : State) : (answerFree w s).inputs = s.inputs := rfl
@[simp] theorem answerFree_readData (w : Width) (s : State) :
    (answerFree w s).readData = BitVec.ofNat 32 ((s.draw 0).toNat % 2 ^ (8 * Width.count w)) := rfl
@[simp] theorem answerFree_draws (w : Width) (s : State) : (answerFree w s).draws = s.draws + 1 := rfl

/-! `softReset` -/

@[simp] theorem softReset_cmd (s : State) : (softReset s).cmd = 0#32 := rfl
@[simp] theorem softReset_status (s : State) : (softReset s).status = Status.zero := rfl
@[simp] theorem softReset_irqEn (s : State) : (softReset s).irqEn = 0#32 := rfl
@[simp] theorem softReset_hufBitpos (s : State) : (softReset s).hufBitpos = 0#32 := rfl
@[simp] theorem softReset_hufPart2start (s : State) : (softReset s).hufPart2start = 0#32 := rfl
@[simp] theorem softReset_hufGranule (s : State) : (softReset s).hufGranule = 0#32 := rfl
@[simp] theorem softReset_hufTables (s : State) : (softReset s).hufTables = 0#32 := rfl
@[simp] theorem softReset_hufSfbsel (s : State) : (softReset s).hufSfbsel = 0#32 := rfl
@[simp] theorem softReset_hufNonzero (s : State) : (softReset s).hufNonzero = 0#32 := rfl
@[simp] theorem softReset_hufRegion (s : State) : (softReset s).hufRegion = 0#32 := rfl
@[simp] theorem softReset_hufBveff (s : State) : (softReset s).hufBveff = 0#32 := rfl
@[simp] theorem softReset_mem (s : State) : (softReset s).mem = clearCarried (abandonMemory s.phase s.mem) := rfl
@[simp] theorem softReset_phase (s : State) : (softReset s).phase = .idle := rfl
@[simp] theorem softReset_engine (s : State) : (softReset s).engine = none := rfl
@[simp] theorem softReset_inputs (s : State) : (softReset s).inputs = s.inputs := rfl
@[simp] theorem softReset_readData (s : State) : (softReset s).readData = s.readData := rfl
@[simp] theorem softReset_draws (s : State) : (softReset s).draws = s.draws := rfl

/-! `powerOnReset` -/

@[simp] theorem powerOnReset_cmd (s : State) : (powerOnReset s).cmd = 0#32 := rfl
@[simp] theorem powerOnReset_status (s : State) : (powerOnReset s).status = Status.zero := rfl
@[simp] theorem powerOnReset_irqEn (s : State) : (powerOnReset s).irqEn = 0#32 := rfl
@[simp] theorem powerOnReset_hufBitpos (s : State) : (powerOnReset s).hufBitpos = 0#32 := rfl
@[simp] theorem powerOnReset_hufPart2start (s : State) : (powerOnReset s).hufPart2start = 0#32 := rfl
@[simp] theorem powerOnReset_hufGranule (s : State) : (powerOnReset s).hufGranule = 0#32 := rfl
@[simp] theorem powerOnReset_hufTables (s : State) : (powerOnReset s).hufTables = 0#32 := rfl
@[simp] theorem powerOnReset_hufSfbsel (s : State) : (powerOnReset s).hufSfbsel = 0#32 := rfl
@[simp] theorem powerOnReset_hufNonzero (s : State) : (powerOnReset s).hufNonzero = 0#32 := rfl
@[simp] theorem powerOnReset_hufRegion (s : State) : (powerOnReset s).hufRegion = 0#32 := rfl
@[simp] theorem powerOnReset_hufBveff (s : State) : (powerOnReset s).hufBveff = 0#32 := rfl
@[simp] theorem powerOnReset_mem (s : State) : (powerOnReset s).mem = [] := rfl
@[simp] theorem powerOnReset_phase (s : State) : (powerOnReset s).phase = .idle := rfl
@[simp] theorem powerOnReset_engine (s : State) : (powerOnReset s).engine = none := rfl
@[simp] theorem powerOnReset_inputs (s : State) : (powerOnReset s).inputs = s.inputs := rfl
@[simp] theorem powerOnReset_readData (s : State) : (powerOnReset s).readData = s.readData := rfl
@[simp] theorem powerOnReset_draws (s : State) : (powerOnReset s).draws = s.draws := rfl

/-! `commitHuff` -/

@[simp] theorem commitHuff_cmd (ops : Snapshot) (r : HuffResult) (s : State) :
    (commitHuff ops r s).cmd = s.cmd := rfl
@[simp] theorem commitHuff_status (ops : Snapshot) (r : HuffResult) (s : State) :
    (commitHuff ops r s).status = s.status.withHuffFlags r.clamp r.empty r.rollback r.overrun := rfl
@[simp] theorem commitHuff_irqEn (ops : Snapshot) (r : HuffResult) (s : State) :
    (commitHuff ops r s).irqEn = s.irqEn := rfl
@[simp] theorem commitHuff_hufBitpos (ops : Snapshot) (r : HuffResult) (s : State) :
    (commitHuff ops r s).hufBitpos = BitVec.ofNat 32 (ops.endPos % 65536) := rfl
@[simp] theorem commitHuff_hufPart2start (ops : Snapshot) (r : HuffResult) (s : State) :
    (commitHuff ops r s).hufPart2start = s.hufPart2start := rfl
@[simp] theorem commitHuff_hufGranule (ops : Snapshot) (r : HuffResult) (s : State) :
    (commitHuff ops r s).hufGranule = s.hufGranule := rfl
@[simp] theorem commitHuff_hufTables (ops : Snapshot) (r : HuffResult) (s : State) :
    (commitHuff ops r s).hufTables = s.hufTables := rfl
@[simp] theorem commitHuff_hufSfbsel (ops : Snapshot) (r : HuffResult) (s : State) :
    (commitHuff ops r s).hufSfbsel = s.hufSfbsel := rfl
@[simp] theorem commitHuff_hufNonzero (ops : Snapshot) (r : HuffResult) (s : State) :
    (commitHuff ops r s).hufNonzero = BitVec.ofNat 32 r.nz := rfl
@[simp] theorem commitHuff_hufRegion (ops : Snapshot) (r : HuffResult) (s : State) :
    (commitHuff ops r s).hufRegion = BitVec.ofNat 32 (r.r1 + 65536 * r.r2) := rfl
@[simp] theorem commitHuff_hufBveff (ops : Snapshot) (r : HuffResult) (s : State) :
    (commitHuff ops r s).hufBveff = BitVec.ofNat 32 r.bv := rfl
@[simp] theorem commitHuff_mem (ops : Snapshot) (r : HuffResult) (s : State) :
    (commitHuff ops r s).mem = s.mem.store (isAddr 0) (spectrumBytes r.spectrum) := rfl
@[simp] theorem commitHuff_phase (ops : Snapshot) (r : HuffResult) (s : State) :
    (commitHuff ops r s).phase = s.phase := rfl
@[simp] theorem commitHuff_engine (ops : Snapshot) (r : HuffResult) (s : State) :
    (commitHuff ops r s).engine = s.engine := rfl
@[simp] theorem commitHuff_inputs (ops : Snapshot) (r : HuffResult) (s : State) :
    (commitHuff ops r s).inputs = s.inputs := rfl
@[simp] theorem commitHuff_readData (ops : Snapshot) (r : HuffResult) (s : State) :
    (commitHuff ops r s).readData = s.readData := rfl
@[simp] theorem commitHuff_draws (ops : Snapshot) (r : HuffResult) (s : State) :
    (commitHuff ops r s).draws = s.draws := rfl

/-! `commitSynth` -/

@[simp] theorem commitSynth_cmd (ch : Channel) (nch : Packing) (XR V : List Word) (s : State) :
    (commitSynth ch nch XR V s).cmd = s.cmd := rfl
@[simp] theorem commitSynth_status (ch : Channel) (nch : Packing) (XR V : List Word) (s : State) :
    (commitSynth ch nch XR V s).status = s.status := rfl
@[simp] theorem commitSynth_irqEn (ch : Channel) (nch : Packing) (XR V : List Word) (s : State) :
    (commitSynth ch nch XR V s).irqEn = s.irqEn := rfl
@[simp] theorem commitSynth_hufBitpos (ch : Channel) (nch : Packing) (XR V : List Word) (s : State) :
    (commitSynth ch nch XR V s).hufBitpos = s.hufBitpos := rfl
@[simp] theorem commitSynth_hufPart2start (ch : Channel) (nch : Packing) (XR V : List Word) (s : State) :
    (commitSynth ch nch XR V s).hufPart2start = s.hufPart2start := rfl
@[simp] theorem commitSynth_hufGranule (ch : Channel) (nch : Packing) (XR V : List Word) (s : State) :
    (commitSynth ch nch XR V s).hufGranule = s.hufGranule := rfl
@[simp] theorem commitSynth_hufTables (ch : Channel) (nch : Packing) (XR V : List Word) (s : State) :
    (commitSynth ch nch XR V s).hufTables = s.hufTables := rfl
@[simp] theorem commitSynth_hufSfbsel (ch : Channel) (nch : Packing) (XR V : List Word) (s : State) :
    (commitSynth ch nch XR V s).hufSfbsel = s.hufSfbsel := rfl
@[simp] theorem commitSynth_hufNonzero (ch : Channel) (nch : Packing) (XR V : List Word) (s : State) :
    (commitSynth ch nch XR V s).hufNonzero = s.hufNonzero := rfl
@[simp] theorem commitSynth_hufRegion (ch : Channel) (nch : Packing) (XR V : List Word) (s : State) :
    (commitSynth ch nch XR V s).hufRegion = s.hufRegion := rfl
@[simp] theorem commitSynth_hufBveff (ch : Channel) (nch : Packing) (XR V : List Word) (s : State) :
    (commitSynth ch nch XR V s).hufBveff = s.hufBveff := rfl
@[simp] theorem commitSynth_mem (ch : Channel) (nch : Packing) (XR V : List Word) (s : State) :
    (commitSynth ch nch XR V s).mem = (s.mem.store (vAddr ch 0) (wordListBytes (synthSlots s.draws XR 18 0 V).2)).store (pcmAddr 0)
      (pcmBytes s.mem ch nch (synthSlots s.draws XR 18 0 V).1) := rfl
@[simp] theorem commitSynth_phase (ch : Channel) (nch : Packing) (XR V : List Word) (s : State) :
    (commitSynth ch nch XR V s).phase = s.phase := rfl
@[simp] theorem commitSynth_engine (ch : Channel) (nch : Packing) (XR V : List Word) (s : State) :
    (commitSynth ch nch XR V s).engine = s.engine := rfl
@[simp] theorem commitSynth_inputs (ch : Channel) (nch : Packing) (XR V : List Word) (s : State) :
    (commitSynth ch nch XR V s).inputs = s.inputs := rfl
@[simp] theorem commitSynth_readData (ch : Channel) (nch : Packing) (XR V : List Word) (s : State) :
    (commitSynth ch nch XR V s).readData = s.readData := rfl
@[simp] theorem commitSynth_draws (ch : Channel) (nch : Packing) (XR V : List Word) (s : State) :
    (commitSynth ch nch XR V s).draws = s.draws + 576 := rfl

/-! `Status.completed` -/

@[simp] theorem Status.completed_done (st : Status) : st.completed.done = true := rfl
@[simp] theorem Status.completed_err (st : Status) : st.completed.err = st.err := rfl
@[simp] theorem Status.completed_errCode (st : Status) : st.completed.errCode = st.errCode := rfl
@[simp] theorem Status.completed_bvClamp (st : Status) : st.completed.bvClamp = st.bvClamp := rfl
@[simp] theorem Status.completed_empty (st : Status) : st.completed.empty = st.empty := rfl
@[simp] theorem Status.completed_qRollback (st : Status) : st.completed.qRollback = st.qRollback := rfl
@[simp] theorem Status.completed_bvOverrun (st : Status) : st.completed.bvOverrun = st.bvOverrun := rfl
@[simp] theorem Status.completed_cmdDrop (st : Status) : st.completed.cmdDrop = st.cmdDrop := rfl
@[simp] theorem Status.completed_accErr (st : Status) : st.completed.accErr = st.accErr := rfl

/-! `Status.failed` -/

@[simp] theorem Status.failed_done (c : ErrCode) (st : Status) : (st.failed c).done = st.done := rfl
@[simp] theorem Status.failed_err (c : ErrCode) (st : Status) : (st.failed c).err = true := rfl
@[simp] theorem Status.failed_errCode (c : ErrCode) (st : Status) : (st.failed c).errCode = c := rfl
@[simp] theorem Status.failed_bvClamp (c : ErrCode) (st : Status) : (st.failed c).bvClamp = st.bvClamp := rfl
@[simp] theorem Status.failed_empty (c : ErrCode) (st : Status) : (st.failed c).empty = st.empty := rfl
@[simp] theorem Status.failed_qRollback (c : ErrCode) (st : Status) : (st.failed c).qRollback = st.qRollback := rfl
@[simp] theorem Status.failed_bvOverrun (c : ErrCode) (st : Status) : (st.failed c).bvOverrun = st.bvOverrun := rfl
@[simp] theorem Status.failed_cmdDrop (c : ErrCode) (st : Status) : (st.failed c).cmdDrop = st.cmdDrop := rfl
@[simp] theorem Status.failed_accErr (c : ErrCode) (st : Status) : (st.failed c).accErr = st.accErr := rfl

/-! `Status.atStart` -/

@[simp] theorem Status.atStart_done (st : Status) : st.atStart.done = false := rfl
@[simp] theorem Status.atStart_err (st : Status) : st.atStart.err = false := rfl
@[simp] theorem Status.atStart_errCode (st : Status) : st.atStart.errCode = .none := rfl
@[simp] theorem Status.atStart_bvClamp (st : Status) : st.atStart.bvClamp = false := rfl
@[simp] theorem Status.atStart_empty (st : Status) : st.atStart.empty = false := rfl
@[simp] theorem Status.atStart_qRollback (st : Status) : st.atStart.qRollback = false := rfl
@[simp] theorem Status.atStart_bvOverrun (st : Status) : st.atStart.bvOverrun = false := rfl
@[simp] theorem Status.atStart_cmdDrop (st : Status) : st.atStart.cmdDrop = st.cmdDrop := rfl
@[simp] theorem Status.atStart_accErr (st : Status) : st.atStart.accErr = st.accErr := rfl

/-! `Status.withHuffFlags` -/

@[simp] theorem Status.withHuffFlags_done (a b c d : Bool) (st : Status) : (st.withHuffFlags a b c d).done = st.done := rfl
@[simp] theorem Status.withHuffFlags_err (a b c d : Bool) (st : Status) : (st.withHuffFlags a b c d).err = st.err := rfl
@[simp] theorem Status.withHuffFlags_errCode (a b c d : Bool) (st : Status) : (st.withHuffFlags a b c d).errCode = st.errCode := rfl
@[simp] theorem Status.withHuffFlags_bvClamp (a b c d : Bool) (st : Status) : (st.withHuffFlags a b c d).bvClamp = a := rfl
@[simp] theorem Status.withHuffFlags_empty (a b c d : Bool) (st : Status) : (st.withHuffFlags a b c d).empty = b := rfl
@[simp] theorem Status.withHuffFlags_qRollback (a b c d : Bool) (st : Status) : (st.withHuffFlags a b c d).qRollback = c := rfl
@[simp] theorem Status.withHuffFlags_bvOverrun (a b c d : Bool) (st : Status) : (st.withHuffFlags a b c d).bvOverrun = d := rfl
@[simp] theorem Status.withHuffFlags_cmdDrop (a b c d : Bool) (st : Status) : (st.withHuffFlags a b c d).cmdDrop = st.cmdDrop := rfl
@[simp] theorem Status.withHuffFlags_accErr (a b c d : Bool) (st : Status) : (st.withHuffFlags a b c d).accErr = st.accErr := rfl

/-! `Status.writeOneToClear` -/

@[simp] theorem Status.writeOneToClear_done (v : Word) (st : Status) : (st.writeOneToClear v).done = (st.done && !v.getLsbD 1) := rfl
@[simp] theorem Status.writeOneToClear_err (v : Word) (st : Status) : (st.writeOneToClear v).err = (st.err && !v.getLsbD 2) := rfl
@[simp] theorem Status.writeOneToClear_errCode (v : Word) (st : Status) : (st.writeOneToClear v).errCode = if v.getLsbD 2 then .none else st.errCode := rfl
@[simp] theorem Status.writeOneToClear_bvClamp (v : Word) (st : Status) : (st.writeOneToClear v).bvClamp = st.bvClamp := rfl
@[simp] theorem Status.writeOneToClear_empty (v : Word) (st : Status) : (st.writeOneToClear v).empty = st.empty := rfl
@[simp] theorem Status.writeOneToClear_qRollback (v : Word) (st : Status) : (st.writeOneToClear v).qRollback = st.qRollback := rfl
@[simp] theorem Status.writeOneToClear_bvOverrun (v : Word) (st : Status) : (st.writeOneToClear v).bvOverrun = st.bvOverrun := rfl
@[simp] theorem Status.writeOneToClear_cmdDrop (v : Word) (st : Status) : (st.writeOneToClear v).cmdDrop = (st.cmdDrop && !v.getLsbD 16) := rfl
@[simp] theorem Status.writeOneToClear_accErr (v : Word) (st : Status) : (st.writeOneToClear v).accErr = (st.accErr && !v.getLsbD 17) := rfl

end Sys2Proof.Machine
end

