-- ==== Sys2Proof/Laws/Commands.lean ====
section
/-! SUPPORT. What starting a command does, what decoding finds, and what each meaning's next state is. -/

namespace Sys2Proof.Machine

/-! ## Starting -/

theorem start_busy {s : State} {snap : Snapshot} (h : s.phase = .busy snap) :
    start s = { s with status := { s.status with cmdDrop := true } } := by
  simp only [start, h]

theorem start_accepted {s : State} (h : s.phase = .idle) (hop : s.parameters.op < 6) : start s = acceptStart s := by
  simp only [start, h, if_neg (show ¬ 6 ≤ s.parameters.op by omega)]

theorem start_reserved {s : State} (h : s.phase = .idle) (hop : 6 ≤ s.parameters.op) :
    start s = raiseError .badOpcode (acceptStart s) := by
  simp only [start, h, if_pos hop]

theorem busy_eq_false {s : State} : s.busy = false ↔ s.phase = .idle := by
  cases h : s.phase <;> simp [State.busy, h, Phase.isBusy]

theorem busy_eq_true {s : State} : s.busy = true ↔ ∃ snap, s.phase = .busy snap := by
  cases h : s.phase <;> simp [State.busy, h, Phase.isBusy]

theorem operands_of_busy {s : State} {snap : Snapshot} (h : s.phase = .busy snap) : s.operands = snap := by
  simp only [State.operands, h]

/-! ## Decoding -/

/-- The command word of a snapshot, taken as bytes, decodes to `decodeCommand` of it. -/
theorem decode_command (w : Word) : decode .command (Word.bytes w) = .ok (decodeCommand w, []) := by
  simp only [decode, Word.bytes, wordOfBytes_bytes]

theorem decode_table {f : Form} (hf : f ≠ .command) (h : Half) {i : Instr} (hd : decodeTableHalf f h = .ok i) :
    decode f (Half.bytes h) = .ok (i, []) := by
  cases f with
  | command => exact absurd rfl hf
  | pairWord => simp only [decode, Half.bytes, halfOfBytes_bytes, hd]
  | quadWord => simp only [decode, Half.bytes, halfOfBytes_bytes, hd]

theorem decode_table_error {f : Form} (hf : f ≠ .command) (h : Half) {e : DecodeError} (hd : decodeTableHalf f h = .error e) :
    decode f (Half.bytes h) = .error e := by
  cases f with
  | command => exact absurd rfl hf
  | pairWord => simp only [decode, Half.bytes, halfOfBytes_bytes, hd]
  | quadWord => simp only [decode, Half.bytes, halfOfBytes_bytes, hd]

theorem TableId.form_ne (t : TableId) : t.form ≠ .command := by cases t <;> simp [TableId.form]

/-- A sequencer that runs a command with no hidden state executes the command of its snapshot. -/
theorem sequencerStep_command {s : State} (snap : Snapshot) (h : s.engine = none) :
    sequencerStep snap s = exec (decodeCommand snap.cmd) s := by
  simp only [sequencerStep, fetch, h, decode_command]

/-- A started command runs as the command of CMD. -/
theorem runCommand_accepted {s : State} (h : s.phase = .idle) (hop : s.parameters.op < 6) :
    runCommand s = exec (decodeCommand s.cmd) (acceptStart s) := by
  unfold runCommand sequencerTurn
  rw [start_accepted h hop]
  exact sequencerStep_command s.parameters rfl

theorem decodeCommand_nop {w : Word} (h : w.field 0 4 = 0) : decodeCommand w = .nop := by
  have h' : (w.extractLsb' 0 4).toNat = 0 := h
  simp [decodeCommand, h']

/-! ## What each meaning's next state is -/

/-- HUFF: it commits a result, or it ends in an error of its decoding. -/
theorem exec_huff_next {s t : State} (h : exec .huff s = .next t) :
    (∃ r, huffDecode Config.overrunSlack s.operands s.mem = .ok r ∧ t = finish (commitHuff s.operands r s)) ∨
      (∃ c, huffDecode Config.overrunSlack s.operands s.mem = .error (.error c) ∧ t = raiseError c s) := by
  simp only [exec, execHuff, huffWith] at h
  split at h
  · rename_i r hr; cases h; exact .inl ⟨r, hr, rfl⟩
  · rename_i c hc; cases h; exact .inr ⟨c, hc, rfl⟩
  · cases h

theorem exec_antialias_next {bt : BlockType} {mixed : Bool} {s t : State} (h : exec (.antialias bt mixed) s = .next t) :
    ∃ m, aliasBoundaries s.draw s.mem (boundaryCount bt mixed) 0 s.mem = some m ∧
      t = finish { s with mem := m, draws := s.draws + 576 } := by
  simp only [exec, execAntialias] at h
  split at h
  · cases h
  · rename_i m hm; cases h; exact ⟨m, hm, rfl⟩

theorem exec_hybrid_next {ch : Channel} {bt : BlockType} {mixed : Bool} {s t : State}
    (h : exec (.hybrid ch bt mixed) s = .next t) :
    ∃ xs os, hybridSubbands s ch bt mixed 32 0 = some (xs, os) ∧
      t = finish { s with
        mem := (s.mem.store (xrAddr 0) (wordListBytes xs)).store (ovlAddr ch 0 0) (wordListBytes os)
        draws := s.draws + 576 } := by
  simp only [exec, execHybrid] at h
  split at h
  · cases h
  · rename_i xs os hx; cases h; exact ⟨xs, os, hx, rfl⟩

theorem exec_synth_next {ch : Channel} {nch : Packing} {s t : State} (h : exec (.synth ch nch) s = .next t) :
    (badChannel ch nch = true ∧ t = raiseError .badChannel s) ∨
      (badChannel ch nch = false ∧ ∃ XR V, readXr s.mem 32 0 = some XR ∧ readHistory s.mem ch 16 0 = some V ∧
        t = finish (commitSynth ch nch XR V s)) := by
  simp only [exec, execSynth] at h
  split at h
  · rename_i hb; cases h; exact .inl ⟨hb, rfl⟩
  · rename_i hb
    split at h
    · rename_i XR V hx hv; cases h; exact .inr ⟨by simpa using hb, XR, V, hx, hv, rfl⟩
    · cases h

/-- A branch word reads a bit, which may end the HUFF in an error, and moves the walk. -/
theorem exec_htabBranch_next {offset : Nat} {s t : State} (h : exec (.htabBranch offset) s = .next t) :
    ∃ pos w d, s.engine = some ⟨pos, some w, d⟩ ∧
      ((∃ c, readBit s.mem pos = .error (.error c) ∧ t = raiseError c s) ∨
        ∃ bit pos' e, readBit s.mem pos = .ok (bit, pos') ∧
          w.table.words[branchTarget w.index offset bit]? = some e ∧
          t = { s with engine := some ⟨pos', some ⟨w.table, branchTarget w.index offset bit, e⟩, d⟩ }) := by
  simp only [exec, execHtabBranch] at h
  split at h
  · cases h
  · cases h
  · rename_i pos w d he
    refine ⟨pos, w, d, he, ?_⟩
    split at h
    · rename_i c hc; cases h; exact .inl ⟨c, hc, rfl⟩
    · cases h
    · rename_i bit pos' hb
      split at h
      · cases h
      · rename_i e hw; cases h; exact .inr ⟨bit, pos', e, hb, hw, rfl⟩

theorem endWalk_next {leaf : Leaf} {s t : State} (h : endWalk leaf s = .next t) :
    ∃ pos w d, s.engine = some ⟨pos, some w, d⟩ ∧ t = { s with engine := some ⟨pos, none, some leaf⟩ } := by
  simp only [endWalk] at h
  split at h
  · cases h
  · cases h
  · rename_i pos w d he; cases h; exact ⟨pos, w, d, he, rfl⟩

theorem badChannel_eq_true {ch : Channel} {nch : Packing} : badChannel ch nch = true ↔ ch = .right ∧ nch = .mono := by
  cases ch <;> cases nch <;> simp [badChannel]

/-- A bit read past the end of MDB is the only error of a bit read. -/
theorem readBit_error {m : Memory} {pos : Nat} {c : ErrCode} (h : readBit m pos = .error (.error c)) : c = .mdbRange := by
  unfold readBit at h
  split at h
  · cases h; rfl
  · split at h <;> cases h

end Sys2Proof.Machine
end

