-- ==== Sys2Proof/Laws/Bus.lean ====
section
/-! SUPPORT. Everything a host access and a step can do, said once. -/

namespace Sys2Proof.Machine

/-- A host read answers a value, or a free value, or a free value with ACC_ERR. -/
theorem hostRead_next {addr : Address} {width : Width} {s t : State} (h : hostRead addr width s = .next t) :
    (∃ v, t = answer v s) ∨ t = answerFree width s ∨ t = answerFree width (setAccErr s) := by
  unfold hostRead at h
  split at h
  · split at h
    · cases h; exact .inl ⟨_, rfl⟩
    · split at h
      · cases h; exact .inl ⟨_, rfl⟩
      · cases h; exact .inr (.inr rfl)
  · cases h; exact .inl ⟨_, rfl⟩
  · split at h
    · cases h; exact .inr (.inr rfl)
    · split at h
      · cases h; exact .inr (.inl rfl)
      · split at h
        · cases h
        · cases h; exact .inl ⟨_, rfl⟩

/-- Every region begins and ends at a multiple of 128. -/
theorem region_congr {a b : Nat} (h : a / 128 = b / 128) : region a = region b := by
  unfold region
  have lt : ∀ k, (a < 128 * k) = (b < 128 * k) := fun k => propext (by omega)
  have le : ∀ k, (128 * k ≤ a) = (128 * k ≤ b) := fun k => propext (by omega)
  rw [show (0x100 : Nat) = 128 * 2 by rfl, show (0x1000 : Nat) = 128 * 32 by rfl, show (0x2000 : Nat) = 128 * 64 by rfl,
    show (0x2480 : Nat) = 128 * 73 by rfl, show (0x3000 : Nat) = 128 * 96 by rfl, show (0x3900 : Nat) = 128 * 114 by rfl,
    show (0x4000 : Nat) = 128 * 128 by rfl, show (0x4900 : Nat) = 128 * 146 by rfl,
    show (0x5000 : Nat) = 128 * 160 by rfl, show (0x6200 : Nat) = 128 * 196 by rfl,
    show (0x8000 : Nat) = 128 * 256 by rfl, show (0xA000 : Nat) = 128 * 320 by rfl]
  simp only [lt, le]

/-- The bytes a host access touches belong to one region when it is aligned. -/
theorem region_aligned {a j n : Nat} (hn : n = 1 ∨ n = 2 ∨ n = 4) (ha : a % n = 0) (hj : j < n) :
    region (a + j) = region a := by
  apply region_congr
  rcases hn with rfl | rfl | rfl <;> omega

theorem Width.count_cases (w : Width) : Width.count w = 1 ∨ Width.count w = 2 ∨ Width.count w = 4 := by
  cases w <;> simp [Width.count]

theorem writeBytes_length (v : Word) (width : Width) :
    ((v.bytes.take (Width.count width)).map some).length = Width.count width := by
  cases width <;> simp [Width.count, Word.bytes]

/-- A host write is ignored, is refused with ACC_ERR, writes a register, or stores aligned bytes of one memory. -/
theorem hostWrite_cases (addr : Address) (width : Width) (v : Word) (s : State) :
    hostWrite addr width v s = s ∨ hostWrite addr width v s = setAccErr s ∨
      (∃ r, regAt addr.toNat = some r ∧ region addr.toNat = .regs ∧ hostWrite addr width v s = writeReg s r v) ∨
      ((region addr.toNat).isMemory = true ∧ aligned addr.toNat width = true ∧ s.busy = false ∧
        hostWrite addr width v s =
          { s with mem := s.mem.store addr.toNat ((v.bytes.take (Width.count width)).map some) }) := by
  unfold hostWrite
  split
  · rename_i hr
    split
    · exact .inl rfl
    · rename_i r hreg
      split
      · exact .inr (.inr (.inl ⟨r, hreg, hr, rfl⟩))
      · exact .inr (.inl rfl)
  · exact .inl rfl
  · rename_i h1 h2
    split
    · exact .inr (.inl rfl)
    · rename_i ha
      split
      · exact .inr (.inl rfl)
      · rename_i hb
        refine .inr (.inr (.inr ⟨?_, by simpa using ha, by simpa using hb, rfl⟩))
        cases hreg : region addr.toNat <;> simp_all [Region.isMemory]

/-- A host write of a memory. -/
theorem hostWrite_memory (s : State) (addr : Address) (width : Width) (v : Word)
    (h : (region addr.toNat).isMemory = true) :
    hostWrite addr width v s =
      if !aligned addr.toNat width then setAccErr s
      else if s.busy then setAccErr s
      else { s with mem := s.mem.store addr.toNat ((v.bytes.take (Width.count width)).map some) } := by
  unfold hostWrite
  split
  · rename_i h'; simp [h', Region.isMemory] at h
  · rename_i h'; simp [h', Region.isMemory] at h
  · rfl

/-- A host read of a memory. -/
theorem hostRead_memory (s : State) (addr : Address) (width : Width) (h : (region addr.toNat).isMemory = true) :
    hostRead addr width s =
      if !aligned addr.toNat width then .next (answerFree width (setAccErr s))
    else if s.busy then .next (answerFree width s)
    else
      match bytesValue (s.mem.bytes addr.toNat (Width.count width)) with
      | none => .fault .unwrittenRead
      | some v => .next (answer (BitVec.ofNat 32 v) s) := by
  unfold hostRead
  split
  · rename_i h'; simp [h', Region.isMemory] at h
  · rename_i h'; simp [h', Region.isMemory] at h
  · rfl

/-- What a register write can do. -/
theorem writeReg_cases (s : State) (r : Reg) (v : Word) :
    writeReg s r v = s ∨ writeReg s r v = setAccErr s ∨ writeReg s r v = softReset s ∨
      writeReg s r v = start s ∨ writeReg s r v = acknowledge v s ∨
      writeReg s r v = { s with irqEn := v &&& irqEnMask } ∨
      (s.busy = false ∧ (writeReg s r v = { s with cmd := v &&& cmdMask } ∨
        writeReg s r v = { s with hufBitpos := v &&& bitposMask } ∨
        writeReg s r v = { s with hufPart2start := v &&& part2startMask } ∨
        writeReg s r v = { s with hufGranule := v &&& granuleMask } ∨
        writeReg s r v = { s with hufTables := v &&& tablesMask } ∨
        writeReg s r v = { s with hufSfbsel := v &&& sfbselMask })) := by
  have idle : ∀ w : State, whenIdle s w = setAccErr s ∨ (s.busy = false ∧ whenIdle s w = w) := fun w => by
    unfold whenIdle
    cases s.busy <;> simp
  cases r with
  | id => exact .inl rfl
  | cmd =>
    rcases idle { s with cmd := v &&& cmdMask } with h | ⟨hb, h⟩
    · exact .inr (.inl h)
    · exact .inr (.inr (.inr (.inr (.inr (.inr ⟨hb, .inl h⟩)))))
  | ctrl =>
    simp only [writeReg, writeCtrl]
    split
    · exact .inr (.inr (.inl rfl))
    · split
      · exact .inr (.inr (.inr (.inl rfl)))
      · exact .inl rfl
  | status => exact .inr (.inr (.inr (.inr (.inl rfl))))
  | irqEn => exact .inr (.inr (.inr (.inr (.inr (.inl rfl)))))
  | hufBitpos =>
    rcases idle { s with hufBitpos := v &&& bitposMask } with h | ⟨hb, h⟩
    · exact .inr (.inl h)
    · exact .inr (.inr (.inr (.inr (.inr (.inr ⟨hb, .inr (.inl h)⟩)))))
  | hufPart2start =>
    rcases idle { s with hufPart2start := v &&& part2startMask } with h | ⟨hb, h⟩
    · exact .inr (.inl h)
    · exact .inr (.inr (.inr (.inr (.inr (.inr ⟨hb, .inr (.inr (.inl h))⟩)))))
  | hufGranule =>
    rcases idle { s with hufGranule := v &&& granuleMask } with h | ⟨hb, h⟩
    · exact .inr (.inl h)
    · exact .inr (.inr (.inr (.inr (.inr (.inr ⟨hb, .inr (.inr (.inr (.inl h)))⟩)))))
  | hufTables =>
    rcases idle { s with hufTables := v &&& tablesMask } with h | ⟨hb, h⟩
    · exact .inr (.inl h)
    · exact .inr (.inr (.inr (.inr (.inr (.inr ⟨hb, .inr (.inr (.inr (.inr (.inl h))))⟩)))))
  | hufSfbsel =>
    rcases idle { s with hufSfbsel := v &&& sfbselMask } with h | ⟨hb, h⟩
    · exact .inr (.inl h)
    · exact .inr (.inr (.inr (.inr (.inr (.inr ⟨hb, .inr (.inr (.inr (.inr (.inr h))))⟩)))))
  | hufNonzero => exact .inl rfl
  | hufRegion => exact .inl rfl
  | hufBveff => exact .inl rfl

/-- The sequencer's turn: nothing while IDLE, else exec of what it fetches. -/
theorem sequencerTurn_next {s t : State} (h : sequencerTurn s = .next t) :
    (s.phase = .idle ∧ t = s) ∨
      ∃ snap i rest, s.phase = .busy snap ∧
        decode (fetch snap s.engine).1 (fetch snap s.engine).2 = .ok (i, rest) ∧ exec i s = .next t := by
  unfold sequencerTurn at h
  split at h
  · rename_i hp; cases h; exact .inl ⟨hp, rfl⟩
  · rename_i snap hp
    unfold sequencerStep at h
    split at h
    · rename_i i rest hd; exact .inr ⟨snap, i, rest, hp, hd, h⟩
    · cases h

/-- A step is a host access, the sequencer's turn or a power-on reset. -/
theorem step_next {s t : State} (h : step s = .next t) :
    (s.inputs = [] ∧ sequencerTurn s = .next t) ∨
      (∃ addr width rest, s.inputs = .read addr width :: rest ∧
        hostRead addr width { s with inputs := rest } = .next t) ∨
      (∃ addr width v rest, s.inputs = .write addr width v :: rest ∧
        t = hostWrite addr width v { s with inputs := rest }) ∨
      (∃ rest, s.inputs = .sequencer :: rest ∧ sequencerTurn { s with inputs := rest } = .next t) ∨
      (∃ rest, s.inputs = .powerOn :: rest ∧ t = powerOnReset { s with inputs := rest }) := by
  unfold step at h
  split at h
  · rename_i hi; exact .inl ⟨hi, h⟩
  · rename_i addr width rest hi; exact .inr (.inl ⟨addr, width, rest, hi, h⟩)
  · rename_i addr width v rest hi; cases h; exact .inr (.inr (.inl ⟨addr, width, v, rest, hi, rfl⟩))
  · rename_i rest hi; exact .inr (.inr (.inr (.inl ⟨rest, hi, h⟩)))
  · rename_i rest hi; cases h; exact .inr (.inr (.inr (.inr ⟨rest, hi, rfl⟩)))

/-- One more step of a run. -/
theorem core_run_succ {s s' : State} (n : Nat) (h : step s = .next s') :
    Host.Core.run Sys2Proof.core (n + 1) s = Host.Core.run Sys2Proof.core n s' := by
  have h' : Sys2Proof.core.step s = .next s' := h
  simp only [Host.Core.run, h']

/-- The step of a HUFF stopped at a table word executes that word. -/
theorem step_table {s : State} {snap : Snapshot} {t : TableId} {i pos : Nat} {d : Option Leaf} {e : Half} {ins : Instr}
    (hp : s.phase = .busy snap) (hi : s.inputs = []) (he : s.engine = some ⟨pos, some ⟨t, i, e⟩, d⟩)
    (hd : decodeTableHalf t.form e = .ok ins) : step s = exec ins s := by
  unfold step
  rw [hi]
  simp only [sequencerTurn, hp, sequencerStep, fetch, he]
  rw [decode_table (TableId.form_ne t) e hd]

/-- The unused register offsets (10_state.md R45). -/
theorem regAt_none_iff (a : Nat) :
    region a = .regs ∧ regAt a = none ↔ 0x014 ≤ a ∧ a < 0x020 ∨ 0x040 ≤ a ∧ a < 0x100 := by
  rw [(region_map a).1]
  have : regAt a = none ↔ 5 ≤ a / 4 ∧ a / 4 < 8 ∨ 16 ≤ a / 4 := by
    unfold regAt
    generalize a / 4 = n
    rcases Nat.lt_or_ge n 16 with h | h
    · interval_cases n <;> simp
    · obtain ⟨k, rfl⟩ := Nat.exists_eq_add_of_le' h
      exact ⟨fun _ => .inr h, fun _ => rfl⟩
  rw [this]; omega

end Sys2Proof.Machine
end

