-- ==== Sys2Proof/Laws/Huffman.lean ====
section
/-! SUPPORT. What the bit reads, the table walks and the decoding loops of HUFF answer: how far the cursor moves, the only
two ways they stop early, the bounds of their values, and that they read MDB alone. -/

namespace Sys2Proof.Machine

/-- The outcome of a reader that started at `pos` and may read `n` bits: the cursor moves by at most `n`; it stops early only
past the end of MDB, which `n` bits reach, or at a byte of MDB that nothing has written. -/
def ReadsAtMost {α : Type} (m : Memory) (pos n : Nat) : Except Stop (α × Nat) → Prop
  | .ok (_, pos') => pos ≤ pos' ∧ pos' ≤ pos + n
  | .error stop =>
    (stop = .error .mdbRange ∧ 32768 < pos + n) ∨ (stop = .fault .unwrittenRead ∧ ∃ a, a < 4096 ∧ m.get (mdbAddr a) = none)

theorem ReadsAtMost.mono {α : Type} {m : Memory} {pos n n' : Nat} {r : Except Stop (α × Nat)}
    (h : ReadsAtMost m pos n r) (hn : n ≤ n') : ReadsAtMost m pos n' r := by
  rcases r with stop | ⟨v, p⟩
  · rcases h with ⟨h, h'⟩ | h
    · exact .inl ⟨h, by omega⟩
    · exact .inr h
  · exact ⟨h.1, by have := h.2; omega⟩

/-- A stop after a prefix that moved the cursor is a stop of the whole. -/
theorem ReadsAtMost.after {α β : Type} {m : Memory} {pos pos' n n' k : Nat} {stop : Stop}
    (hp : pos ≤ pos' ∧ pos' ≤ pos + n) (h : ReadsAtMost (α := α) m pos' n' (.error stop)) (hk : n + n' ≤ k := by omega) :
    ReadsAtMost (α := β) m pos k (.error stop) := by
  rcases h with ⟨h, h'⟩ | h
  · exact .inl ⟨h, by omega⟩
  · exact .inr h

theorem ReadsAtMost.stop {α β : Type} {m : Memory} {pos n n' : Nat} {stop : Stop}
    (h : ReadsAtMost (α := α) m pos n (.error stop)) (hn : n ≤ n') :
    ReadsAtMost (α := β) m pos n' (.error stop) := by
  rcases h with ⟨h, h'⟩ | h
  · exact .inl ⟨h, by omega⟩
  · exact .inr h

/-- Where MDB is written and the bound stays inside it, a reader answers. -/
theorem ReadsAtMost.completes {α : Type} {m : Memory} {pos n : Nat} {r : Except Stop (α × Nat)}
    (h : ReadsAtMost m pos n r) (hw : ∀ a, a < 4096 → (m.get (mdbAddr a)).isSome = true) (hn : pos + n ≤ 32768) :
    ∃ v pos', r = .ok (v, pos') ∧ pos ≤ pos' ∧ pos' ≤ pos + n := by
  rcases r with stop | ⟨v, p⟩
  · rcases h with ⟨_, h⟩ | ⟨_, a, ha, h⟩
    · omega
    · have := hw a ha; simp [h] at this
  · exact ⟨v, p, rfl, h.1, h.2⟩

theorem ReadsAtMost.stop_eq {α : Type} {m : Memory} {pos n : Nat} {stop : Stop}
    (h : ReadsAtMost (α := α) m pos n (.error stop)) :
    stop = .error .mdbRange ∨ stop = .fault .unwrittenRead := by
  rcases h with ⟨h, _⟩ | ⟨h, _⟩
  · exact .inl h
  · exact .inr h

/-! ## Bit reads -/

theorem readBit_ok {m : Memory} {pos pos' : Nat} {b : Bool} (h : readBit m pos = .ok (b, pos')) : pos' = pos + 1 := by
  unfold readBit at h
  split at h
  · cases h
  · split at h
    · cases h
    · cases h; rfl

theorem readBit_reads (m : Memory) (pos : Nat) : ReadsAtMost m pos 1 (readBit m pos) := by
  unfold readBit
  split
  · rename_i h
    exact .inl ⟨rfl, by simp only [Config.mdbBits] at h; omega⟩
  · rename_i h
    simp only [Config.mdbBits] at h
    split
    · rename_i hg
      exact .inr ⟨rfl, pos / 8, by omega, hg⟩
    · exact ⟨by omega, by omega⟩

theorem readBits_reads (m : Memory) (n v pos : Nat) : ReadsAtMost m pos n (readBits m n v pos) := by
  induction n generalizing v pos with
  | zero => exact ⟨by omega, by omega⟩
  | succ n ih =>
    have hb := readBit_reads m pos
    unfold readBits
    cases hr : readBit m pos with
    | error stop => rw [hr] at hb; exact hb.stop (by omega)
    | ok bp =>
      obtain ⟨b, p⟩ := bp
      rw [hr] at hb
      have hp := ih (2 * v + b.toNat) p
      cases h2 : readBits m n (2 * v + b.toNat) p with
      | error stop => rw [h2] at hp; simp only [h2]; exact ReadsAtMost.after hb hp
      | ok w =>
        obtain ⟨w, q⟩ := w
        rw [h2] at hp
        simp only [h2]
        have h1 : pos ≤ p ∧ p ≤ pos + 1 := hb
        have h3 : p ≤ q ∧ q ≤ p + n := hp
        exact ⟨by omega, by omega⟩

/-- `n` bits appended to `v` give a number below (v + 1) * 2^n. -/
theorem readBits_lt {m : Memory} {n v pos w pos' : Nat} (h : readBits m n v pos = .ok (w, pos')) :
    w < (v + 1) * 2 ^ n := by
  induction n generalizing v pos with
  | zero => simp only [readBits, Except.ok.injEq, Prod.mk.injEq] at h; omega
  | succ n ih =>
    unfold readBits at h
    split at h
    · cases h
    · rename_i b p hb
      have := ih h
      have hle : 2 * v + b.toNat + 1 ≤ 2 * (v + 1) := by cases b <;> simp; omega
      calc w < (2 * v + b.toNat + 1) * 2 ^ n := this
        _ ≤ 2 * (v + 1) * 2 ^ n := Nat.mul_le_mul_right _ hle
        _ = (v + 1) * 2 ^ (n + 1) := by ring

/-! ## Table walks -/

/-- What a walk of a checked table answers: a leaf the check accepts, after at most one bit a word. -/
theorem walkFrom_reads {leafOk : Half → Bool} {ws : List Half} (m : Memory) (fuel i pos : Nat)
    (h : Config.walkOk leafOk ws fuel i = true) :
    ReadsAtMost m pos fuel (walkFrom ws m fuel i pos) ∧
      ∀ e pos', walkFrom ws m fuel i pos = .ok (e, pos') → leafOk e = true ∧ e.getLsbD 15 = false := by
  induction fuel generalizing i pos with
  | zero => simp [Config.walkOk] at h
  | succ fuel ih =>
    unfold Config.walkOk at h
    unfold walkFrom
    cases hw : ws[i]? with
    | none => simp [hw] at h
    | some e =>
      simp only [hw] at h ⊢
      by_cases hb : e.getLsbD 15 = true
      · simp only [hb, if_true, Bool.and_eq_true] at h ⊢
        have hr := readBit_reads m pos
        cases hbit : readBit m pos with
        | error stop =>
          rw [hbit] at hr
          exact ⟨hr.stop (by omega), by simp⟩
        | ok bp =>
          obtain ⟨b, p⟩ := bp
          rw [hbit] at hr
          have h1 : pos ≤ p ∧ p ≤ pos + 1 := hr
          have hnext : Config.walkOk leafOk ws fuel (branchTarget i (65536 - e.toNat) b) = true := by
            cases b
            · exact h.1
            · exact h.2
          obtain ⟨hr2, hl⟩ := ih (branchTarget i (65536 - e.toNat) b) p hnext
          simp only
          refine ⟨?_, hl⟩
          cases hwf : walkFrom ws m fuel (branchTarget i (65536 - e.toNat) b) p with
          | error stop =>
            rw [hwf] at hr2
            exact ReadsAtMost.after h1 hr2
          | ok w =>
            obtain ⟨w, q⟩ := w
            rw [hwf] at hr2
            have h3 : p ≤ q ∧ q ≤ p + fuel := hr2
            exact ⟨by omega, by omega⟩
      · rw [Bool.not_eq_true] at hb
        simp only [hb, Bool.false_eq_true, if_false] at h ⊢
        refine ⟨⟨by omega, by omega⟩, fun e' pos' he => ?_⟩
        cases he
        exact ⟨h, hb⟩

theorem Config.tableSize_codeTable (t : Nat) : Config.tableSize (Config.codeTable t) = Config.tableSize t := by
  have big : ∀ t, 16 ≤ t → Config.tableSize t = 16 := fun t h => by
    unfold Config.tableSize
    rw [List.getD_eq_default _ _ (by simpa using h)]
  unfold Config.codeTable
  split
  · rw [big 24 (by omega), big t (by omega)]
  · split
    · rw [big 16 (by omega), big t (by omega)]
    · rfl

theorem Config.tableSize_le (t : Nat) : Config.tableSize t ≤ 16 := by
  unfold Config.tableSize
  by_cases h : t < 16
  · interval_cases t <;> decide
  · rw [List.getD_eq_default _ _ (by simpa using h)]

/-- A table of the form of 30_encoding.md R123: its walks end inside it, and each of its leaves is accepted. -/
theorem Config.tableOk_iff {leafOk : Half → Bool} {ws : List Half} : Config.tableOk leafOk ws = true ↔
    Config.walkOk leafOk ws ws.length 0 = true ∧ ∀ e ∈ ws, e.getLsbD 15 = false → leafOk e = true := by
  simp only [Config.tableOk, Bool.and_eq_true, List.all_eq_true, Bool.or_eq_true]
  refine and_congr_right fun _ => forall₂_congr fun e _ => ?_
  cases e.getLsbD 15 <;> simp

/-- Every pair table of HTAB has the form of 30_encoding.md R123. -/
theorem Config.pairWords_tableOk (t : Nat) :
    Config.tableOk (Config.pairLeafOk (Config.tableSize t)) (Config.pairWords t) = true := by
  unfold Config.pairWords
  split
  · exact PairTable.table0.ok
  · exact PairTable.table1.ok
  · rw [← Config.tableSize_codeTable]
    exact PairTable.ok _

theorem Config.pairWords_ok (t : Nat) :
    Config.walkOk (Config.pairLeafOk (Config.tableSize t)) (Config.pairWords t) (Config.pairWords t).length 0 = true :=
  (Config.tableOk_iff.mp (Config.pairWords_tableOk t)).1

/-- Every pair table spells the code of its number, or of the table whose words it shares (30_encoding.md R123, R124). -/
theorem Config.pairWords_spells (t : Nat) :
    (Config.codeOf (Config.pairWords t)).Perm (Config.pairCode (Config.codeTable t)) := by
  unfold Config.pairWords
  split
  · exact PairTable.table0.spells
  · exact PairTable.table1.spells
  · exact PairTable.spells _

/-- Both quad tables have the form of 30_encoding.md R123. -/
theorem Config.quadWords_tableOk (b : Bool) : Config.tableOk Config.quadLeafOk (Config.quadWords b) = true := by
  cases b
  · exact QuadTable.tableA.ok
  · exact QuadTable.tableB.ok

theorem Config.quadWords_ok (b : Bool) :
    Config.walkOk Config.quadLeafOk (Config.quadWords b) (Config.quadWords b).length 0 = true :=
  (Config.tableOk_iff.mp (Config.quadWords_tableOk b)).1

/-- Tables A and B spell their codes (30_encoding.md R127). -/
theorem Config.quadWords_spells (b : Bool) : (Config.codeOf (Config.quadWords b)).Perm (Config.quadCode b) := by
  cases b
  · exact QuadTable.tableA.spells
  · exact QuadTable.tableB.spells

theorem Config.quadWords_length (b : Bool) : (Config.quadWords b).length = 31 := by cases b <;> rfl

theorem walk_pair_reads (m : Memory) (t pos : Nat) :
    ReadsAtMost m pos (Config.pairWords t).length (walk (Config.pairWords t) m pos) :=
  (walkFrom_reads m _ 0 pos (Config.pairWords_ok t)).1

theorem walk_pair_leaf {m : Memory} {t pos pos' : Nat} {e : Half} (h : walk (Config.pairWords t) m pos = .ok (e, pos')) :
    Config.pairLeafOk (Config.tableSize t) e = true ∧ e.getLsbD 15 = false :=
  (walkFrom_reads m _ 0 pos (Config.pairWords_ok t)).2 e pos' h

theorem walk_quad_reads (m : Memory) (b : Bool) (pos : Nat) : ReadsAtMost m pos 31 (walk (Config.quadWords b) m pos) := by
  have h := (walkFrom_reads m _ 0 pos (Config.quadWords_ok b)).1
  rw [Config.quadWords_length] at h
  rwa [walk, Config.quadWords_length]

theorem walk_quad_leaf {m : Memory} {b : Bool} {pos pos' : Nat} {e : Half}
    (h : walk (Config.quadWords b) m pos = .ok (e, pos')) : Config.quadLeafOk e = true ∧ e.getLsbD 15 = false :=
  (walkFrom_reads m _ 0 pos (Config.quadWords_ok b)).2 e pos' h

/-! ## Values -/

theorem signed_reads (m : Memory) (mag pos : Nat) : ReadsAtMost m pos 1 (signed m mag pos) := by
  unfold signed
  split
  · exact ⟨by omega, by omega⟩
  · have h := readBit_reads m pos
    cases hr : readBit m pos with
    | error stop => rw [hr] at h; exact h.stop le_rfl
    | ok bp => obtain ⟨b, p⟩ := bp; rw [hr] at h; exact h

theorem signed_natAbs {m : Memory} {mag pos pos' : Nat} {x : Int} (h : signed m mag pos = .ok (x, pos')) :
    x.natAbs = mag := by
  unfold signed at h
  split at h
  · rename_i h0; cases h; omega
  · split at h
    · cases h
    · rename_i b p _
      cases h
      cases b <;> simp

theorem Config.linbits_le (t : Nat) : Config.linbits t ≤ 13 := by
  unfold Config.linbits
  by_cases h : t < 32
  · interval_cases t <;> decide
  · rw [List.getD_eq_default _ _ (by simpa using h)]; omega

theorem pairValue_reads (m : Memory) (linbits mag pos : Nat) :
    ReadsAtMost m pos (linbits + 1) (pairValue m linbits mag pos) := by
  unfold pairValue
  split
  · have h := readBits_reads m linbits 0 pos
    cases hr : readBits m linbits 0 pos with
    | error stop => rw [hr] at h; exact h.stop (by omega)
    | ok vp =>
      obtain ⟨v, p⟩ := vp
      rw [hr] at h
      have h1 : pos ≤ p ∧ p ≤ pos + linbits := h
      have h2 := signed_reads m (15 + v) p
      simp only
      cases hs : signed m (15 + v) p with
      | error stop => rw [hs] at h2; exact ReadsAtMost.after h1 h2
      | ok xp =>
        obtain ⟨x, q⟩ := xp
        rw [hs] at h2
        have h3 : p ≤ q ∧ q ≤ p + 1 := h2
        exact ⟨by omega, by omega⟩
  · exact (signed_reads m mag pos).mono (by omega)

theorem pairValue_natAbs_le {m : Memory} {linbits mag pos pos' : Nat} {x : Int} (hl : linbits ≤ 13) (hm : mag ≤ 15)
    (h : pairValue m linbits mag pos = .ok (x, pos')) : x.natAbs ≤ 8206 := by
  unfold pairValue at h
  split at h
  · split at h
    · cases h
    · rename_i v p hv
      rw [signed_natAbs h]
      have h1 := readBits_lt hv
      have h2 : (2 : Nat) ^ linbits ≤ 2 ^ 13 := Nat.pow_le_pow_right (by omega) hl
      omega
  · rw [signed_natAbs h]; omega

theorem pairLeafOk_lt {size : Nat} {e : Half} (h : Config.pairLeafOk size e = true) :
    e.toNat < 256 ∧ e.toNat / 16 < size ∧ e.toNat % 16 < size := by
  simpa [Config.pairLeafOk, and_assoc] using h

/-- The most bits a pair of table `t` takes. -/
theorem decodePair_reads (m : Memory) (t pos : Nat) :
    ReadsAtMost m pos ((Config.pairWords t).length + 2 * (Config.linbits t + 1)) (decodePair m t pos) := by
  unfold decodePair
  have hw := walk_pair_reads m t pos
  cases h1 : walk (Config.pairWords t) m pos with
  | error stop => rw [h1] at hw; exact hw.stop (by omega)
  | ok ep =>
    obtain ⟨e, p⟩ := ep
    rw [h1] at hw
    have hw' : pos ≤ p ∧ p ≤ pos + (Config.pairWords t).length := hw
    simp only
    have hx := pairValue_reads m (Config.linbits t) (e.toNat / 16) p
    cases h2 : pairValue m (Config.linbits t) (e.toNat / 16) p with
    | error stop => rw [h2] at hx; exact ReadsAtMost.after hw' hx
    | ok xp =>
      obtain ⟨x, q⟩ := xp
      rw [h2] at hx
      have hx' : p ≤ q ∧ q ≤ p + (Config.linbits t + 1) := hx
      simp only
      have hy := pairValue_reads m (Config.linbits t) (e.toNat % 16) q
      cases h3 : pairValue m (Config.linbits t) (e.toNat % 16) q with
      | error stop =>
        rw [h3] at hy
        exact ReadsAtMost.after (n := (Config.pairWords t).length + (Config.linbits t + 1)) ⟨by omega, by omega⟩ hy
      | ok yp =>
        obtain ⟨y, r⟩ := yp
        rw [h3] at hy
        have hy' : q ≤ r ∧ r ≤ q + (Config.linbits t + 1) := hy
        exact ⟨by omega, by omega⟩

/-- A pair is two values of at most 8206 in magnitude. -/
theorem decodePair_values {m : Memory} {t pos pos' : Nat} {vals : List Int} (h : decodePair m t pos = .ok (vals, pos')) :
    vals.length = 2 ∧ ∀ v ∈ vals, v.natAbs ≤ 8206 := by
  unfold decodePair at h
  split at h
  · cases h
  · rename_i e p he
    split at h
    · cases h
    · rename_i x q hx
      split at h
      · cases h
      · rename_i y r hy
        cases h
        have hl := Config.linbits_le t
        have hs := pairLeafOk_lt (walk_pair_leaf he).1
        have hz := Config.tableSize_le t
        refine ⟨rfl, fun v hv => ?_⟩
        rcases List.mem_cons.mp hv with rfl | hv
        · exact pairValue_natAbs_le hl (by omega) hx
        · rcases List.mem_singleton.mp hv with rfl
          exact pairValue_natAbs_le hl (by omega) hy

/-! ## The loops -/

theorem decodePairs_reads (ops : Snapshot) (r1 r2 : Nat) (m : Memory) (n k pos bound : Nat)
    (hb : ∀ j, (Config.pairWords (ops.tableAt r1 r2 j)).length + 2 * (Config.linbits (ops.tableAt r1 r2 j) + 1) ≤ bound) :
    ReadsAtMost m pos (n * bound) (decodePairs ops r1 r2 m n k pos) := by
  induction n generalizing k pos with
  | zero => exact ⟨by omega, by omega⟩
  | succ n ih =>
    unfold decodePairs
    have h1 := (decodePair_reads m (ops.tableAt r1 r2 k) pos).mono (hb k)
    cases hp : decodePair m (ops.tableAt r1 r2 k) pos with
    | error stop =>
      rw [hp] at h1
      exact h1.stop (Nat.le_mul_of_pos_left _ (by omega))
    | ok xp =>
      obtain ⟨xy, p⟩ := xp
      rw [hp] at h1
      have h1' : pos ≤ p ∧ p ≤ pos + bound := h1
      have e : (n + 1) * bound = bound + n * bound := by ring
      have h2 := ih (k + 2) p
      simp only
      cases hr : decodePairs ops r1 r2 m n (k + 2) p with
      | error stop => rw [hr] at h2; exact ReadsAtMost.after h1' h2
      | ok rp =>
        obtain ⟨rest, q⟩ := rp
        rw [hr] at h2
        have h2' : p ≤ q ∧ q ≤ p + n * bound := h2
        exact ⟨by omega, by omega⟩

/-- `n` pairs are 2n values of at most 8206 in magnitude. -/
theorem decodePairs_values {ops : Snapshot} {r1 r2 : Nat} {m : Memory} {n k pos pos' : Nat} {vals : List Int}
    (h : decodePairs ops r1 r2 m n k pos = .ok (vals, pos')) :
    vals.length = 2 * n ∧ ∀ v ∈ vals, v.natAbs ≤ 8206 := by
  induction n generalizing k pos vals with
  | zero => cases h; simp
  | succ n ih =>
    unfold decodePairs at h
    split at h
    · cases h
    · rename_i xy p hp
      split at h
      · cases h
      · rename_i rest q hr
        cases h
        have h1 := decodePair_values hp
        have h2 := ih hr
        refine ⟨by simp [h1.1, h2.1]; ring, fun v hv => ?_⟩
        rcases List.mem_append.mp hv with hv | hv
        · exact h1.2 v hv
        · exact h2.2 v hv

theorem quadValues_reads (m : Memory) (bs : List Bool) (pos : Nat) :
    ReadsAtMost m pos bs.length (quadValues m bs pos) := by
  induction bs generalizing pos with
  | nil => exact ⟨by omega, by omega⟩
  | cons b bs ih =>
    unfold quadValues
    have h1 := signed_reads m b.toNat pos
    cases hs : signed m b.toNat pos with
    | error stop => rw [hs] at h1; exact h1.stop (by simp)
    | ok xp =>
      obtain ⟨x, p⟩ := xp
      rw [hs] at h1
      have h1' : pos ≤ p ∧ p ≤ pos + 1 := h1
      have h2 := ih p
      simp only
      have e : (b :: bs).length = 1 + bs.length := by simp; omega
      cases hr : quadValues m bs p with
      | error stop => rw [hr] at h2; exact ReadsAtMost.after h1' h2
      | ok rp =>
        obtain ⟨rest, q⟩ := rp
        rw [hr] at h2
        have h2' : p ≤ q ∧ q ≤ p + bs.length := h2
        exact ⟨by omega, by omega⟩

theorem quadValues_values {m : Memory} {bs : List Bool} {pos pos' : Nat} {vals : List Int}
    (h : quadValues m bs pos = .ok (vals, pos')) : vals.length = bs.length ∧ ∀ v ∈ vals, v.natAbs ≤ 1 := by
  induction bs generalizing pos vals with
  | nil => cases h; simp
  | cons b bs ih =>
    unfold quadValues at h
    split at h
    · cases h
    · rename_i x p hs
      split at h
      · cases h
      · rename_i rest q hr
        cases h
        have h2 := ih hr
        refine ⟨by simp [h2.1], fun v hv => ?_⟩
        rcases List.mem_cons.mp hv with rfl | hv
        · rw [signed_natAbs hs]; cases b <;> simp
        · exact h2.2 v hv

theorem decodeQuad_reads (m : Memory) (c1sel : Bool) (pos : Nat) : ReadsAtMost m pos 35 (decodeQuad m c1sel pos) := by
  unfold decodeQuad
  have h1 := walk_quad_reads m c1sel pos
  cases hw : walk (Config.quadWords c1sel) m pos with
  | error stop => rw [hw] at h1; exact h1.stop (by omega)
  | ok ep =>
    obtain ⟨e, p⟩ := ep
    rw [hw] at h1
    have h1' : pos ≤ p ∧ p ≤ pos + 31 := h1
    have h2 : ReadsAtMost m p 4 (quadValues m [e.getLsbD 3, e.getLsbD 2, e.getLsbD 1, e.getLsbD 0] p) :=
      quadValues_reads m [e.getLsbD 3, e.getLsbD 2, e.getLsbD 1, e.getLsbD 0] p
    simp only
    cases hr : quadValues m [e.getLsbD 3, e.getLsbD 2, e.getLsbD 1, e.getLsbD 0] p with
    | error stop => rw [hr] at h2; exact ReadsAtMost.after h1' h2
    | ok rp =>
      obtain ⟨rest, q⟩ := rp
      rw [hr] at h2
      have h2' : p ≤ q ∧ q ≤ p + 4 := h2
      exact ⟨by omega, by omega⟩

/-- A quad is four values of at most 1 in magnitude. -/
theorem decodeQuad_values {m : Memory} {c1sel : Bool} {pos pos' : Nat} {vals : List Int}
    (h : decodeQuad m c1sel pos = .ok (vals, pos')) : vals.length = 4 ∧ ∀ v ∈ vals, v.natAbs ≤ 1 := by
  unfold decodeQuad at h
  split at h
  · cases h
  · exact quadValues_values h

theorem decodeQuads_reads (m : Memory) (c1sel : Bool) (endPos fuel idx pos : Nat) :
    ReadsAtMost m pos (fuel * 35) (decodeQuads m c1sel endPos fuel idx pos) := by
  induction fuel generalizing idx pos with
  | zero => exact ⟨by omega, by omega⟩
  | succ fuel ih =>
    unfold decodeQuads
    split
    · have h1 := decodeQuad_reads m c1sel pos
      cases hq : decodeQuad m c1sel pos with
      | error stop => rw [hq] at h1; exact h1.stop (by omega)
      | ok xp =>
        obtain ⟨vals, p⟩ := xp
        rw [hq] at h1
        have h1' : pos ≤ p ∧ p ≤ pos + 35 := h1
        have h2 := ih (idx + 4) p
        simp only
        cases hr : decodeQuads m c1sel endPos fuel (idx + 4) p with
        | error stop => rw [hr] at h2; exact ReadsAtMost.after h1' h2
        | ok rp =>
          obtain ⟨rest, q⟩ := rp
          rw [hr] at h2
          have h2' : p ≤ q ∧ q ≤ p + fuel * 35 := h2
          exact ⟨by omega, by omega⟩
    · exact ⟨by omega, by omega⟩

/-- The count1 loop answers whole quads of values of at most 1 in magnitude, the last begun below coefficient 576. -/
theorem decodeQuads_values {m : Memory} {c1sel : Bool} {endPos fuel idx pos pos' : Nat} {vals : List Int}
    (h : decodeQuads m c1sel endPos fuel idx pos = .ok (vals, pos')) :
    vals.length % 4 = 0 ∧ (∀ v ∈ vals, v.natAbs ≤ 1) ∧ (vals ≠ [] → idx + vals.length < 580) := by
  induction fuel generalizing idx pos vals with
  | zero => cases h; simp
  | succ fuel ih =>
    unfold decodeQuads at h
    split at h
    · rename_i hc
      split at h
      · cases h
      · rename_i q p hq
        split at h
        · cases h
        · rename_i rest p' hr
          cases h
          have h1 := decodeQuad_values hq
          have h2 := ih hr
          refine ⟨by simp [h1.1, h2.1], fun v hv => ?_, fun _ => ?_⟩
          · rcases List.mem_append.mp hv with hv | hv
            · exact h1.2 v hv
            · exact h2.2.1 v hv
          · by_cases hn : rest = []
            · simp [hn, h1.1]; omega
            · have := h2.2.2 hn
              simp [h1.1]; omega
    · cases h; simp

/-! ## HUFF reads MDB and its operands alone -/

/-- Two memories that agree on MDB. -/
def AgreeMdb (m m' : Memory) : Prop := ∀ a, a < 4096 → m.get (mdbAddr a) = m'.get (mdbAddr a)

theorem readBit_congr {m m' : Memory} (h : AgreeMdb m m') (pos : Nat) : readBit m pos = readBit m' pos := by
  unfold readBit
  split
  · rfl
  · rename_i hp
    simp only [Config.mdbBits] at hp
    rw [h (pos / 8) (by omega)]

theorem readBits_congr {m m' : Memory} (h : AgreeMdb m m') (n v pos : Nat) : readBits m n v pos = readBits m' n v pos := by
  induction n generalizing v pos with
  | zero => rfl
  | succ n ih => simp only [readBits, readBit_congr h, ih]

theorem walkFrom_congr {m m' : Memory} (h : AgreeMdb m m') (ws : List Half) (fuel i pos : Nat) :
    walkFrom ws m fuel i pos = walkFrom ws m' fuel i pos := by
  induction fuel generalizing i pos with
  | zero => rfl
  | succ fuel ih => simp only [walkFrom, readBit_congr h, ih]

theorem walk_congr {m m' : Memory} (h : AgreeMdb m m') (ws : List Half) (pos : Nat) : walk ws m pos = walk ws m' pos :=
  walkFrom_congr h ws _ _ _

theorem signed_congr {m m' : Memory} (h : AgreeMdb m m') (mag pos : Nat) : signed m mag pos = signed m' mag pos := by
  simp only [signed, readBit_congr h]

theorem pairValue_congr {m m' : Memory} (h : AgreeMdb m m') (linbits mag pos : Nat) :
    pairValue m linbits mag pos = pairValue m' linbits mag pos := by
  simp only [pairValue, readBits_congr h, signed_congr h]

theorem decodePair_congr {m m' : Memory} (h : AgreeMdb m m') (t pos : Nat) : decodePair m t pos = decodePair m' t pos := by
  simp only [decodePair, walk_congr h, pairValue_congr h]

theorem decodePairs_congr {m m' : Memory} (h : AgreeMdb m m') {ops ops' : Snapshot}
    (ht : ∀ r1 r2 k, ops.tableAt r1 r2 k = ops'.tableAt r1 r2 k) (r1 r2 n k pos : Nat) :
    decodePairs ops r1 r2 m n k pos = decodePairs ops' r1 r2 m' n k pos := by
  induction n generalizing k pos with
  | zero => rfl
  | succ n ih => simp only [decodePairs, decodePair_congr h, ht, ih]

theorem quadValues_congr {m m' : Memory} (h : AgreeMdb m m') (bs : List Bool) (pos : Nat) :
    quadValues m bs pos = quadValues m' bs pos := by
  induction bs generalizing pos with
  | nil => rfl
  | cons b bs ih => simp only [quadValues, signed_congr h, ih]

theorem decodeQuad_congr {m m' : Memory} (h : AgreeMdb m m') (c1sel : Bool) (pos : Nat) :
    decodeQuad m c1sel pos = decodeQuad m' c1sel pos := by
  simp only [decodeQuad, walk_congr h, quadValues_congr h]

theorem decodeQuads_congr {m m' : Memory} (h : AgreeMdb m m') (c1sel : Bool) (endPos fuel idx pos : Nat) :
    decodeQuads m c1sel endPos fuel idx pos = decodeQuads m' c1sel endPos fuel idx pos := by
  induction fuel generalizing idx pos with
  | zero => rfl
  | succ fuel ih => simp only [decodeQuads, decodeQuad_congr h, ih]

/-! ## The outcomes of HUFF -/

theorem pairBound_le_of_tableAt (ops : Snapshot) (r1 r2 k : Nat) :
    (Config.pairWords (ops.tableAt r1 r2 k)).length + 2 * (Config.linbits (ops.tableAt r1 r2 k) + 1) ≤
      max (pairBound ops.ts0) (max (pairBound ops.ts1) (pairBound ops.ts2)) := by
  have e : ∀ t, (Config.pairWords t).length + 2 * (Config.linbits t + 1) = pairBound t := fun t => rfl
  rw [e]
  unfold Snapshot.tableAt
  split
  · exact le_max_left _ _
  · split
    · exact le_max_of_le_right (le_max_left _ _)
    · exact le_max_of_le_right (le_max_right _ _)

/-- Everything HUFF's decoding can answer: the empty granule, one of its three errors in their order (60_exceptions.md
R316), a byte of MDB that nothing has written, or the result of both loops. -/
theorem huffDecode_cases (slack : Nat) (ops : Snapshot) (m : Memory) :
    (ops.part23Len = 0 ∧ huffDecode slack ops m = .ok (emptyGranule ops)) ∨
      (ops.part23Len ≠ 0 ∧ ops.regions = none ∧ huffDecode slack ops m = .error (.error .badSfb)) ∨
      ∃ r1 r2, ops.part23Len ≠ 0 ∧ ops.regions = some (r1, r2) ∧
        ((ops.tablesOk r1 r2 = false ∧ huffDecode slack ops m = .error (.error .badTable)) ∨
          (ops.tablesOk r1 r2 = true ∧
            ((huffDecode slack ops m = .error (.error .mdbRange) ∧ 32768 < ops.pos + ops.readBound) ∨
              (huffDecode slack ops m = .error (.fault .unwrittenRead) ∧ ∃ a, a < 4096 ∧ m.get (mdbAddr a) = none) ∨
              ∃ pv pp qv qp, decodePairs ops r1 r2 m ops.bv 0 ops.pos = .ok (pv, pp) ∧
                decodeQuads m ops.c1sel ops.endPos 144 (2 * ops.bv) pp = .ok (qv, qp) ∧
                huffDecode slack ops m = .ok (huffResult slack ops r1 r2 pv pp qv qp)))) := by
  unfold huffDecode
  by_cases h0 : ops.part23Len = 0
  · exact .inl ⟨h0, by rw [if_pos h0]⟩
  · rw [if_neg h0]
    cases hr : ops.regions with
    | none => exact .inr (.inl ⟨h0, rfl, rfl⟩)
    | some rr =>
      obtain ⟨r1, r2⟩ := rr
      refine .inr (.inr ⟨r1, r2, h0, rfl, ?_⟩)
      simp only
      cases ht : ops.tablesOk r1 r2 with
      | false => exact .inl ⟨rfl, rfl⟩
      | true =>
        refine .inr ⟨rfl, ?_⟩
        simp only [if_true]
        have hb : ops.readBound =
          ops.bv * max (pairBound ops.ts0) (max (pairBound ops.ts1) (pairBound ops.ts2)) + 144 * 35 := rfl
        have hp := decodePairs_reads ops r1 r2 m ops.bv 0 ops.pos _ (pairBound_le_of_tableAt ops r1 r2)
        generalize ops.bv * max (pairBound ops.ts0) (max (pairBound ops.ts1) (pairBound ops.ts2)) = bound at hb hp
        cases h1 : decodePairs ops r1 r2 m ops.bv 0 ops.pos with
        | error stop =>
          rw [h1] at hp
          rcases hp with ⟨rfl, h⟩ | ⟨rfl, h⟩
          · exact .inl ⟨rfl, by omega⟩
          · exact .inr (.inl ⟨rfl, h⟩)
        | ok vp =>
          obtain ⟨pv, pp⟩ := vp
          rw [h1] at hp
          have hp' : ops.pos ≤ pp ∧ pp ≤ ops.pos + bound := hp
          have hq := decodeQuads_reads m ops.c1sel ops.endPos 144 (2 * ops.bv) pp
          simp only
          cases h2 : decodeQuads m ops.c1sel ops.endPos 144 (2 * ops.bv) pp with
          | error stop =>
            rw [h2] at hq
            rcases hq with ⟨rfl, h⟩ | ⟨rfl, h⟩
            · exact .inl ⟨rfl, by omega⟩
            · exact .inr (.inl ⟨rfl, h⟩)
          | ok wp =>
            obtain ⟨qv, qp⟩ := wp
            exact .inr (.inr ⟨pv, pp, qv, qp, rfl, h2, rfl⟩)

/-! ## The spectrum in IS -/

theorem zeroFilled_length {vals : List Int} {nz : Nat} (h1 : nz ≤ 576) (h2 : nz ≤ vals.length) :
    (zeroFilled vals nz).length = 576 := by
  simp only [zeroFilled, List.length_append, List.length_take, List.length_replicate]
  omega

theorem zeroFilled_getElem? {vals : List Int} {nz : Nat} (h2 : nz ≤ vals.length) (k : Nat) :
    (k < nz → (zeroFilled vals nz)[k]? = vals[k]?) ∧ (nz ≤ k → k < 576 → (zeroFilled vals nz)[k]? = some 0) := by
  have hl : (vals.take nz).length = nz := by rw [List.length_take]; omega
  refine ⟨fun h => ?_, fun h1 h3 => ?_⟩
  · rw [zeroFilled, List.getElem?_append_left (by omega), List.getElem?_take, if_pos h]
  · rw [zeroFilled, List.getElem?_append_right (by omega), hl, List.getElem?_replicate, if_pos (by omega)]

/-- Both loops together always give at least the values that are kept. -/
theorem huffResult_nz_le {slack : Nat} {ops : Snapshot} {r1 r2 : Nat} {pv qv : List Int} {pp qp : Nat} (h1 : pv.length = 2 * ops.bv)
    (h2 : qv.length % 4 = 0) :
    (huffResult slack ops r1 r2 pv pp qv qp).nz ≤ 576 ∧ (huffResult slack ops r1 r2 pv pp qv qp).nz ≤ (pv ++ qv).length := by
  simp only [huffResult, List.length_append]
  split <;> omega

/-- Both regions decoded, HUFF's result is the one of R167 to R170 of 40_huffman.md. -/
theorem huffDecode_ok {slack : Nat} {ops : Snapshot} {m : Memory} {r1 r2 : Nat} {pv qv : List Int} {pp qp : Nat}
    (h0 : ops.part23Len ≠ 0) (hr : ops.regions = some (r1, r2)) (ht : ops.tablesOk r1 r2 = true)
    (hp : decodePairs ops r1 r2 m ops.bv 0 ops.pos = .ok (pv, pp))
    (hq : decodeQuads m ops.c1sel ops.endPos 144 (2 * ops.bv) pp = .ok (qv, qp)) :
    huffDecode slack ops m = .ok (huffResult slack ops r1 r2 pv pp qv qp) := by
  unfold huffDecode
  rw [if_neg h0, hr]
  simp only [ht, hp, hq, if_true]

/-- A rollback: a quad was decoded and the cursor is past the end by more than the slack (40_huffman.md R167). -/
theorem huffResult_rollback {slack : Nat} {ops : Snapshot} {r1 r2 : Nat} {pv qv : List Int} {pp qp : Nat}
    (hm : qv.length % 4 = 0) :
    (huffResult slack ops r1 r2 pv pp qv qp).rollback = true ↔ qv ≠ [] ∧ ops.endPos + slack < qp := by
  have h : 0 < qv.length / 4 ↔ qv ≠ [] := by rw [← List.length_pos_iff]; omega
  simp only [huffResult, rollsBack, Bool.and_eq_true, decide_eq_true_eq, h]
  exact and_comm

/-- The values kept: all of them, or all but the last quad's (40_huffman.md R168). -/
theorem huffResult_nz {slack : Nat} {ops : Snapshot} {r1 r2 : Nat} {pv qv : List Int} {pp qp : Nat} (hm : qv.length % 4 = 0) :
    (huffResult slack ops r1 r2 pv pp qv qp).nz = min (2 * ops.bv + qv.length -
      (if (huffResult slack ops r1 r2 pv pp qv qp).rollback then 4 else 0)) 576 := by
  simp only [huffResult]
  by_cases hb : rollsBack slack qp ops.endPos (qv.length / 4) = true
  · have h : 0 < qv.length / 4 := by
      simp only [rollsBack, Bool.and_eq_true, decide_eq_true_eq] at hb
      exact hb.2
    simp only [hb, if_true]
    omega
  · simp only [hb, Bool.false_eq_true, if_false]
    omega

theorem spectrumBytes_length (vals : List Int) : (spectrumBytes vals).length = 2 * vals.length := by
  simp only [spectrumBytes, halfListBytes_length, List.length_map]

/-- A half read where a list of halves was stored. -/
theorem Memory.half_store (m : Memory) (lo : Nat) (hs : List Half) (k : Nat) (hk : k < hs.length) :
    (m.store lo (halfListBytes hs)).half (lo + 2 * k) = some hs[k] := by
  have hlen := halfListBytes_length hs
  have get : ∀ j (hj : j < 2),
      (m.store lo (halfListBytes hs)).get (lo + 2 * k + j) = some (hs[k].extractLsb' (8 * j) 8) := by
    intro j hj
    have hb : 2 * k + j < (halfListBytes hs).length := by omega
    have := Memory.get_store_inside m lo (halfListBytes hs) (2 * k + j) hb
    rw [halfListBytes_getElem hs k j hk hj hb, ← Nat.add_assoc] at this
    simpa using this
  have h0 := get 0 (by omega)
  rw [Nat.add_zero] at h0
  unfold Memory.half
  rw [h0, get 1 (by omega)]
  simp [halfOfBytes_bytes]

/-- IS[k] after HUFF stored a spectrum. -/
theorem spectrum_half (m : Memory) (vals : List Int) (k : Nat) (hk : k < vals.length) :
    (m.store (isAddr 0) (spectrumBytes vals)).half (isAddr k) = some (BitVec.ofInt 16 vals[k]) := by
  have := Memory.half_store m (isAddr 0) (vals.map (BitVec.ofInt 16)) k (by simpa using hk)
  have e : isAddr k = isAddr 0 + 2 * k := by simp only [isAddr]
  rw [e]
  rw [List.getElem_map] at this
  exact this

/-- What MDB_RANGE leaves of memory (60_exceptions.md R313). -/
theorem spectrumLost_forget (m : Memory) : SpectrumLost m (m.forget (isAddr 0) 1152) := by
  refine ⟨fun a h => ?_, fun a h => ?_⟩
  · have hb : 0x2000 ≤ a ∧ a < 0x2480 := by unfold region at h; split_ifs at h; omega
    rw [Memory.get_forget, if_pos (by unfold isAddr; omega), unlisted, h]
  · rw [Memory.get_forget, if_neg]
    intro hb
    apply h
    unfold isAddr at hb
    exact region_is (by omega) (by omega)

end Sys2Proof.Machine
end

