-- ==== Sys2Proof/Laws/Codewords.lean ====
section
/-! SUPPORT. Reading bits that MDB is known to hold: codewords of a table, sign bits, and the values of a symbol. -/

namespace Sys2Proof.Machine

theorem holdsBits_append {m : Memory} {pos : Nat} {as bs : List Bool} (h : HoldsBits m pos (as ++ bs)) :
    HoldsBits m pos as ∧ HoldsBits m (pos + as.length) bs := by
  refine ⟨fun j hj => ?_, fun j hj => ?_⟩
  · have := h j (by rw [List.length_append]; omega)
    rwa [List.getElem_append_left hj] at this
  · have := h (as.length + j) (by rw [List.length_append]; omega)
    rw [List.getElem_append_right (by omega)] at this
    simp only [Nat.add_sub_cancel_left, ← Nat.add_assoc] at this
    exact this

theorem holdsBits_cons {m : Memory} {pos : Nat} {b : Bool} {bs : List Bool} (h : HoldsBits m pos (b :: bs)) :
    readBit m pos = .ok (b, pos + 1) ∧ HoldsBits m (pos + 1) bs := by
  have h' := holdsBits_append (as := [b]) (bs := bs) h
  exact ⟨h'.1 0 (by simp), h'.2⟩

/-- MDB holds a list of bits where the first one is read at the cursor and the others are held after it. -/
theorem holdsBits_cons_iff {m : Memory} {pos : Nat} {b : Bool} {bs : List Bool} :
    HoldsBits m pos (b :: bs) ↔ readBit m pos = .ok (b, pos + 1) ∧ HoldsBits m (pos + 1) bs := by
  refine ⟨holdsBits_cons, fun ⟨h, h'⟩ j hj => ?_⟩
  cases j with
  | zero => exact h
  | succ j =>
    have := h' j (by simpa using hj)
    rw [show pos + (j + 1) = pos + 1 + j by omega]
    simpa using this

/-- A bit that is read is followed by the next position. -/
theorem readBit_next {m : Memory} {pos p : Nat} {b : Bool} (h : readBit m pos = .ok (b, p)) : p = pos + 1 := by
  unfold readBit at h
  split at h
  · cases h
  · split at h
    · cases h
    · cases h; rfl

/-- A walk answers a leaf exactly where MDB holds a codeword of it, and reads exactly its bits (30_encoding.md R122). -/
theorem walkFrom_iff (ws : List Half) (m : Memory) (e : Half) (pos' fuel i pos : Nat) :
    walkFrom ws m fuel i pos = .ok (e, pos') ↔
      ∃ w, (w, e) ∈ Config.codeFrom ws fuel i ∧ HoldsBits m pos w ∧ pos' = pos + w.length := by
  induction fuel generalizing i pos with
  | zero => simp [walkFrom, Config.codeFrom]
  | succ fuel ih =>
    unfold walkFrom Config.codeFrom
    cases ws[i]? with
    | none => simp
    | some e' =>
      by_cases h15 : e'.getLsbD 15 = true
      · simp only [h15, if_true, List.mem_append, List.mem_map, Prod.mk.injEq, Prod.exists]
        constructor
        · intro h
          cases hb : readBit m pos with
          | error stop => rw [hb] at h; cases h
          | ok bp =>
            obtain ⟨b, p⟩ := bp
            have hp := readBit_next hb
            subst hp
            rw [hb] at h
            obtain ⟨w, hw, hh, rfl⟩ := (ih _ _).mp h
            refine ⟨b :: w, ?_, holdsBits_cons_iff.mpr ⟨hb, hh⟩, by simp only [List.length_cons]; omega⟩
            cases b
            · exact .inl ⟨w, e, hw, rfl, rfl⟩
            · exact .inr ⟨w, e, hw, rfl, rfl⟩
        · rintro ⟨w, hw, hh, rfl⟩
          rcases hw with ⟨u, e₁, hu, rfl, rfl⟩ | ⟨u, e₁, hu, rfl, rfl⟩ <;>
          · obtain ⟨hb, ht⟩ := holdsBits_cons_iff.mp hh
            rw [hb]
            exact (ih _ _).mpr ⟨u, hu, ht, by simp only [List.length_cons]; omega⟩
      · simp only [h15, Bool.false_eq_true, if_false, Except.ok.injEq, Prod.mk.injEq, List.mem_singleton]
        constructor
        · rintro ⟨rfl, rfl⟩
          exact ⟨[], ⟨rfl, rfl⟩, fun j h => by simp at h, rfl⟩
        · rintro ⟨w, ⟨rfl, rfl⟩, -, rfl⟩
          exact ⟨rfl, rfl⟩

theorem walk_iff {ws : List Half} {m : Memory} {pos pos' : Nat} {e : Half} : walk ws m pos = .ok (e, pos') ↔
    ∃ w, (w, e) ∈ Config.codeOf ws ∧ HoldsBits m pos w ∧ pos' = pos + w.length := walkFrom_iff ..

theorem signBits_cons (x : Int) (xs : List Int) : signBits (x :: xs) = signBits [x] ++ signBits xs := by
  by_cases h : x = 0 <;> simp [signBits, h]

/-- Where MDB holds the sign bit of a value, the reader of its magnitude answers the value. -/
theorem signed_holds {m : Memory} {x : Int} {pos : Nat} (h : HoldsBits m pos (signBits [x])) :
    signed m x.natAbs pos = .ok (x, pos + (signBits [x]).length) := by
  by_cases hx : x = 0
  · subst hx; simp [signed, signBits]
  · have e : signBits [x] = [decide (x < 0)] := by simp [signBits, hx]
    rw [e] at h ⊢
    have hr := (holdsBits_cons h).1
    unfold signed
    rw [if_neg (by omega), hr]
    simp only [List.length_cons, List.length_nil, Except.ok.injEq, Prod.mk.injEq, and_true, decide_eq_true_eq]
    split <;> omega

/-- The same for the values of a quad. -/
theorem quadValues_holds {m : Memory} {xs : List Int} {bs : List Bool} {pos : Nat}
    (hb : bs.map Bool.toNat = xs.map Int.natAbs) (h : HoldsBits m pos (signBits xs)) :
    quadValues m bs pos = .ok (xs, pos + (signBits xs).length) := by
  induction xs generalizing bs pos with
  | nil =>
    have : bs = [] := by simpa using hb
    subst this
    simp [quadValues, signBits]
  | cons x xs ih =>
    cases bs with
    | nil => simp at hb
    | cons b bs =>
      simp only [List.map_cons, List.cons.injEq] at hb
      rw [signBits_cons] at h ⊢
      obtain ⟨h1, h2⟩ := holdsBits_append h
      unfold quadValues
      rw [hb.1, signed_holds h1]
      simp only [ih hb.2 h2, List.length_append, Nat.add_assoc]

/-- A bit of MDB: bit 7 - (pos mod 8) of byte pos div 8 (20_memory.md R85). -/
theorem readBit_at {m : Memory} {pos : Nat} {b : Byte} (hp : pos < 32768) (hb : m.get (0x1000 + pos / 8) = some b) :
    readBit m pos = .ok (b.getLsbD (7 - pos % 8), pos + 1) := by
  unfold readBit
  rw [if_neg (by unfold Config.mdbBits; omega), show mdbAddr (pos / 8) = 0x1000 + pos / 8 from rfl, hb]

theorem readBit_past {m : Memory} {pos : Nat} (hp : 32768 ≤ pos) : readBit m pos = .error (.error .mdbRange) := by
  unfold readBit
  rw [if_pos (by unfold Config.mdbBits; omega)]

theorem bitsMsb_length (n v : Nat) : (bitsMsb n v).length = n := by
  induction n with
  | zero => rfl
  | succ n ih => rw [bitsMsb, List.length_cons, ih]

/-- Where MDB holds the bits of a number, most significant first, reading them appends the number. -/
theorem readBits_holds {m : Memory} {n v w pos : Nat} (h : HoldsBits m pos (bitsMsb n w)) (hw : w < 2 ^ n) :
    readBits m n v pos = .ok (v * 2 ^ n + w, pos + n) := by
  have key : ∀ (n v pos : Nat), HoldsBits m pos (bitsMsb n w) → readBits m n v pos = .ok (v * 2 ^ n + w % 2 ^ n, pos + n) := by
    intro n
    induction n with
    | zero => intro v pos _; simp [readBits, Nat.mod_one]
    | succ n ih =>
      intro v pos h
      obtain ⟨h1, h2⟩ := holdsBits_cons h
      unfold readBits
      rw [h1]
      simp only
      rw [ih _ _ h2]
      have hb := Nat.mod_pow_succ (x := w) (b := 2) (k := n)
      have ht : (w.testBit n).toNat = w / 2 ^ n % 2 := by
        rw [Nat.testBit_eq_decide_div_mod_eq]
        rcases Nat.mod_two_eq_zero_or_one (w / 2 ^ n) with h | h <;> simp [h]
      rw [ht, hb, pow_succ, Nat.add_assoc, Nat.add_comm 1 n]
      congr 2
      ring
  rw [key n v pos h, Nat.mod_eq_of_lt hw]

theorem bitsMsb_append_holds {m : Memory} {pos n w : Nat} {bs : List Bool} (h : HoldsBits m pos (bitsMsb n w ++ bs)) :
    HoldsBits m pos (bitsMsb n w) ∧ HoldsBits m (pos + n) bs := by
  have := holdsBits_append h
  rwa [bitsMsb_length] at this

/-- A magnitude that is not 0, with its sign bit after it. -/
theorem signed_bit {m : Memory} {mag pos : Nat} {negative : Bool} (hm : mag ≠ 0) (h : HoldsBits m pos [negative]) :
    signed m mag pos = .ok (if negative then -(mag : Int) else (mag : Int), pos + 1) := by
  unfold signed
  rw [if_neg hm, (holdsBits_cons h).1]

/-- A pair of table 0, whose only leaf is 0, takes no bit (40_huffman.md R159). -/
theorem decodePair_table0 (m : Memory) (pos : Nat) : decodePair m 0 pos = .ok ([0, 0], pos) := rfl

end Sys2Proof.Machine
end

