-- ==== Sys2Proof/Laws/Float.lean ====
section
/-! SUPPORT. The value of a binary32 encoding, and what one rounding answers: the nearest whole number of quanta, the even
one on a tie, and the encoding of it. -/

namespace Sys2Proof.F32

/-- The magnitude, in units of 2^-149, of an encoding without its sign. -/
def magOf (p : Nat) : Nat := if p / 2 ^ 23 = 0 then p else (2 ^ 23 + p % 2 ^ 23) * 2 ^ (p / 2 ^ 23 - 1)

theorem magUnits_eq (w : Word) : magUnits w = magOf (w.toNat % 2 ^ 31) := by
  have he : w.toNat % 2 ^ 31 / 2 ^ 23 = expo w := by unfold expo; omega
  have hf : w.toNat % 2 ^ 31 % 2 ^ 23 = frac w := by unfold frac; omega
  unfold magUnits magOf
  rw [he, hf]
  split
  · unfold expo frac at *; omega
  · rw [Nat.shiftLeft_eq]

theorem isFinite_iff (w : Word) : isFinite w = true ↔ w.toNat % 2 ^ 31 < infPattern := by
  unfold isFinite expo infPattern
  rw [decide_eq_true_iff]
  omega

theorem withSign_toNat (neg : Bool) {p : Nat} (h : p < 2 ^ 31) : (withSign neg p).toNat = p + 2 ^ 31 * neg.toNat := by
  unfold withSign
  rw [BitVec.toNat_ofNat]
  have : neg.toNat ≤ 1 := Bool.toNat_le neg
  omega

theorem withSign_mod (neg : Bool) {p : Nat} (h : p < 2 ^ 31) : (withSign neg p).toNat % 2 ^ 31 = p := by
  rw [withSign_toNat neg h]
  omega

theorem sign_eq (w : Word) : sign w = decide (2 ^ 31 ≤ w.toNat) := by
  unfold sign
  rw [BitVec.getLsbD, Nat.testBit_eq_decide_div_mod_eq, decide_eq_decide]
  have := w.isLt
  omega

theorem sign_withSign (neg : Bool) {p : Nat} (h : p < 2 ^ 31) : sign (withSign neg p) = neg := by
  rw [sign_eq, withSign_toNat neg h]
  cases neg <;> simp; omega

theorem units_withSign (neg : Bool) {p : Nat} (h : p < 2 ^ 31) :
    units (withSign neg p) = if neg then -(magOf p : Int) else magOf p := by
  unfold units
  rw [sign_withSign neg h, magUnits_eq, withSign_mod neg h]

/-- A word is its sign over its encoding without the sign. -/
theorem withSign_self (w : Word) : withSign (sign w) (w.toNat % 2 ^ 31) = w := by
  apply BitVec.eq_of_toNat_eq
  rw [withSign_toNat _ (Nat.mod_lt _ (by norm_num)), sign_eq]
  have := w.isLt
  by_cases h : 2 ^ 31 ≤ w.toNat
  · rw [decide_eq_true h, Bool.toNat_true]; omega
  · rw [decide_eq_false h, Bool.toNat_false]; omega

theorem infPattern_lt : infPattern < 2 ^ 31 := by decide

/-- `roundQuot` is the nearest whole number to m / 2^q, and even where two are as near. -/
theorem roundQuot_spec (m q : Nat) :
    2 * (roundQuot m q * 2 ^ q) ≤ 2 * m + 2 ^ q ∧ 2 * m ≤ 2 * (roundQuot m q * 2 ^ q) + 2 ^ q ∧
      (2 * (roundQuot m q * 2 ^ q) = 2 * m + 2 ^ q ∨ 2 * m = 2 * (roundQuot m q * 2 ^ q) + 2 ^ q →
        roundQuot m q % 2 = 0) := by
  have hdm := Nat.div_add_mod m (2 ^ q)
  have hlt := Nat.mod_lt m (Nat.two_pow_pos q)
  have e : m - (m / 2 ^ q) * 2 ^ q = m % 2 ^ q := by rw [Nat.mul_comm]; omega
  simp only [roundQuot, Nat.shiftRight_eq_div_pow, Nat.shiftLeft_eq, Nat.one_mul, e]
  generalize hu : 2 ^ q = u at *
  generalize m / u = r at *
  generalize m % u = f at *
  have h1 : (r + 1) * u = u * r + u := by ring
  have h2 : r * u = u * r := by ring
  have h3 : (r + r % 2) * u = u * r + (r % 2) * u := by ring
  split_ifs with ha hb
  · rw [h1]; refine ⟨by omega, by omega, fun h => by omega⟩
  · rw [h3]
    rcases Nat.mod_two_eq_zero_or_one r with hr | hr
    · rw [hr, Nat.zero_mul]; refine ⟨by omega, by omega, fun _ => by omega⟩
    · rw [hr, Nat.one_mul]; refine ⟨by omega, by omega, fun _ => by omega⟩
  · rw [h2]; refine ⟨by omega, by omega, fun h => by omega⟩

theorem roundQuot_exact (n q : Nat) : roundQuot (n * 2 ^ q) q = n := by
  have h := roundQuot_spec (n * 2 ^ q) q
  have hp := Nat.two_pow_pos q
  obtain ⟨h1, h2, h3⟩ := h
  generalize hr : roundQuot (n * 2 ^ q) q = r at *
  rcases Nat.lt_trichotomy r n with h | h | h
  · have : (r + 1) * 2 ^ q ≤ n * 2 ^ q := Nat.mul_le_mul_right _ h
    have e : (r + 1) * 2 ^ q = r * 2 ^ q + 2 ^ q := by ring
    omega
  · exact h
  · have : (n + 1) * 2 ^ q ≤ r * 2 ^ q := Nat.mul_le_mul_right _ h
    have e : (n + 1) * 2 ^ q = n * 2 ^ q + 2 ^ q := by ring
    omega

/-- A whole number of quanta below 2^24, and the encoding it has: the exponent field is `d` above the one the number
itself takes. -/
theorem magOf_quanta (d r : Nat) (h1 : r ≤ 2 ^ 24) (h2 : d = 0 ∨ 2 ^ 23 ≤ r) : magOf (d * 2 ^ 23 + r) = r * 2 ^ d := by
  unfold magOf
  rcases Nat.lt_or_ge r (2 ^ 23) with hr | hr
  · have hd : d = 0 := by omega
    subst hd
    rw [if_pos (by omega)]; simp
  · rcases Nat.lt_or_ge r (2 ^ 24) with hr2 | hr2
    · have e1 : (d * 2 ^ 23 + r) / 2 ^ 23 = d + 1 := by omega
      have e2 : (d * 2 ^ 23 + r) % 2 ^ 23 = r - 2 ^ 23 := by omega
      rw [e1, e2, if_neg (by omega), Nat.add_sub_cancel, show 2 ^ 23 + (r - 2 ^ 23) = r by omega]
    · have hr3 : r = 2 ^ 24 := by omega
      subst hr3
      have e1 : (d * 2 ^ 23 + 2 ^ 24) / 2 ^ 23 = d + 2 := by omega
      have e2 : (d * 2 ^ 23 + 2 ^ 24) % 2 ^ 23 = 0 := by omega
      rw [e1, e2, if_neg (by omega), show d + 2 - 1 = d + 1 by omega, Nat.add_zero, pow_succ]
      ring

/-- The quantum's exponent `q` of a rounding: the least one, or the one that leaves 24 significant bits; and the encoding
from the rounded quotient. -/
theorem roundMag_quantum (m k : Nat) :
    ∃ q, k ≤ q ∧ (q = k ∨ 2 ^ (q + 23) ≤ m) ∧ m < 2 ^ (q + 24) ∧ roundQuot m q ≤ 2 ^ 24 ∧
      (q - k = 0 ∨ 2 ^ 23 ≤ roundQuot m q) ∧
      roundMag m k = if infPattern ≤ (q - k) * 2 ^ 23 + roundQuot m q then infPattern
        else (q - k) * 2 ^ 23 + roundQuot m q := by
  have hle : m < 2 ^ (max k (Nat.log2 m - 23) + 24) := by
    have := Nat.lt_log2_self (n := m)
    refine this.trans_le (Nat.pow_le_pow_right (by omega) ?_)
    have := le_max_right k (Nat.log2 m - 23)
    omega
  have hge : max k (Nat.log2 m - 23) = k ∨ 2 ^ (max k (Nat.log2 m - 23) + 23) ≤ m := by
    rcases Nat.le_total (Nat.log2 m - 23) k with h | h
    · exact .inl (max_eq_left h)
    · rw [max_eq_right h]
      rcases Nat.lt_or_ge (Nat.log2 m) 23 with h23 | h23
      · left; omega
      · right
        rw [Nat.sub_add_cancel h23]
        refine Nat.log2_self_le ?_
        rintro rfl
        simp at h23
  refine ⟨max k (Nat.log2 m - 23), le_max_left _ _, hge, hle, ?_, ?_, rfl⟩
  all_goals
    generalize max k (Nat.log2 m - 23) = q at *
    have hspec := roundQuot_spec m q
    have hp := Nat.two_pow_pos q
    have e24 : 2 ^ (q + 24) = 2 ^ 24 * 2 ^ q := by rw [pow_add]; ring
    have e23 : 2 ^ (q + 23) = 2 ^ 23 * 2 ^ q := by rw [pow_add]; ring
  · by_contra hc
    have : (2 ^ 24 + 1) * 2 ^ q ≤ roundQuot m q * 2 ^ q := Nat.mul_le_mul_right _ (by omega)
    have e : (2 ^ 24 + 1) * 2 ^ q = 2 ^ 24 * 2 ^ q + 2 ^ q := by ring
    omega
  · rcases hge with h | h
    · left; omega
    · right
      by_contra hc
      have : roundQuot m q * 2 ^ q ≤ (2 ^ 23 - 1) * 2 ^ q := Nat.mul_le_mul_right _ (by omega)
      have e : (2 ^ 23 - 1) * 2 ^ q + 2 ^ q = 2 ^ 23 * 2 ^ q := by ring
      omega

/-- One rounding to a finite value: the encoding's magnitude is the rounded quotient times the quantum. -/
theorem roundMag_spec (m k : Nat) (hfin : roundMag m k < infPattern) :
    ∃ q, k ≤ q ∧ (q = k ∨ 2 ^ (q + 23) ≤ m) ∧ m < 2 ^ (q + 24) ∧
      magOf (roundMag m k) = roundQuot m q * 2 ^ (q - k) ∧ roundMag m k % 2 = roundQuot m q % 2 := by
  obtain ⟨q, hk, hge, hle, hr, hr2, he⟩ := roundMag_quantum m k
  have hlt : ¬ infPattern ≤ (q - k) * 2 ^ 23 + roundQuot m q := by
    intro h
    rw [he, if_pos h] at hfin
    exact Nat.lt_irrefl _ hfin
  rw [he, if_neg hlt]
  exact ⟨q, hk, hge, hle, magOf_quanta _ _ hr hr2, by omega⟩

/-- A rounding overflows exactly from the midpoint above the largest finite value on. -/
theorem roundMag_overflow (m k : Nat) : roundMag m k = infPattern ↔ (2 ^ 25 - 1) * 2 ^ (252 + k) ≤ m := by
  obtain ⟨q, hk, hge, hle, hr, hr2, he⟩ := roundMag_quantum m k
  have hi : infPattern = 255 * 2 ^ 23 := by decide
  have hinf : roundMag m k = infPattern ↔ 255 * 2 ^ 23 ≤ (q - k) * 2 ^ 23 + roundQuot m q := by
    rw [he, hi]
    split <;> omega
  rw [hinf]
  have hp := Nat.two_pow_pos (252 + k)
  have hspec := roundQuot_spec m q
  rcases Nat.lt_trichotomy (q - k) 253 with h | h | h
  · have h1 : 2 ^ (q + 24) ≤ 2 ^ 24 * 2 ^ (252 + k) := by
      rw [← pow_add]; exact Nat.pow_le_pow_right (by omega) (by omega)
    generalize 2 ^ (252 + k) = Q at *
    omega
  · have hq : q = 252 + k + 1 := by omega
    rw [h]
    rw [hq, pow_succ 2 (252 + k)] at hspec
    rw [hq] at hr hle ⊢
    generalize roundQuot m (252 + k + 1) = r at *
    generalize 2 ^ (252 + k) = Q at *
    constructor
    · intro hc
      have hr' : r = 2 ^ 24 := by omega
      subst hr'
      omega
    · intro hc
      by_contra hn
      have h24 : r ≤ 2 ^ 24 - 1 := by omega
      have hm : r * (Q * 2) ≤ (2 ^ 24 - 1) * (Q * 2) := Nat.mul_le_mul_right _ h24
      have h3 := hspec.2.2 (.inr (by omega))
      have h24' : r ≤ 2 ^ 24 - 2 := by omega
      have hm' : r * (Q * 2) ≤ (2 ^ 24 - 2) * (Q * 2) := Nat.mul_le_mul_right _ h24'
      omega
  · have hm : 2 ^ (q + 23) ≤ m := by
      rcases hge with h' | h'
      · omega
      · exact h'
    have h1 : 2 ^ 25 * 2 ^ (252 + k) ≤ 2 ^ (q + 23) := by
      rw [← pow_add]; exact Nat.pow_le_pow_right (by omega) (by omega)
    have h2 : 2 ^ 23 ≤ roundQuot m q := by omega
    generalize 2 ^ (252 + k) = Q at *
    omega

theorem roundMag_le (m k : Nat) : roundMag m k ≤ infPattern := by
  unfold roundMag
  simp only
  split <;> omega

/-- A finite value is encoded by its own magnitude: rounding it changes nothing. -/
theorem roundMag_magOf {p : Nat} (h : p < infPattern) : roundMag (magOf p) 0 = p := by
  have hq : max 0 (Nat.log2 (magOf p) - 23) = p / 2 ^ 23 - 1 ∧
      roundQuot (magOf p) (p / 2 ^ 23 - 1) = if p / 2 ^ 23 = 0 then p else 2 ^ 23 + p % 2 ^ 23 := by
    unfold magOf
    split
    · rename_i h0
      rw [h0]
      refine ⟨?_, ?_⟩
      · have : Nat.log2 p ≤ 23 := by
          by_cases hp : p = 0
          · subst hp; simp
          · have := (Nat.log2_lt hp (k := 23)).mpr (by omega); omega
        omega
      · have := roundQuot_exact p 0
        simpa using this
    · rename_i h0
      refine ⟨?_, roundQuot_exact _ _⟩
      have hne : (2 ^ 23 + p % 2 ^ 23) * 2 ^ (p / 2 ^ 23 - 1) ≠ 0 := by positivity
      have e : Nat.log2 ((2 ^ 23 + p % 2 ^ 23) * 2 ^ (p / 2 ^ 23 - 1)) = 23 + (p / 2 ^ 23 - 1) := by
        refine (Nat.log2_eq_iff hne).mpr ⟨?_, ?_⟩
        · rw [pow_add]
          exact Nat.mul_le_mul_right _ (by omega)
        · rw [show 23 + (p / 2 ^ 23 - 1) + 1 = 24 + (p / 2 ^ 23 - 1) by omega, pow_add]
          exact Nat.mul_lt_mul_of_pos_right (by omega) (by positivity)
      rw [e]; omega
  unfold roundMag
  simp only [hq.1, hq.2]
  rw [if_neg]
  · split <;> omega
  · intro hc
    apply absurd hc
    split <;> omega

theorem not_nan_of_finite {v : Word} (h : isFinite v = true) : isNaN v = false ∧ isInf v = false := by
  unfold isFinite at h
  rw [decide_eq_true_iff] at h
  simp [isNaN, isInf, h]

theorem magOf_eq_zero (p : Nat) : magOf p = 0 ↔ p = 0 := by
  unfold magOf
  split
  · rfl
  · constructor
    · intro h
      have : (2 ^ 23 + p % 2 ^ 23) * 2 ^ (p / 2 ^ 23 - 1) ≠ 0 := by positivity
      exact absurd h this
    · rintro rfl; simp at *

theorem isZero_iff (w : Word) : isZero w = true ↔ w.toNat % 2 ^ 31 = 0 := by
  unfold isZero expo frac
  rw [Bool.and_eq_true, decide_eq_true_iff, decide_eq_true_iff]
  omega

theorem units_eq_zero (w : Word) : units w = 0 ↔ isZero w = true := by
  rw [isZero_iff, ← magOf_eq_zero, ← magUnits_eq]
  unfold units
  split <;> omega

/-- A finite value that is not zero has the sign of its encoding and is encoded by its magnitude. -/
theorem withSign_units {v : Word} (h : isFinite v = true) (hz : units v ≠ 0) :
    withSign (decide (units v < 0)) (roundMag (units v).natAbs 0) = v := by
  have hm : (units v).natAbs = magOf (v.toNat % 2 ^ 31) := by
    rw [← magUnits_eq]; unfold units; split <;> omega
  have hs : decide (units v < 0) = sign v := by
    have hpos : magUnits v ≠ 0 := by
      intro h0; apply hz; unfold units; split <;> omega
    unfold units
    cases sign v <;> simp; omega
  rw [hm, hs, roundMag_magOf ((isFinite_iff v).mp h), withSign_self]

/-- Zero, of either sign, plus a finite value is that value, but that a zero sum is +0 or the sum of two negatives. -/
theorem add_zero_left {z v : Word} (hz : isZero z = true) (h : isFinite v = true) :
    add z v = if isZero v then withSign (sign z && sign v) 0 else v := by
  have hzf : isFinite z = true := by
    rw [isFinite_iff, (isZero_iff z).mp hz]; decide
  have h1 := not_nan_of_finite h
  have h2 := not_nan_of_finite hzf
  unfold add
  simp only [h1.1, h1.2, h2.1, h2.2, Bool.or_self, Bool.false_eq_true, if_false]
  rw [(units_eq_zero z).mpr hz, Int.zero_add]
  by_cases hv : isZero v = true
  · rw [if_pos hv, if_pos ((units_eq_zero v).mpr hv)]
  · have hv' : units v ≠ 0 := fun h' => hv ((units_eq_zero v).mp h')
    rw [if_neg hv, if_neg hv', withSign_units h hv']

/-- A zero added on the right keeps the value of a finite number. -/
theorem add_zero_right {o v : Word} (hz : isZero v = true) (h : isFinite o = true) :
    isFinite (add o v) = true ∧ units (add o v) = units o := by
  have hvf : isFinite v = true := by rw [isFinite_iff, (isZero_iff v).mp hz]; decide
  have h1 := not_nan_of_finite h
  have h2 := not_nan_of_finite hvf
  have hu := (units_eq_zero v).mpr hz
  have e : add o v = if units o = 0 then withSign (sign o && sign v) 0
      else withSign (decide (units o < 0)) (roundMag (units o).natAbs 0) := by
    unfold add
    simp only [h1.1, h1.2, h2.1, h2.2, Bool.or_self, Bool.false_eq_true, if_false, hu, Int.add_zero]
  rw [e]
  by_cases ho : units o = 0
  · rw [if_pos ho, ho]
    cases (sign o && sign v) <;> decide
  · rw [if_neg ho, withSign_units h ho]
    exact ⟨h, rfl⟩

/-- No finite value is larger in magnitude than the largest one. -/
theorem units_abs_le {w : Word} (h : isFinite w = true) : |units w| ≤ (2 ^ 24 - 1) * 2 ^ 253 := by
  have hm : magUnits w ≤ (2 ^ 24 - 1) * 2 ^ 253 := by
    have hf : frac w < 2 ^ 23 := Nat.mod_lt _ (by decide)
    have he : expo w < 256 := Nat.mod_lt _ (by decide)
    have hne : expo w ≠ 255 := of_decide_eq_true h
    unfold magUnits
    split
    · omega
    · rw [Nat.shiftLeft_eq]
      exact Nat.mul_le_mul (by omega) (Nat.pow_le_pow_right (by decide) (by omega))
  have hu : |units w| = magUnits w := by
    unfold units
    split <;> simp
  rw [hu]
  have hz := Int.ofNat_le.mpr hm
  norm_num at hz ⊢
  exact hz

/-- The exponent is the field 30:23 of the encoding. -/
theorem expo_eq (w : Word) : w.field 23 8 = expo w := by
  simp [Word.field, expo, BitVec.extractLsb'_toNat, Nat.shiftRight_eq_div_pow]

/-- The fraction is the field 22:0 of the encoding. -/
theorem frac_eq (w : Word) : w.field 0 23 = frac w := by
  simp [Word.field, frac, BitVec.extractLsb'_toNat]

theorem isNaN_iff (w : Word) : isNaN w = true ↔ expo w = 255 ∧ frac w ≠ 0 := by simp [isNaN]

theorem expo_or (d : Word) : expo (d ||| 0x7F800000#32) = 255 := by
  rw [← expo_eq]
  have : (d ||| 0x7F800000#32).extractLsb' 23 8 = 255#8 := by
    apply BitVec.eq_of_getLsbD_eq
    intro i hi
    rw [BitVec.getLsbD_extractLsb', BitVec.getLsbD_or]
    interval_cases i <;> simp
  simp [Word.field, this]

theorem frac_or (d : Word) : frac (d ||| 0x7F800000#32) = frac d := by
  rw [← frac_eq, ← frac_eq]
  have : (d ||| 0x7F800000#32).extractLsb' 0 23 = d.extractLsb' 0 23 := by
    apply BitVec.eq_of_getLsbD_eq
    intro i hi
    rw [BitVec.getLsbD_extractLsb', BitVec.getLsbD_extractLsb', BitVec.getLsbD_or]
    interval_cases i <;> simp
  simp [Word.field, this]

/-- The quiet NaN's bits are the quiet bit and the exponent. -/
theorem nan_or (d : Word) : nan ||| d = (d ||| 0x400000#32) ||| 0x7F800000#32 := by
  rw [BitVec.or_assoc, BitVec.or_comm]; rfl

/-- A quieted encoding has a fraction. -/
theorem frac_quiet (d : Word) : frac (d ||| 0x400000#32) ≠ 0 := by
  rw [← frac_eq]
  intro h
  have hz : (d ||| 0x400000#32).extractLsb' 0 23 = 0#23 := BitVec.eq_of_toNat_eq h
  have := congrArg (fun b => b.getLsbD 22) hz
  simp at this

/-- A free NaN is a NaN, and every NaN is one (41_antialias.md R218). -/
theorem isNaN_nanOf (d : Word) : isNaN (nanOf d) = true := by
  rw [isNaN_iff]
  unfold nanOf
  split
  · rw [nan_or, expo_or, frac_or]; exact ⟨rfl, frac_quiet d⟩
  · rename_i h
    exact ⟨expo_or d, by rw [show BitVec.ofNat 32 infPattern = 0x7F800000#32 from rfl, frac_or]; exact h⟩

/-- A draw that is a NaN is the free NaN itself. -/
theorem nanOf_self {x : Word} (h : isNaN x = true) : nanOf x = x := by
  obtain ⟨h1, h2⟩ := (isNaN_iff x).mp h
  unfold nanOf
  rw [if_neg h2]
  apply BitVec.eq_of_getLsbD_eq
  intro i hi
  rw [BitVec.getLsbD_or]
  by_cases hb : 23 ≤ i ∧ i < 31
  · have hz : x.extractLsb' 23 8 = 255#8 := BitVec.eq_of_toNat_eq (by rw [← expo_eq] at h1; exact h1)
    have := congrArg (fun b => b.getLsbD (i - 23)) hz
    simp only [BitVec.getLsbD_extractLsb', show 23 + (i - 23) = i by omega, show i - 23 < 8 by omega, decide_true,
      Bool.true_and] at this
    rw [this]
    have : i = 23 ∨ i = 24 ∨ i = 25 ∨ i = 26 ∨ i = 27 ∨ i = 28 ∨ i = 29 ∨ i = 30 := by omega
    rcases this with rfl | rfl | rfl | rfl | rfl | rfl | rfl | rfl <;> rfl
  · have : (BitVec.ofNat 32 infPattern).getLsbD i = false := by
      interval_cases i <;> first | rfl | omega
    rw [this, Bool.or_false]

/-- What is stored of a result: a NaN is settled by the draw, any other result is kept. -/
theorem settle_of_not_nan {d r : Word} (h : isNaN r = false) : settle d r = r := by simp [settle, h]

theorem settle_of_nan {d r : Word} (h : isNaN r = true) : settle d r = nanOf d := by simp [settle, h]

end Sys2Proof.F32
end

