-- ==== Sys2Proof/Laws/Hybrid.lean ====
section
/-! SUPPORT. The lists of samples and overlaps that HYBRID computes, and the words a completed HYBRID leaves. -/

namespace Sys2Proof.Machine

/-- A sample whose exact sum is in the binary32 range is the binary32 sum (42_hybrid_imdct.md R240). -/
theorem overlapAdd_inRange {draw o v : Word} (ho : F32.isFinite o = true) (hv : F32.isFinite v = true)
    (h : |F32.units o + F32.units v| ≤ (2 ^ 24 - 1) * 2 ^ 253) : overlapAdd draw o v = F32.add o v := by
  have h' : (F32.units o + F32.units v).natAbs ≤ F32.maxUnits := by
    rw [Int.abs_eq_natAbs] at h
    simp only [F32.maxUnits]
    omega
  simp only [overlapAdd, ho, hv, h', decide_true, Bool.and_self, if_true]

/-- A transform output of +0 leaves a finite carried overlap as it is, but that -0 becomes +0 (42_hybrid_imdct.md R240,
R246). -/
theorem overlapAdd_plusZero {draw v : Word} (hv : F32.isFinite v = true) :
    overlapAdd draw F32.plusZero v = if F32.isZero v then F32.plusZero else v := by
  have h0 : F32.units F32.plusZero = 0 := by decide
  rw [overlapAdd_inRange (by decide) hv (by rw [h0, Int.zero_add]; exact F32.units_abs_le hv),
    F32.add_zero_left (by decide) hv, show F32.sign F32.plusZero = false by decide, Bool.false_and,
    show F32.withSign false 0 = F32.plusZero by decide]

/-- Any other sample is free (41_antialias.md R218). -/
theorem overlapAdd_open {draw o v : Word} (h : F32.isFinite o = false ∨ F32.isFinite v = false ∨
    (2 ^ 24 - 1) * 2 ^ 253 < |F32.units o + F32.units v|) : overlapAdd draw o v = draw := by
  refine if_neg fun hc => ?_
  rw [Bool.and_eq_true, Bool.and_eq_true] at hc
  rcases h with h | h | h
  · rw [hc.1.1] at h; cases h
  · rw [hc.1.2] at h; cases h
  · have h' := of_decide_eq_true hc.2
    rw [Int.abs_eq_natAbs] at h
    simp only [F32.maxUnits] at h'
    omega

theorem hybridSamples_length (draw : Nat → Word) (o : Fin 36 → Word) (O : List Word) :
    (hybridSamples draw o O).length = 18 := by simp [hybridSamples]

theorem hybridOverlap_length (o : Fin 36 → Word) : (hybridOverlap o).length = 18 := by simp [hybridOverlap]

theorem hybridSubbands_length {s : State} {ch : Channel} {bt : BlockType} {mixed : Bool} {n sb : Nat} {xs os : List Word}
    (h : hybridSubbands s ch bt mixed n sb = some (xs, os)) : xs.length = 18 * n ∧ os.length = 18 * n := by
  induction n generalizing sb xs os with
  | zero => cases h; simp
  | succ n ih =>
    unfold hybridSubbands at h
    split at h
    · rename_i X O xs' os' _ _ hr
      cases h
      have := ih hr
      simp only [List.length_append, hybridSamples_length, hybridOverlap_length, this.1, this.2]
      omega
    · cases h

/-- Subband `sb + j` of the lists is computed from its own 18 entries of XR and OVL. -/
theorem hybridSubbands_getElem {s : State} {ch : Channel} {bt : BlockType} {mixed : Bool} {n sb : Nat}
    {xs os : List Word} (h : hybridSubbands s ch bt mixed n sb = some (xs, os)) {j : Nat} (hj : j < n) :
    ∃ X O, s.mem.words (xrAddr (18 * (sb + j))) 18 = some X ∧ s.mem.words (ovlAddr ch (sb + j) 0) 18 = some O ∧
      ∀ i (hi : i < 18),
        xs[18 * j + i]? = some (overlapAdd (s.draw (18 * (sb + j) + i))
          (transform (s.draws + (sb + j)) bt mixed (sb + j) X ⟨i, by omega⟩) (O.getD i 0)) ∧
        os[18 * j + i]? = some (transform (s.draws + (sb + j)) bt mixed (sb + j) X ⟨18 + i, by omega⟩) := by
  induction n generalizing sb xs os j with
  | zero => omega
  | succ n ih =>
    unfold hybridSubbands at h
    split at h
    · rename_i X O xs' os' hX hO hr
      cases h
      cases j with
      | zero =>
        refine ⟨X, O, hX, hO, fun i hi => ?_⟩
        rw [List.getElem?_append_left (by rw [hybridSamples_length]; omega),
          List.getElem?_append_left (by rw [hybridOverlap_length]; omega)]
        simp only [hybridSamples, hybridOverlap, List.getElem?_ofFn, hi, dif_pos, Nat.mul_zero, Nat.zero_add, Nat.add_zero,
          and_self]
      | succ j =>
        obtain ⟨X', O', h1, h2, h3⟩ := ih hr (j := j) (by omega)
        rw [show sb + 1 + j = sb + (j + 1) by omega] at h1 h2 h3
        refine ⟨X', O', h1, h2, fun i hi => ?_⟩
        rw [List.getElem?_append_right (by rw [hybridSamples_length]; omega),
          List.getElem?_append_right (by rw [hybridOverlap_length]; omega), hybridSamples_length, hybridOverlap_length,
          show 18 * (j + 1) + i - 18 = 18 * j + i by omega]
        exact h3 i hi
    · cases h

/-- Where XR is written every subband is done; OVL is never unwritten (10_state.md R52). -/
theorem hybridSubbands_isSome {s : State} {ch : Channel} {bt : BlockType} {mixed : Bool} {n sb : Nat} (hn : sb + n ≤ 32)
    (h : ∀ j, j < 2304 → (s.mem.get (xrAddr 0 + j)).isSome = true) :
    (hybridSubbands s ch bt mixed n sb).isSome = true := by
  induction n generalizing sb with
  | zero => rfl
  | succ n ih =>
    unfold hybridSubbands
    have hX : (s.mem.words (xrAddr (18 * sb)) 18).isSome := by
      rw [Memory.words_eq]
      refine Memory.wordsFrom_isSome fun k hk => Memory.word_isSome fun j hj => ?_
      have := h (72 * sb + 4 * k + j) (by omega)
      rwa [show xrAddr 0 + (72 * sb + 4 * k + j) = xrAddr (18 * sb) + 4 * k + j by simp only [xrAddr]; omega] at this
    have hO : (s.mem.words (ovlAddr ch sb 0) 18).isSome := by
      rw [Memory.words_eq]
      refine Memory.wordsFrom_isSome fun k hk => Memory.word_isSome fun j hj => ?_
      refine Memory.get_isSome_of_carried _ (.inl (region_ovl ?_ ?_)) <;>
        cases ch <;> simp only [ovlAddr, channelIndex] <;> omega
    obtain ⟨X, hX⟩ := Option.isSome_iff_exists.mp hX
    obtain ⟨O, hO⟩ := Option.isSome_iff_exists.mp hO
    obtain ⟨⟨xs, os⟩, hr⟩ := Option.isSome_iff_exists.mp (ih (sb := sb + 1) (by omega))
    simp [hX, hO, hr]

/-- A word read where HYBRID stored its samples and its overlap. -/
theorem hybrid_words (m : Memory) (ch : Channel) {xs os : List Word} (hx : xs.length = 576) (ho : os.length = 576)
    {k : Nat} (hk : k < 576) :
    ((m.store (xrAddr 0) (wordListBytes xs)).store (ovlAddr ch 0 0) (wordListBytes os)).word (xrAddr k) = xs[k]? ∧
      ((m.store (xrAddr 0) (wordListBytes xs)).store (ovlAddr ch 0 0) (wordListBytes os)).word (ovlAddr ch 0 0 + 4 * k) =
        os[k]? := by
  constructor
  · have hout : xrAddr k + 4 ≤ ovlAddr ch 0 0 := by
      have : 0x5000 ≤ ovlAddr ch 0 0 := by simp only [ovlAddr]; omega
      simp only [xrAddr]; omega
    rw [Memory.word_store_outside _ _ _ _ (.inl hout), List.getElem?_eq_getElem (by omega),
      show xrAddr k = xrAddr 0 + 4 * k by unfold xrAddr; omega, Memory.word_store _ _ _ _ (by omega)]
  · rw [List.getElem?_eq_getElem (by omega), Memory.word_store _ _ _ _ (by omega)]

/-- What a completed HYBRID leaves of subband `sb`, from the words it found (42_hybrid_imdct.md R240, R243). -/
theorem exec_hybrid_words {ch : Channel} {bt : BlockType} {mixed : Bool} {s t : State}
    (h : exec (.hybrid ch bt mixed) s = .next t) {sb : Nat} (hsb : sb < 32) :
    ∃ X O, s.mem.words (xrAddr (18 * sb)) 18 = some X ∧ s.mem.words (ovlAddr ch sb 0) 18 = some O ∧
      ∀ i (hi : i < 18),
        t.mem.word (xrAddr (18 * sb + i)) = some (overlapAdd (s.draw (18 * sb + i))
          (transform (s.draws + sb) bt mixed sb X ⟨i, by omega⟩) (O.getD i 0)) ∧
        t.mem.word (ovlAddr ch sb i) = some (transform (s.draws + sb) bt mixed sb X ⟨18 + i, by omega⟩) := by
  obtain ⟨xs, os, hx, rfl⟩ := exec_hybrid_next h
  have hl := hybridSubbands_length hx
  obtain ⟨X, O, hX, hO, hg⟩ := hybridSubbands_getElem hx hsb
  simp only [Nat.zero_add] at hX hO hg
  refine ⟨X, O, hX, hO, fun i hi => ?_⟩
  have hw := hybrid_words s.mem ch (xs := xs) (os := os) (by omega) (by omega) (k := 18 * sb + i) (by omega)
  simp only [finish_mem]
  constructor
  · rw [hw.1]; exact (hg i hi).1
  · rw [show ovlAddr ch sb i = ovlAddr ch 0 0 + 4 * (18 * sb + i) by simp only [ovlAddr]; omega, hw.2]
    exact (hg i hi).2

end Sys2Proof.Machine
end

