-- ==== Sys2Proof/Laws/Invariant.lean ====
section
/-! SUPPORT. The parts of the invariant as propositions, and what they depend on. -/

namespace Sys2Proof.Machine

theorem State.flagsOk_iff (s : State) : s.flagsOk = true ↔
    ¬ (s.status.done = true ∧ s.status.err = true) ∧ (s.status.err = true ↔ s.status.errCode ≠ .none) ∧
      (s.status.err = true → s.status.noHuffFlags = true) ∧
      (s.busy = true → s.status.done = false ∧ s.status.err = false ∧ s.status.noHuffFlags = true) := by
  simp only [State.flagsOk, Bool.and_eq_true, Bool.or_eq_true, Bool.not_eq_true', decide_eq_true_eq,
    Bool.and_eq_false_iff]
  cases s.busy <;> cases s.status.done <;> cases s.status.err <;> simp

/-- The registers' part of the invariant reads the registers only. -/
theorem State.registersOk_congr {s t : State} (h1 : t.cmd = s.cmd) (h2 : t.irqEn = s.irqEn)
    (h3 : t.hufBitpos = s.hufBitpos) (h4 : t.hufPart2start = s.hufPart2start) (h5 : t.hufGranule = s.hufGranule)
    (h6 : t.hufTables = s.hufTables) (h7 : t.hufSfbsel = s.hufSfbsel) (h8 : t.hufNonzero = s.hufNonzero)
    (h9 : t.hufRegion = s.hufRegion) (h10 : t.hufBveff = s.hufBveff) : t.registersOk = s.registersOk := by
  unfold State.registersOk
  rw [h1, h2, h3, h4, h5, h6, h7, h8, h9, h10]

theorem mask_idem (v m : Word) : v &&& m &&& m = v &&& m := by simp [BitVec.and_assoc]

theorem start_mem (s : State) : (start s).mem = s.mem := by
  unfold start
  split
  · rfl
  · split <;> rfl

theorem wf_abandonMemory {m : Memory} (h : m.wf = true) (p : Phase) : (abandonMemory p m).wf = true := by
  unfold abandonMemory
  split
  · exact h
  · split <;> first | exact h | exact Memory.wf_forget h _ _

theorem wf_clearCarried {m : Memory} (h : m.wf = true) : (clearCarried m).wf = true :=
  Memory.wf_forget (Memory.wf_forget h _ _) _ _

theorem wf_clearChannel {m : Memory} (h : m.wf = true) (ch : Channel) : (clearChannel ch m).wf = true :=
  Memory.wf_forget (Memory.wf_forget h _ _) _ _

/-- A host's aligned store into a memory keeps the canonical form. -/
theorem wf_hostStore {m : Memory} (h : m.wf = true) {addr : Address} {width : Width} (v : Word)
    (hm : (region addr.toNat).isMemory = true) (ha : aligned addr.toNat width = true) :
    (m.store addr.toNat ((v.bytes.take (Width.count width)).map some)).wf = true := by
  refine Memory.wf_store h _ _ fun a h1 h2 => ?_
  rw [writeBytes_length] at h2
  have := region_aligned (a := addr.toNat) (j := a - addr.toNat) (Width.count_cases width) (by simpa [aligned] using ha)
    (by omega)
  rw [show addr.toNat + (a - addr.toNat) = a by omega] at this
  rw [this]
  exact hm

end Sys2Proof.Machine
end

