-- ==== Sys2Proof/Laws/PerInstr.lean ====
section
/-! SUPPORT. Statements made for every instruction, one lemma a constructor: how many bytes an instruction has
(30_encoding.md R114, R120). -/

/-- A command is one word of four bytes, a table word a half of two. -/
def Sys2Proof.Laws.EncodeLength.Statement (i : Sys2Proof.Instr) : Prop :=
  (Sys2Proof.encode i).length = if i.form = .command then 4 else 2

theorem Sys2Proof.Laws.EncodeLength.nop : Sys2Proof.Laws.EncodeLength.Statement .nop := rfl

theorem Sys2Proof.Laws.EncodeLength.huff : Sys2Proof.Laws.EncodeLength.Statement .huff := rfl

theorem Sys2Proof.Laws.EncodeLength.antialias (bt : Sys2Proof.BlockType) (mixed : Bool) :
    Sys2Proof.Laws.EncodeLength.Statement (.antialias bt mixed) := rfl

theorem Sys2Proof.Laws.EncodeLength.hybrid (ch : Sys2Proof.Channel) (bt : Sys2Proof.BlockType) (mixed : Bool) :
    Sys2Proof.Laws.EncodeLength.Statement (.hybrid ch bt mixed) := rfl

theorem Sys2Proof.Laws.EncodeLength.synth (ch : Sys2Proof.Channel) (nch : Sys2Proof.Packing) :
    Sys2Proof.Laws.EncodeLength.Statement (.synth ch nch) := rfl

theorem Sys2Proof.Laws.EncodeLength.clrstate (ch : Sys2Proof.Channel) :
    Sys2Proof.Laws.EncodeLength.Statement (.clrstate ch) := rfl

theorem Sys2Proof.Laws.EncodeLength.reserved67 (op : BitVec 4) :
    Sys2Proof.Laws.EncodeLength.Statement (.reserved67 op) := rfl

theorem Sys2Proof.Laws.EncodeLength.reserved8to15 (op : BitVec 4) :
    Sys2Proof.Laws.EncodeLength.Statement (.reserved8to15 op) := rfl

theorem Sys2Proof.Laws.EncodeLength.htabBranch (offset : Nat) :
    Sys2Proof.Laws.EncodeLength.Statement (.htabBranch offset) := rfl

theorem Sys2Proof.Laws.EncodeLength.htabLeafPair (x y : Fin 16) :
    Sys2Proof.Laws.EncodeLength.Statement (.htabLeafPair x y) := rfl

theorem Sys2Proof.Laws.EncodeLength.htabLeafQuad (v w x y : Bool) :
    Sys2Proof.Laws.EncodeLength.Statement (.htabLeafQuad v w x y) := rfl
end

