-- ==== Sys2Proof/Laws/Synthesis.lean ====
section
/-! SUPPORT. What SYNTH reads, the lists it computes and where its PCM samples lie. -/

namespace Sys2Proof.Machine

theorem shiftHistory_length {V : List Word} (hV : V.length = 1024) (new : Fin 64 → Word) :
    (shiftHistory V new).length = 1024 := by simp [shiftHistory, hV]

theorem slotPcm_length (draw : Nat → Word) (amp : Fin 32 → Word) : (slotPcm draw amp).length = 32 := by simp [slotPcm]

theorem synthSlots_length (draws : Nat) (XR : List Word) (n ts : Nat) (V : List Word) (hV : V.length = 1024) :
    (synthSlots draws XR n ts V).1.length = 32 * n ∧ (synthSlots draws XR n ts V).2.length = 1024 := by
  induction n generalizing ts V with
  | zero => simp [synthSlots, hV]
  | succ n ih =>
    have := ih (ts + 1) _ (shiftHistory_length hV (Config.filterbank.matrix (draws + ts) (slotInput XR ts)))
    simp only [synthSlots, List.length_append, slotPcm_length, this.1, this.2, and_true]
    omega

theorem Memory.words_length {m : Memory} {lo n : Nat} {ws : List Word} (h : m.words lo n = some ws) : ws.length = n := by
  rw [Memory.words_eq] at h
  exact (Memory.wordsFrom_some h).1

theorem readXr_length {m : Memory} {n sb : Nat} {XR : List Word} (h : readXr m n sb = some XR) : XR.length = 18 * n := by
  induction n generalizing sb XR with
  | zero => cases h; rfl
  | succ n ih =>
    unfold readXr at h
    split at h
    · rename_i ws rest hw hr
      cases h
      simp only [List.length_append, Memory.words_length hw, ih hr]
      omega
    · cases h

theorem readHistory_length {m : Memory} {ch : Channel} {n b : Nat} {V : List Word} (h : readHistory m ch n b = some V) :
    V.length = 64 * n := by
  induction n generalizing b V with
  | zero => cases h; rfl
  | succ n ih =>
    unfold readHistory at h
    split at h
    · rename_i ws rest hw hr
      cases h
      simp only [List.length_append, Memory.words_length hw, ih hr]
      omega
    · cases h

/-- Where the entries of XR are written, `readXr` is the list of them. -/
theorem readXr_eq {m : Memory} {n sb : Nat} {XR : List Word} (hl : XR.length = 18 * n)
    (h : ∀ k (hk : k < XR.length), m.word (xrAddr (18 * sb + k)) = some XR[k]) : readXr m n sb = some XR := by
  induction n generalizing sb XR with
  | zero => simp at hl; simp [readXr, hl]
  | succ n ih =>
    have e : XR = XR.take 18 ++ XR.drop 18 := (List.take_append_drop 18 XR).symm
    have h1 : m.words (xrAddr (18 * sb)) 18 = some (XR.take 18) := by
      rw [Memory.words_eq]
      refine Memory.wordsFrom_eq (by rw [List.length_take]; omega) fun k hk => ?_
      have := h k (by simp at hk; omega)
      rw [show xrAddr (18 * sb) + 4 * k = xrAddr (18 * sb + k) by simp only [xrAddr]; omega, this]
      simp
    have h2 : readXr m n (sb + 1) = some (XR.drop 18) := by
      refine ih (by rw [List.length_drop]; omega) fun k hk => ?_
      have := h (18 + k) (by simp at hk; omega)
      rw [show 18 * (sb + 1) + k = 18 * sb + (18 + k) by omega, this]
      simp
    unfold readXr
    rw [h1, h2]
    simp

/-- `readHistory` is the list of the entries of V[ch]. -/
theorem readHistory_eq {m : Memory} {ch : Channel} {n b : Nat} {V : List Word} (hl : V.length = 64 * n)
    (h : ∀ k (hk : k < V.length), m.word (vAddr ch (64 * b + k)) = some V[k]) : readHistory m ch n b = some V := by
  induction n generalizing b V with
  | zero => simp at hl; simp [readHistory, hl]
  | succ n ih =>
    have h1 : m.words (vAddr ch (64 * b)) 64 = some (V.take 64) := by
      rw [Memory.words_eq]
      refine Memory.wordsFrom_eq (by rw [List.length_take]; omega) fun k hk => ?_
      have := h k (by simp at hk; omega)
      rw [show vAddr ch (64 * b) + 4 * k = vAddr ch (64 * b + k) by simp only [vAddr]; omega, this]
      simp
    have h2 : readHistory m ch n (b + 1) = some (V.drop 64) := by
      refine ih (by rw [List.length_drop]; omega) fun k hk => ?_
      have := h (64 + k) (by simp at hk; omega)
      rw [show 64 * (b + 1) + k = 64 * b + (64 + k) by omega, this]
      simp
    unfold readHistory
    rw [h1, h2]
    simp

/-! ## PCM -/

theorem Memory.bytes_length (m : Memory) (lo n : Nat) : (m.bytes lo n).length = n := by
  induction n generalizing lo with
  | zero => rfl
  | succ n ih => simp [Memory.bytes, ih]

theorem Memory.bytes_getElem (m : Memory) (lo n j : Nat) (h : j < (m.bytes lo n).length) :
    (m.bytes lo n)[j] = m.get (lo + j) := by
  induction n generalizing lo j with
  | zero => simp [Memory.bytes] at h
  | succ n ih =>
    cases j with
    | zero => simp [Memory.bytes]
    | succ j =>
      simp only [Memory.bytes, List.getElem_cons_succ]
      rw [ih]
      congr 1
      omega

theorem stereoBytes_length (old : Memory) (ch : Channel) (n : Nat) (hs : List Half) :
    (stereoBytes old ch n hs).length = 4 * hs.length := by
  induction hs generalizing n with
  | nil => rfl
  | cons h hs ih =>
    cases ch <;>
      simp only [stereoBytes, List.length_append, List.length_map, Half.bytes, List.length_cons, List.length_nil,
        Memory.bytes_length, ih] <;> omega

theorem pcmBytes_length (old : Memory) (ch : Channel) (nch : Packing) (pcm : List Half) (h : pcm.length = 576) :
    (pcmBytes old ch nch pcm).length ≤ 2304 := by
  cases nch
  · simp only [pcmBytes, halfListBytes_length]; omega
  · simp only [pcmBytes, stereoBytes_length]; omega

/-- Byte `j` of sample `k` in the stereo packing: the channel's own samples, the other channel's bytes as they were. -/
theorem stereoBytes_getElem (old : Memory) (ch : Channel) (n : Nat) (hs : List Half) (k j : Nat) (hk : k < hs.length)
    (hj : j < 2) :
    (stereoBytes old ch n hs)[4 * k + 2 * channelIndex ch + j]? = some (some (hs[k].extractLsb' (8 * j) 8)) ∧
      (stereoBytes old ch n hs)[4 * k + 2 * (1 - channelIndex ch) + j]? =
        some (old.get (pcmAddr (2 * (n + k) + (1 - channelIndex ch)) + j)) := by
  induction hs generalizing n k with
  | nil => simp at hk
  | cons h hs ih =>
    cases k with
    | zero =>
      cases ch <;> interval_cases j <;>
        simp [stereoBytes, Half.bytes, channelIndex, Memory.bytes]
    | succ k =>
      have := ih (n + 1) k (by simpa using hk)
      rw [show n + 1 + k = n + (k + 1) by omega] at this
      cases ch <;>
        simp only [channelIndex, stereoBytes, Half.bytes, List.map_cons, List.map_nil, Memory.bytes, List.cons_append,
          List.nil_append, List.getElem_cons_succ] at this ⊢
      · rw [show 4 * (k + 1) + 2 * 0 + j = (4 * k + 2 * 0 + j) + 1 + 1 + 1 + 1 by omega,
          show 4 * (k + 1) + 2 * (1 - 0) + j = (4 * k + 2 * (1 - 0) + j) + 1 + 1 + 1 + 1 by omega]
        simpa only [List.getElem?_cons_succ, List.getElem_cons_succ] using this
      · rw [show 4 * (k + 1) + 2 * 1 + j = (4 * k + 2 * 1 + j) + 1 + 1 + 1 + 1 by omega,
          show 4 * (k + 1) + 2 * (1 - 1) + j = (4 * k + 2 * (1 - 1) + j) + 1 + 1 + 1 + 1 by omega]
        simpa only [List.getElem?_cons_succ, List.getElem_cons_succ] using this

end Sys2Proof.Machine
end

