-- ==== Sys2Proof/Tests/Slice0.lean ====
section
/-! SUPPORT. Tests: the terms WellFormed refuses, words written out from the spec's encodings, vectors of
95_test_vectors.md, and for every obligation with hypotheses a state that meets them (`test_meets_…`). -/

namespace Sys2Proof.Tests

open Sys2Proof.Machine

/-! ## Helpers -/

/-- The next state, if there is one. -/
def nextOf (o : Host.Outcome State Fault Refusal) : Option State :=
  match o with
  | .next t => some t
  | .fault _ => none
  | .refused _ => none

theorem of_nextOf {o : Host.Outcome State Fault Refusal} (h : (nextOf o).isSome = true) : ∃ t, o = .next t := by
  cases o with
  | next t => exact ⟨t, rfl⟩
  | fault f => cases h
  | refused r => cases h

/-- A memory whose bytes `[lo, lo + n)` are `v`. -/
def filled (lo n : Nat) (v : Byte) : Memory := Memory.store [] lo (List.replicate n (some v))

theorem filled_get (lo n : Nat) (v : Byte) {a : Nat} (h : lo ≤ a) (h' : a < lo + n) : (filled lo n v).get a = some v := by
  have hl : a < lo + (List.replicate n (some v)).length := by simpa using h'
  simp only [filled, Memory.get_store, h, hl, and_self, dif_pos, List.getElem_replicate, Option.some_or]

theorem filled_word (lo n : Nat) {a : Nat} (h : lo ≤ a) (h' : a + 4 ≤ lo + n) :
    (filled lo n 0).word a = some F32.plusZero := by
  have g : ∀ j, j < 4 → (filled lo n 0).get (a + j) = some 0#8 := fun j hj => filled_get lo n 0 (by omega) (by omega)
  have h0 := g 0 (by omega); have h1 := g 1 (by omega); have h2 := g 2 (by omega); have h3 := g 3 (by omega)
  simp only [Nat.add_zero] at h0
  simp only [Memory.word, h0, h1, h2, h3]
  rfl

/-- The reset state with the bytes `mdb` in MDB and HUFF's registers (30_encoding.md R133, `huffset`); `tables` is
HUF_TABLES. -/
def huffState (mdb : List Byte) (pos p2 len bv tables sri : Nat) : State :=
  { State.reset with
    mem := Memory.store [] (mdbAddr 0) (mdb.map some)
    hufBitpos := BitVec.ofNat 32 pos
    hufPart2start := BitVec.ofNat 32 p2
    hufGranule := BitVec.ofNat 32 (len + 65536 * bv)
    hufTables := BitVec.ofNat 32 tables
    hufSfbsel := BitVec.ofNat 32 sri }

/-- What a HUFF test looks at, under OVERRUN_SLACK `slack`: STATUS, HUF_NONZERO, HUF_BVEFF, HUF_BITPOS. -/
def huffOutcome (slack : Fin 2) (s : State) : Option (Word × Nat × Nat × Nat) :=
  (nextOf (huffWith slack.val s)).map fun t =>
    (t.statusWord, t.hufNonzero.toNat, t.hufBveff.toNat, t.hufBitpos.toNat)

/-- The values of IS[k..] a HUFF leaves. -/
def huffSpectrum (slack : Fin 2) (s : State) (k n : Nat) : Option (List (Option Half)) :=
  (nextOf (huffWith slack.val s)).map fun t => (List.range n).map fun j => t.mem.half (isAddr (k + j))

/-- A HUFF that answers a next state with `p` under each OVERRUN_SLACK answers one under the machine's. -/
theorem huff_next {s : State} (p : State → Bool) (h : ∀ slack : Fin 2, (nextOf (huffWith slack.val s)).any p = true) :
    ∃ t, exec .huff s = .next t ∧ p t = true := by
  have h' : (nextOf (exec .huff s)).any p = true := h Config.openOverrunSlack
  cases ho : exec .huff s with
  | next t => rw [ho] at h'; exact ⟨t, rfl, h'⟩
  | fault f => rw [ho] at h'; cases h'
  | refused r => rw [ho] at h'; cases h'

/-- The reset state with a command accepted by START. -/
def started (w : Nat) : State := acceptStart { State.reset with cmd := BitVec.ofNat 32 w }

/-- `n` words of +0. -/
def zeros (n : Nat) : List Word := List.replicate n F32.plusZero

theorem zeros_length (n : Nat) : (zeros n).length = n := List.length_replicate ..

theorem zeros_getElem (n k : Nat) (h : k < (zeros n).length) : (zeros n)[k] = F32.plusZero := List.getElem_replicate ..

/-- The reset state with XR all +0. -/
def silent : State := { State.reset with mem := filled 0x3000 2304 0 }

/-- A HUFF stopped at the first word of table 1, MDB holding the bits 0110 0001. -/
def walking : State :=
  { started 1 with
    mem := Memory.store [] (mdbAddr 0) [some 0x61]
    engine := some ⟨0, some ⟨.pair 1, 0, 0xFFFB⟩, none⟩ }

/-! ## WellFormed -/

theorem test_reserved67_refuses_other_opcodes : WellFormed (.reserved67 5) = false ∧ WellFormed (.reserved67 8) = false := by
  decide

theorem test_reserved8to15_refuses_opcode_7 : WellFormed (.reserved8to15 7) = false := by decide

theorem test_branch_refuses_offset_0 : WellFormed (.htabBranch 0) = false := by decide

theorem test_branch_refuses_offset_past_32768 : WellFormed (.htabBranch 32769) = false := by decide

theorem test_wellFormed_boundaries :
    WellFormed (.reserved67 6) = true ∧ WellFormed (.reserved67 7) = true ∧ WellFormed (.reserved8to15 8) = true ∧
    WellFormed (.reserved8to15 15) = true ∧ WellFormed (.htabBranch 1) = true ∧
    WellFormed (.htabBranch 32768) = true := by decide

/-! ## Decoding: words written out from R110, R111 and R121 of 30_encoding.md -/

theorem test_decode_nop : decodeTableWord 32 0x00000000 = some .nop := by decide

theorem test_decode_huff : decodeTableWord 32 0x00000001 = some .huff := by decide

/-- OP 2, BT 10 in bits 9:8, MIXED in bit 10 (T21). -/
theorem test_decode_antialias : decodeTableWord 32 0x00000602 = some (.antialias .short true) := by decide

/-- OP 3, CH in bit 4, BT 11. -/
theorem test_decode_hybrid : decodeTableWord 32 0x00000313 = some (.hybrid .right .stop false) := by decide

/-- OP 4, NCH in bit 12 (T43). -/
theorem test_decode_synth : decodeTableWord 32 0x00001014 = some (.synth .right .stereo) := by decide

/-- OP 5, CH in bit 4 (T61). -/
theorem test_decode_clrstate : decodeTableWord 32 0x00000015 = some (.clrstate .right) := by decide

theorem test_decode_reserved67 : decodeTableWord 32 0x00000006 = some (.reserved67 6) := by decide

theorem test_decode_reserved8to15 : decodeTableWord 32 0x00000008 = some (.reserved8to15 8) := by decide

/-- The word -5, two's complement. -/
theorem test_decode_branch : decode .pairWord [0xFB, 0xFF] = .ok (.htabBranch 5, []) := by decide

/-- The most negative word, -32768. -/
theorem test_decode_branch_edge : decode .quadWord [0x00, 0x80] = .ok (.htabBranch 32768, []) := by decide

/-- x in bits 7:4, y in bits 3:0: the word 0x00F1. -/
theorem test_decode_leaf_pair : decode .pairWord [0xF1, 0x00] = .ok (.htabLeafPair 15 1, []) := by decide

/-- v in bit 3 down to y in bit 0: the word 1000. -/
theorem test_decode_leaf_quad :
    decode .quadWord [0x08, 0x00] = .ok (.htabLeafQuad true false false false, []) := by decide

/-- R121 gives a pair leaf e[15:8] = 0 and a quad leaf e[15:4] = 0; words outside are rejected by name. -/
theorem test_decode_rejects : decode .pairWord [0x00, 0x01] = .error .notAPairLeaf ∧
    decode .quadWord [0x10, 0x00] = .error .notAQuadLeaf ∧ decode .command [0, 0, 0] = .error .truncated := by decide

/-! ## Control commands (T50, T60, T61) -/

/-- T60: a NOP from reset leaves STATUS 0x00000002. -/
theorem test_nop : (nextOf (runCommand State.reset)).map State.statusWord = some 0x00000002 := by decide

/-- T50: `cmd 0x7` leaves STATUS 0x00000014. -/
theorem test_reserved67 : (nextOf (exec (.reserved67 7) (started 7))).map State.statusWord = some 0x00000014 := by decide

/-- T50 at opcode 15, ended by its START. -/
theorem test_reserved8to15 : (start { State.reset with cmd := 15 }).statusWord = 0x00000014 := by decide

/-- T61, with a byte of each channel set before: CLRSTATE of channel 1 zeroes OVL[1] and V[1] alone. -/
theorem test_clrstate :
    (nextOf (exec (.clrstate .right)
      { State.reset with mem := [(0x5000, 1), (0x58FF, 2), (0x5900, 3), (0x8FFF, 4), (0x9FFF, 5)] })).map State.mem =
      some [(0x5000, 1), (0x58FF, 2), (0x8FFF, 4)] := by decide

/-! ## HUFF (T1 to T14) -/

/-- T1; it does not depend on OVERRUN_SLACK. -/
theorem test_huff_worked_example :
    ∀ k, huffOutcome k (huffState [0x61, 0x80] 0 0 9 2 0x00400001 0) = some (0x00000002, 8, 2, 9) := by decide +kernel

/-- T1: IS[0..4] = -1, 0, +1, -1, 0. -/
theorem test_huff_worked_spectrum :
    ∀ k, huffSpectrum k (huffState [0x61, 0x80] 0 0 9 2 0x00400001 0) 0 5 =
      some [some 0xFFFF, some 0, some 1, some 0xFFFF, some 0] := by decide +kernel

/-- T6: the quad 1111 with table B ends at 8; with E1 = 7 it is discarded under OVERRUN_SLACK 0 and kept under 1. -/
theorem test_huff_rollback :
    huffOutcome 0 (huffState [0x00] 0 0 7 0 0x00C00000 0) = some (0x00000402, 0, 0, 7) ∧
    huffOutcome 1 (huffState [0x00] 0 0 7 0 0x00C00000 0) = some (0x00000002, 4, 0, 7) ∧
    huffOutcome 0 (huffState [0x00] 0 0 8 0 0x00C00000 0) = some (0x00000002, 4, 0, 8) := by decide +kernel

/-- T3: big_values 300 is clamped; the cursor is realigned to 1. -/
theorem test_huff_clamp :
    ∀ k, huffOutcome k (huffState [] 0 0 1 300 0x00400000 0) = some (0x00000102, 576, 288, 1) := by decide +kernel

/-- T8: the quad at index 574 keeps its first two values. -/
theorem test_huff_partial_quad :
    ∀ k, huffSpectrum k (huffState [0x05, 0x40] 0 0 10 287 0x00400000 0) 574 2 = some [some 1, some 0xFFFF] := by decide +kernel

/-- T11: the pairs pass E1. -/
theorem test_huff_overrun :
    ∀ k, huffOutcome k (huffState [0xC0] 0 0 1 2 0x00400001 0) = some (0x00000802, 4, 2, 1) := by decide +kernel

/-- T51 and T53: BAD_SFB and BAD_TABLE. -/
theorem test_huff_errors :
    (nextOf (exec .huff (huffState [] 0 0 10 1 0x00000421 3))).map State.statusWord = some 0x00000034 ∧
    (nextOf (exec .huff (huffState [] 0 0 10 4 0x00400004 0))).map State.statusWord = some 0x00000024 := by decide +kernel

/-- T54: bit 32767 is read, bit 32768 is MDB_RANGE; HUF_BITPOS stays and IS is unwritten. -/
theorem test_huff_mdb_range :
    (nextOf (exec .huff { huffState [] 32767 32760 10 1 0x00400001 0 with mem := [(0x1FFF, 0), (0x2000, 1)] })).map
      (fun t => (t.statusWord, t.hufBitpos.toNat, t.mem)) = some (0x00000044, 0x7FFF, [(0x1FFF, 0)]) := by decide +kernel

/-- T2b: region boundaries with SRI 0 and 1. -/
theorem test_regions :
    (huffState [] 0 0 0 0 (7 * 32768 + 7 * 524288) 0).operands.regions = some (36, 162) ∧
    (huffState [] 0 0 0 0 (15 * 32768 + 7 * 524288) 0).operands.regions = some (162, 576) ∧
    (huffState [] 0 0 0 0 (15 * 32768 + 5 * 524288) 0).operands.regions = some (162, 576) ∧
    (huffState [] 0 0 0 0 (3 * 32768 + 2 * 524288) 0).operands.regions = some (16, 30) ∧
    (huffState [] 0 0 0 0 (8 * 32768) 1).operands.regions = some (42, 50) := by decide

/-- T5: escapes and signs after the leaf. -/
theorem test_escapes :
    pairValue [(0x1000, 0x80)] 1 15 0 = .ok (16, 2) ∧ pairValue [(0x1000, 0x40)] 1 15 0 = .ok (-15, 2) ∧
    pairValue [(0x1000, 0xFF), (0x1001, 0xFF)] 13 15 0 = .ok (-8206, 14) ∧
    pairValue [(0x1000, 0x50)] 4 15 0 = .ok (20, 5) ∧ pairValue [(0x1000, 0x80)] 0 15 0 = .ok (-15, 1) := by
  decide +kernel

/-- R123: tables with a leaf no walk reaches that is no leaf of the kind, with a walk that leaves the table, and with x = 2 in a
table of size 2 do not have its form; table 1 does. -/
theorem test_table_form :
    Config.tableOk (Config.pairLeafOk 2) [0x0000, 0x0100] = false ∧ Config.tableOk Config.quadLeafOk [0x0000, 0x0010] = false ∧
    Config.tableOk (Config.pairLeafOk 2) [0xFFFF, 0x0000] = false ∧ Config.tableOk (Config.pairLeafOk 2) [0x0020] = false ∧
    Config.tableOk (Config.pairLeafOk 2) (Config.pairWords 1) = true := by decide

/-- The arrays [-1, 0, 1] and [-1, 1, 0] spell different codes (R121: a 1 takes the offset). -/
theorem test_code_of : Config.codeOf [0xFFFF, 0x0000, 0x0001] = [([false], 0), ([true], 1)] ∧
    Config.codeOf [0xFFFF, 0x0001, 0x0000] = [([false], 1), ([true], 0)] := by decide

/-! ## Table words (30_encoding.md R122, table 1 of R127) -/

/-- The first bit of MDB is 0: the walk of table 1 moves from index 0 to 1, whose word is -3. -/
theorem test_branch :
    (nextOf (exec (.htabBranch 5) walking)).map State.engine =
      some (some ⟨1, some ⟨.pair 1, 1, 0xFFFD⟩, none⟩) := by decide

/-- With bit 1 = 1 read at index 0 the walk moves to 0 + 1 + 5 = 6, whose word is 0. -/
theorem test_branch_one :
    (nextOf (exec (.htabBranch 5) { walking with engine := some ⟨1, some ⟨.pair 1, 0, 0xFFFB⟩, none⟩ })).map State.engine =
      some (some ⟨2, some ⟨.pair 1, 6, 0⟩, none⟩) := by decide

theorem test_leaf_pair :
    (nextOf (exec (.htabLeafPair 1 0) walking)).map State.engine = some (some ⟨0, none, some (.pair 1 0)⟩) := by decide

theorem test_leaf_quad :
    (nextOf (exec (.htabLeafQuad true false true true) walking)).map State.engine =
      some (some ⟨0, none, some (.quad true false true true)⟩) := by decide

/-! ## ALIAS (T21) -/

/-- XR[10..25] = 1.0, nothing else written. -/
def aliasState : State :=
  { State.reset with mem := Memory.store [] (xrAddr 10) (wordListBytes (List.replicate 16 0x3F800000)) }

/-- T21: XR[10], XR[17], XR[18], XR[25] of boundary 0. -/
theorem test_alias :
    (nextOf (exec (.antialias .short true) aliasState)).map
      (fun t => (t.mem.word (xrAddr 10), t.mem.word (xrAddr 17), t.mem.word (xrAddr 18), t.mem.word (xrAddr 25))) =
      some (some 0x3F807904, some 0x3FAF9D53, some 0x3EAF9D54, some 0x3F7F0D12) := by decide +kernel

/-- T22: the forward butterflies 0 of (1, 0), 7 of (1, 0.5) and 0 of (0.25, -3). -/
theorem test_butterflies :
    butterflyLow 0x3F800000 0 0x3F5B84A8 0xBF03B5FE = 0x3F5B84A8 ∧
    butterflyHigh 0x3F800000 0 0x3F5B84A8 0xBF03B5FE = 0xBF03B5FE ∧
    (Config.cs[7]?.bind fun c => Config.ca[7]?.map fun a => butterflyLow 0x3F800000 0x3F000000 c a) = some 0x3F803C65 ∧
    (Config.cs[7]?.bind fun c => Config.ca[7]?.map fun a => butterflyHigh 0x3F800000 0x3F000000 c a) = some 0x3EFE1A96 := by
  decide +kernel

/-! ## HYBRID and SYNTH -/

theorem silent_xr : ∀ k, k < 576 → silent.mem.word (xrAddr k) = some F32.plusZero := fun k hk =>
  filled_word 0x3000 2304 (by unfold xrAddr; omega) (by unfold xrAddr; omega)

theorem reset_v (ch : Channel) : ∀ i, i < 1024 → silent.mem.word (vAddr ch i) = some F32.plusZero := fun i hi => by
  have hb : (List.replicate 2304 (some (0 : Byte))).length = 2304 := List.length_replicate ..
  have g : ∀ j, j < 4 → silent.mem.get (vAddr ch i + j) = some 0#8 := fun j hj => by
    have hr : 0x8000 ≤ vAddr ch i + j ∧ vAddr ch i + j < 0xA000 := by
      cases ch <;> simp only [vAddr, channelIndex] <;> omega
    rw [silent, filled, Memory.get_store_outside _ _ _ _ (by rw [hb]; omega), Memory.get_nil, unlisted,
      region_v hr.1 hr.2]
  have h0 := g 0 (by omega); have h1 := g 1 (by omega); have h2 := g 2 (by omega); have h3 := g 3 (by omega)
  simp only [Nat.add_zero] at h0
  simp only [Memory.word, h0, h1, h2, h3]
  rfl

/-- Overlap-add of 1.0 and 2.0 is 3.0; of -0 and -0 it is -0 (R217 of 41_antialias.md). -/
theorem test_overlap_add : overlapAdd 0 0x3F800000 0x40000000 = 0x40400000 ∧
    overlapAdd 0 0x80000000 0x80000000 = 0x80000000 := by decide +kernel

/-- The largest finite value with 0 added is in range; with 2^102 added the exact sum is not, though it would round back to
that value: the sample is free (R218 of 41_antialias.md). -/
theorem test_overlap_add_range : overlapAdd 5 0x7F7FFFFF 0 = 0x7F7FFFFF ∧
    F32.add 0x7F7FFFFF 0x72800000 = 0x7F7FFFFF ∧ overlapAdd 5 0x7F7FFFFF 0x72800000 = 5 := by decide +kernel

/-- T55: SYNTH of channel 1 in mono ends in BAD_CHANNEL, STATUS 0x00000054. -/
theorem test_synth_mono_right :
    (nextOf (exec (.synth .right .mono) (started 0x14))).map State.statusWord = some 0x00000054 := by decide

/-- T45: 0.5, -0.5, -1.0, -1.5, -10.5, 32767.5, -32768.5 under both readings. -/
theorem test_rounding :
    [0x3F000000, 0xBF000000, 0xBF800000, 0xBFC00000, 0xC1280000, 0x46FFFF00, 0xC7000080].map
      (fun s => (roundPcm .truncHalfNeg s, roundPcm .truncResultNeg s)) =
      [(1, 1), (0, 0), (-1, 0), (-2, -2), (-11, -11), (32767, 32767), (-32768, -32768)] := by decide +kernel

/-! ## The host's accesses -/

/-- T58: a misaligned 4-byte write into XR sets ACC_ERR and stores nothing. -/
theorem test_misaligned_write :
    (hostWrite 0x3002 .w4 1 State.reset).statusWord = 0x00020000 ∧ (hostWrite 0x3002 .w4 1 State.reset).mem = [] := by
  decide

/-- T63 and T64: STATUS is write-one-to-clear; BV_CLAMP stays. -/
theorem test_acknowledge :
    (hostWrite 0x000C .w4 4 { State.reset with status := { Status.zero with err := true, errCode := .badOpcode } }).statusWord
      = 0 ∧
    (hostWrite 0x000C .w4 0x102 { State.reset with status := { Status.zero with done := true, bvClamp := true } }).statusWord
      = 0x00000100 := by decide

/-- T65: irq follows DONE where DONE_IE is 1. -/
theorem test_irq : (nextOf (exec .nop { State.reset with irqEn := 1 })).map State.irq = some true := by decide

/-! ## States that meet the hypotheses of the obligations -/

theorem test_meets_DecodeInvertsEncode : WellFormed (.htabLeafPair 15 15) = true ∧ WellFormed (.htabBranch 1) = true ∧
    WellFormed (.htabLeafQuad true true true true) = true ∧ WellFormed (.hybrid .right .stop true) = true := by decide

/-- For each of OP 0 to 5 two words that differ wherever the row lists no field. -/
theorem test_meets_UnlistedFieldsAreIgnored :
    [(0x00000000, 0xFFFFFFF0), (0x00000001, 0xFFFFFFF1), (0x00000602, 0xFFFFFEF2), (0x00000603, 0xFFFFFEE3),
      (0x00001004, 0xFFFFFFE4), (0x00000015, 0xFFFFFFF5)].all (fun p : Word × Word =>
      let w := p.1
      let w' := p.2
      decide (w.field 0 4 = w'.field 0 4 ∧
        (w.field 0 4 = 2 ∨ w.field 0 4 = 3 → w.field 8 2 = w'.field 8 2 ∧ w.getLsbD 10 = w'.getLsbD 10) ∧
        (w.field 0 4 = 3 ∨ w.field 0 4 = 4 ∨ w.field 0 4 = 5 → w.getLsbD 4 = w'.getLsbD 4) ∧
        (w.field 0 4 = 4 → w.getLsbD 12 = w'.getLsbD 12))) = true := by decide

/-- The bits 0110 0000 hold the pair (-1, 0) of table 1, and 1110 0000 the quad (0, 0, 0, +1) of table B; the escapes of T5
with LINBITS 1 and 13, whose extra bits are all ones at most; a magnitude 15 with LINBITS 0; x and y of a pair of table 1. -/
theorem test_meets_ListedCodewordsDecode :
    (SmallValue (-1) ∧ SmallValue 0 ∧ HoldsBits [(0x1000, 0x60)] 0 (table1Bits (-1) 0)) ∧
    (SmallValue 1 ∧ HoldsBits [(0x1000, 0xE0)] 0 (quadBits true (0, 0, 0, 1))) ∧
    (1 < 2 ^ 1 ∧ HoldsBits [(0x1000, 0x80)] 0 (bitsMsb 1 1 ++ [false])) ∧
    (8191 < 2 ^ 13 ∧ HoldsBits [(0x1000, 0xFF), (0x1001, 0xFF)] 0 (bitsMsb 13 8191 ++ [true])) ∧
    ((0 = 0 ∨ (15 : Nat) ≠ 15) ∧ (15 : Nat) ≠ 0 ∧ HoldsBits [(0x1000, 0x80)] 0 [true]) ∧
    ((13 = 0 ∨ (14 : Nat) ≠ 15) ∧ HoldsBits [(0x1FFF, 0x00)] 32767 [false]) ∧
    (walk (Config.pairWords 1) [(0x1000, 0x60)] 0 = .ok (16, 2) ∧
      pairValue [(0x1000, 0x60)] (Config.linbits 1) ((16 : Half).toNat / 16) 2 = .ok (-1, 3) ∧
      pairValue [(0x1000, 0x60)] (Config.linbits 1) ((16 : Half).toNat % 16) 3 = .ok (0, 3)) := by
  refine ⟨⟨by unfold SmallValue; decide, by unfold SmallValue; decide, fun j h => ?_⟩, ⟨by unfold SmallValue; decide,
    fun j h => ?_⟩, ⟨by decide, fun j h => ?_⟩, ⟨by decide, fun j h => ?_⟩, ⟨by decide, by decide, fun j h => ?_⟩,
    ⟨by decide, fun j h => ?_⟩, rfl, rfl, rfl⟩
  · have h' : j < 3 := h
    interval_cases j <;> rfl
  · have h' : j < 5 := h
    interval_cases j <;> rfl
  · have h' : j < 2 := h
    interval_cases j <;> rfl
  · have h' : j < 14 := h
    interval_cases j <;> rfl
  · have h' : j < 1 := h
    interval_cases j; rfl
  · have h' : j < 1 := h
    interval_cases j; rfl

theorem test_meets_WalksEndAtLeaves :
    walk (Config.pairWords 1) [(0x1000, 0x60)] 0 = .ok (16, 2) ∧ walk (Config.quadWords true) [(0x1000, 0xF0)] 0 = .ok (0, 4) ∧
    walk (Config.quadWords false) [(0x1000, 0x80)] 0 = .ok (0, 1) ∧
    17 ∈ Config.pairWords 1 ∧ (17 : Half).getLsbD 15 = false ∧ 15 ∈ Config.quadWords false ∧ (15 : Half).getLsbD 15 = false ∧
    ([false, true], 16) ∈ Config.pairCode (Config.codeTable 1) ∧ ([true], 0) ∈ Config.quadCode false ∧
    ([true, true, true, true], 0) ∈ Config.quadCode true := by decide

/-- The state after the START of an HYBRID, with no input left and with the sequencer next; a walk under way, at a table word
and at one that is none; and an idle state with no input, with the sequencer's turn and with an access of the host. -/
theorem test_meets_StepRunsDecodedInstruction :
    (∃ snap, (started 0x313).phase = .busy snap ∧ (started 0x313).inputs = [] ∧
      decode (fetch snap (started 0x313).engine).1 (fetch snap (started 0x313).engine).2 =
        .ok (.hybrid .right .stop false, [])) ∧
    (∃ snap, (State.reset.withCommand 1).phase = .busy snap ∧ (State.reset.withCommand 1).inputs = .sequencer :: [] ∧
      decode (fetch snap (State.reset.withCommand 1).engine).1 (fetch snap (State.reset.withCommand 1).engine).2 =
        .ok (.huff, [])) ∧
    (∃ snap, walking.phase = .busy snap ∧ walking.inputs = [] ∧
      decode (fetch snap walking.engine).1 (fetch snap walking.engine).2 = .ok (.htabBranch 5, [])) ∧
    decodeTableHalf (TableId.pair 1).form 0xFFFB = .ok (.htabBranch 5) ∧
    (let s := { walking with engine := some ⟨0, some ⟨.pair 1, 0, 0x0100⟩, none⟩ }
      ∃ snap, s.phase = .busy snap ∧ s.inputs = [] ∧ decodeTableHalf (TableId.pair 1).form 0x0100 = .error .notAPairLeaf) ∧
    (State.reset.phase = .idle ∧ State.reset.inputs = []) ∧
    ({ State.reset with inputs := [.sequencer] } : State).inputs = .sequencer :: [] ∧
    ({ State.reset with inputs := [.read 0x000C .w4, .sequencer] } : State).inputs = .read 0x000C .w4 :: [.sequencer] ∧
    ({ started 1 with inputs := [.write 0x0008 .w4 2] } : State).inputs = .write 0x0008 .w4 2 :: [] :=
  ⟨⟨_, rfl, rfl, rfl⟩, ⟨_, rfl, rfl, rfl⟩, ⟨_, rfl, rfl, rfl⟩, rfl, ⟨_, rfl, rfl, rfl⟩, ⟨rfl, rfl⟩, rfl, rfl, rfl⟩

/-- A word of a walk that is no table word is refused by name; an idle block at its turn stays as it is, but for the turn. -/
theorem test_step_edges :
    step { walking with engine := some ⟨0, some ⟨.pair 1, 0, 0x0100⟩, none⟩ } = .refused .notATableWord ∧
    step { State.reset with inputs := [.sequencer] } = .next State.reset := ⟨rfl, rfl⟩

/-- A host write, then a host read, one step each (T63's write of CMD: 10_state.md R33). -/
theorem test_step_accesses :
    ((nextOf (step { State.reset with inputs := [.write 0x0004 .w4 0x313, .read 0x0004 .w4] })).bind
      (fun t => nextOf (step t))).map (fun t => (t.cmd, t.readData, t.inputs)) = some (0x313, 0x313, []) := by decide

theorem test_meets_TableWordsComputeTheWalk :
    ∃ snap, walking.phase = .busy snap ∧ walking.inputs = [] ∧ walking.engine = some ⟨0, some ⟨.pair 1, 0, 0xFFFB⟩, none⟩ ∧
      (TableId.pair 1).words[0]? = some 0xFFFB ∧ walk (TableId.pair 1).words walking.mem 0 = .ok (16, 2) :=
  ⟨_, rfl, rfl, rfl, rfl, rfl⟩

theorem test_meets_BranchWordMovesTheWalk :
    walking.engine = some ⟨0, some ⟨.pair 1, 0, 0xFFFB⟩, none⟩ ∧
    walking.mem.get (0x1000 + 0 / 8) = some 0x61 ∧ false = (0x61 : Byte).getLsbD (7 - 0 % 8) ∧
    true = (0x61 : Byte).getLsbD (7 - 1 % 8) ∧
    Memory.get [(0x1FFF, 0)] (0x1000 + 32767 / 8) = some 0 ∧ 32767 < 32768 ∧
    ({ walking with engine := some ⟨32768, some ⟨.pair 1, 0, 0xFFFB⟩, none⟩ } : State).engine =
      some ⟨32768, some ⟨.pair 1, 0, 0xFFFB⟩, none⟩ ∧
    (TableId.pair 1).words[0 + 1]? = some 0xFFFD ∧ (TableId.pair 1).words[0 + 1 + 5]? = some 0 ∧
    State.reset.engine = none ∧
    ({ walking with engine := some ⟨0, none, none⟩ } : State).engine = some ⟨0, none, none⟩ := by decide

theorem test_meets_LeafWordsEndTheWalk : walking.engine = some ⟨0, some ⟨.pair 1, 0, 0xFFFB⟩, none⟩ ∧
    State.reset.engine = none := by decide

/-- A state with the invariant, whose command runs: its step answers a next state. -/
theorem test_meets_StepKeepsTheInvariant : (started 5).Inv ∧ (started 5).busy = true ∧ ∃ t, step (started 5) = .next t :=
  ⟨by decide, rfl, _, rfl⟩

/-- The same inside a walk, and for a memory that holds something. -/
theorem test_meets_StepKeepsMemoryCanonical :
    walking.mem.wf = true ∧ walking.mem ≠ [] ∧ walking.Inv ∧ ∃ t, step walking = .next t :=
  ⟨by decide, by decide, by decide, of_nextOf (by decide)⟩

theorem test_meets_StepLeavesNoHalfDoneCommand : (started 1).engine = none ∧
    ∃ t, step { huffState [] 0 0 0 0 0 0 with phase := .busy (huffState [] 0 0 0 0 0 0).parameters, cmd := 1 } = .next t :=
  ⟨rfl, of_nextOf (by decide +kernel)⟩

/-- The two ends of MDB, a host write to another memory next. -/
theorem test_meets_OnlyTheHostWritesMdb :
    region 0x1000 = .mdb ∧ region 0x1FFF = .mdb ∧ region (0x3000#16).toNat ≠ .mdb ∧
    ∃ t, step { State.reset with inputs := [.write 0x3000 .w4 1] } = .next t := ⟨rfl, rfl, by decide, _, rfl⟩

theorem test_meets_ResetState :
    Reg.hufBveff ≠ .id ∧ region 0x1000 = .mdb ∧ region 0x1FFF = .mdb ∧ region 0x2000 = .is ∧ region 0x247F = .is ∧
    region 0x3000 = .xr ∧ region 0x38FF = .xr ∧ region 0x4000 = .pcm ∧ region 0x48FF = .pcm ∧ region 0x5000 = .ovl ∧
    region 0x61FF = .ovl ∧ region 0x8000 = .v ∧ region 0x9FFF = .v ∧
    ({ started 1 with inputs := [.powerOn] } : State).inputs = .powerOn :: [] := by decide

theorem silent_written : silent.mem.Written (xrAddr 0) 2304 := fun j hj => by
  rw [show silent.mem = filled 0x3000 2304 0 from rfl, filled_get _ _ _ (by unfold xrAddr; omega) (by unfold xrAddr; omega)]
  rfl

theorem hybrid_completes (ch : Channel) (bt : BlockType) (mixed : Bool) : ∃ t, exec (.hybrid ch bt mixed) silent = .next t := by
  have h := hybridSubbands_isSome (s := silent) (ch := ch) (bt := bt) (mixed := mixed) (n := 32) (sb := 0) le_rfl silent_written
  obtain ⟨⟨xs, os⟩, h⟩ := Option.isSome_iff_exists.mp h
  simp only [exec, execHybrid, h]
  exact ⟨_, rfl⟩

theorem synth_completes (ch : Channel) (nch : Packing) : ∃ t, exec (.synth ch nch) silent = .next t := by
  by_cases hb : badChannel ch nch = true
  · refine ⟨raiseError .badChannel silent, ?_⟩
    simp only [exec, execSynth, hb, if_true]
  · have hX : readXr silent.mem 32 0 = some (zeros 576) :=
      readXr_eq (zeros_length 576) fun k hk => by
        rw [zeros_getElem, Nat.mul_zero, Nat.zero_add]
        exact silent_xr k (by rwa [zeros_length] at hk)
    have hV : readHistory silent.mem ch 16 0 = some (zeros 1024) :=
      readHistory_eq (zeros_length 1024) fun k hk => by
        rw [zeros_getElem, Nat.mul_zero, Nat.zero_add]
        exact reset_v ch k (by rwa [zeros_length] at hk)
    refine ⟨finish (commitSynth ch nch (zeros 576) (zeros 1024) silent), ?_⟩
    simp only [exec, execSynth, hX, hV, if_neg hb]

/-- Every instruction answers a next state somewhere: the premise of every frame, none of them an error. -/
theorem test_meets_CommandsKeepConfiguration :
    (∃ t, exec .nop State.reset = .next t) ∧
    (∃ t, exec .huff (huffState [0x61, 0x80] 0 0 9 2 0x00400001 0) = .next t ∧ t.status.err = false) ∧
    (∃ t, exec (.antialias .short true) aliasState = .next t) ∧
    (∀ ch bt mixed, ∃ t, exec (.hybrid ch bt mixed) silent = .next t) ∧
    (∀ ch nch, ∃ t, exec (.synth ch nch) silent = .next t) ∧
    (∀ ch, ∃ t, exec (.clrstate ch) State.reset = .next t) ∧
    (∃ t, exec (.reserved67 6) State.reset = .next t) ∧ (∃ t, exec (.reserved8to15 8) State.reset = .next t) ∧
    (∃ t, exec (.htabBranch 5) walking = .next t) ∧ (∃ t, exec (.htabLeafPair 1 0) walking = .next t) ∧
    (∃ t, exec (.htabLeafQuad true false true true) walking = .next t) := by
  refine ⟨⟨_, rfl⟩, ?_, of_nextOf (by decide +kernel), hybrid_completes, synth_completes, fun ch => ⟨_, rfl⟩, ⟨_, rfl⟩,
    ⟨_, rfl⟩, ⟨_, rfl⟩, ⟨_, rfl⟩, ⟨_, rfl⟩⟩
  obtain ⟨t, h, he⟩ := huff_next (s := huffState [0x61, 0x80] 0 0 9 2 0x00400001 0) (fun t => !t.status.err) (by decide +kernel)
  exact ⟨t, h, by simpa using he⟩

theorem test_meets_OnlyHuffWritesResults : (Instr.clrstate .left) ≠ .huff ∧ ∃ t, exec (.clrstate .left) (started 5) = .next t :=
  ⟨by decide, _, rfl⟩

theorem test_meets_DataCommandsKeepTheirRegisters :
    (huffState [0x61, 0x80] 0 0 9 2 0x00400001 0).status.err = false ∧ ¬ (Channel.right = .right ∧ Packing.stereo = .mono) ∧
    ¬ (Channel.left = .right ∧ Packing.mono = .mono) := by decide

/-- BAD_SFB, and MDB_RANGE with IS written before. -/
theorem test_meets_ErrorsArePrecise :
    State.reset.status.err = false ∧
    (∃ t, exec .huff (huffState [] 0 0 10 1 0x00000421 3) = .next t ∧ t.status.err = true ∧ t.status.errCode ≠ .mdbRange) ∧
    (∃ t, exec .huff (huffState [] 32768 0 10 1 0x00400001 0) = .next t ∧ t.status.err = true ∧
      t.status.errCode = .mdbRange) := by
  refine ⟨rfl, ⟨_, rfl, rfl, ?_⟩, ⟨_, rfl, rfl, rfl⟩⟩
  intro h; cases h

/-- Addresses at the edges of what each command stores; `test_meets_CommandsKeepConfiguration` gives the next states. -/
theorem test_meets_CommandsStoreOnlyTheirEntries :
    (0x1FFF < isAddr 0 ∧ isAddr 0 + 1152 ≤ 0x2480) ∧
    (∀ sb, sb < boundaryCount .short true → xrAddr 10 - 1 < xrAddr (18 * sb + 10)) ∧
    (∀ sb, sb < boundaryCount .short true → xrAddr (18 * sb + 26) ≤ xrAddr 26) ∧
    (region 0x58FF ≠ .xr ∧ 0x58FF < ovlAddr .right 0 0 ∧ ovlAddr .left 32 0 ≤ 0x5900) ∧
    (∀ n, n < 576 → 0x8000 ≤ vAddr .left 0 ∧ pcmAddr (pcmIndex .right .stereo n + 1) ≤ 0x4900) ∧
    region 0x1FFF ≠ .is := by
  refine ⟨by decide, fun sb h => ?_, fun sb h => ?_, by decide, fun n h => ?_, by decide⟩
  · have : sb < 1 := h
    simp only [xrAddr]; omega
  · have : sb < 1 := h
    simp only [xrAddr]; omega
  · simp only [vAddr, channelIndex, pcmAddr, pcmIndex]; omega

/-- Reset's CMD, and a CMD whose other fields are all ones. -/
theorem test_meets_NopCompletes : State.reset.phase = .idle ∧ State.reset.cmd.field 0 4 = 0 ∧
    ({ State.reset with cmd := 0x1710 } : State).cmd.field 0 4 = 0 := by decide

theorem test_meets_ClrstateZeroesItsChannel :
    Word.field 0x00000005 0 4 = 5 ∧ Word.field 0x00000015 0 4 = 5 ∧
    ovlAddr .right 0 0 ≤ 0x5900 ∧ 0x61FF < ovlAddr .right 32 0 ∧ vAddr .right 0 ≤ 0x9000 ∧ 0x9FFF < vAddr .right 1024 ∧
    0x58FF < ovlAddr .right 0 0 ∧ 0x8FFF < vAddr .right 0 := by decide

theorem test_meets_ReservedOpcodesRaiseBadOpcode :
    ({ State.reset with cmd := 6 } : State).phase = .idle ∧ 6 ≤ ({ State.reset with cmd := 6 } : State).cmd.field 0 4 ∧
    6 ≤ ({ State.reset with cmd := 15 } : State).cmd.field 0 4 := by decide

/-- The fields of HUF_TABLES one by one, each all ones (R42): TS0, TS1, TS2, R0CNT, R1CNT, WS, C1SEL. -/
theorem test_tables_layout :
    [0x1F, 0x3E0, 0x7C00, 0x78000, 0x380000, 0x400000, 0x800000].map (fun w =>
      let ops := (huffState [] 0 0 0 0 w 0).operands
      (ops.ts0, ops.ts1, ops.ts2, ops.r0cnt, ops.r1cnt, ops.ws, ops.c1sel)) =
      [(31, 0, 0, 0, 0, false, false), (0, 31, 0, 0, 0, false, false), (0, 0, 31, 0, 0, false, false),
        (0, 0, 0, 15, 0, false, false), (0, 0, 0, 0, 7, false, false), (0, 0, 0, 0, 0, true, false),
        (0, 0, 0, 0, 0, false, true)] := rfl

theorem test_meets_RegionBoundariesAreEvenAndOrdered :
    (∃ snap, (started 1).phase = .busy snap) ∧ State.reset.phase = .idle ∧
    (huffState [] 0 0 0 0 0 0).operands.regions = some (4, 8) ∧
    (huffState [] 0 0 0 0 (15 * 32768 + 7 * 524288) 2).operands.regions = some (194, 576) ∧
    (huffState [] 0 0 0 0 0x00400000 3).operands.regions = some (36, 576) ∧
    (huffState [] 0 0 0 0 0x00400000 3).operands.ws = true ∧
    (let ops := (huffState [] 0 0 0 0 0 3).operands; ops.ws = false ∧ ops.sri = 3) ∧
    (let ops := (huffState [] 0 0 0 0 (15 * 32768 + 5 * 524288) 0).operands;
      ops.ws = false ∧ ops.sri ≠ 3 ∧ ops.r0cnt + ops.r1cnt + 2 = 22) ∧
    (let ops := (huffState [] 0 0 0 0 (15 * 32768 + 6 * 524288) 2).operands;
      ops.ws = false ∧ ops.sri ≠ 3 ∧ ops.r0cnt + ops.r1cnt + 2 = 23) := ⟨⟨_, rfl⟩, rfl, by decide⟩

/-- T4: P2START 100, length 0, big_values 400, table 4; MDB and IS unwritten. -/
theorem test_meets_EmptyGranuleIsSilence : (huffState [] 0 100 0 400 0x00400004 0).operands.hufGranule.field 0 12 = 0 := by
  decide

/-- T51. -/
theorem test_meets_ReservedRateRaisesBadSfb :
    (huffState [] 0 0 10 1 0x00000421 3).operands.hufGranule.field 0 12 ≠ 0 ∧
    (huffState [] 0 0 10 1 0x00000421 3).operands.hufTables.getLsbD 22 = false ∧
    (huffState [] 0 0 10 1 0x00000421 3).operands.hufSfbsel.field 0 2 = 3 := by decide

/-- T53; table 14 in the second region, reached at big_values 19 and not at 18; table 4 in the third. -/
theorem test_meets_MissingTableRaisesBadTable :
    (let ops := (huffState [] 0 0 10 4 0x00400004 0).operands;
      ops.hufGranule.field 0 12 ≠ 0 ∧ ops.regions = some (36, 576) ∧ 0 < ops.bv ∧ ops.ts0 = 4) ∧
    (let ops := (huffState [] 0 0 10 19 (0x00400001 + 14 * 32) 0).operands;
      ops.hufGranule.field 0 12 ≠ 0 ∧ ops.regions = some (36, 576) ∧ 36 < 2 * ops.bv ∧ ops.ts1 = 14) ∧
    (let ops := (huffState [] 0 0 10 18 (0x00400001 + 14 * 32) 0).operands;
      ops.regions = some (36, 576) ∧ ¬ ((0 < ops.bv ∧ (ops.ts0 = 4 ∨ ops.ts0 = 14)) ∨
        (36 < 2 * ops.bv ∧ (ops.ts1 = 4 ∨ ops.ts1 = 14)) ∨ (576 < 2 * ops.bv ∧ (ops.ts2 = 4 ∨ ops.ts2 = 14)))) ∧
    (let ops := (huffState [] 0 0 10 5 (4 * 1024) 0).operands;
      ops.hufGranule.field 0 12 ≠ 0 ∧ ops.regions = some (4, 8) ∧ 8 < 2 * ops.bv ∧ ops.ts2 = 4) ∧
    State.reset.status.errCode ≠ .badTable := by decide

/-- MDB all written, one pair of table 1 at either end of MDB; a first walk of a pair at the end of MDB and past it, and one
of a quad. -/
theorem test_meets_HuffCompletes :
    (∃ s : State, s.operands.part23Len ≠ 0 ∧ s.operands.regions = some (36, 576) ∧ s.operands.tablesOk 36 576 = true ∧
      s.mem.Written (mdbAddr 0) 4096 ∧ s.operands.pos + s.operands.readBound ≤ 32768) ∧
    [32768, 40000].all (fun pos =>
      let ops := (huffState [] pos pos 10 1 0x00400001 0).operands
      decide (ops.part23Len ≠ 0) && decide (ops.regions = some (36, 576)) && ops.tablesOk 36 576 && decide (32768 ≤ ops.pos) &&
        decide (0 < ops.bv) && decide ((Config.pairWords ops.ts0)[0]? = some 0xFFFB) && (0xFFFB : Half).getLsbD 15) = true ∧
    (let ops := (huffState [] 32768 32768 10 0 0x00400001 0).operands;
      ops.part23Len ≠ 0 ∧ ops.regions = some (36, 576) ∧ ops.tablesOk 36 576 = true ∧ 32768 ≤ ops.pos ∧ ops.bv = 0 ∧
        ops.pos < ops.p2start + ops.part23Len) := by
  refine ⟨⟨{ huffState [] 0 0 10 1 0x00400001 0 with mem := filled 0x1000 4096 0 }, by decide, by decide, by decide,
    fun j hj => ?_, by decide⟩, by decide, by decide⟩
  show ((filled 0x1000 4096 0).get (mdbAddr 0 + j)).isSome = true
  rw [filled_get _ _ _ (by unfold mdbAddr; omega) (by unfold mdbAddr; omega)]
  rfl

theorem test_meets_SpectrumValuesAreBounded :
    let s := huffState [0x61, 0x80] 0 0 9 2 0x00400001 0
    (∃ r, huffDecode 0 s.operands s.mem = .ok r) ∧ ∃ r, huffDecode 1 s.operands s.mem = .ok r := ⟨⟨_, rfl⟩, _, rfl⟩

/-- The granule of T1, pairs (-1, 0) and (1, -1) and one quad 0000, in region 0; and that of T2, six pairs in the three
regions 0 to 3, 4 to 7 and 8 up, coded with tables 1, 0 and 1. -/
theorem test_meets_HuffDecodesAnEncodedGranule :
    (let s := huffState [0x61, 0x80] 0 0 9 2 0x00400421 0
      let pairs : List (Int × Int) := [(-1, 0), (1, -1)]
      let quads : List (Int × Int × Int × Int) := [(0, 0, 0, 0)]
      let bits := codedPairs (fun _ => 1) 0 pairs ++ quads.flatMap (quadBits s.operands.c1sel)
      (∀ k : Nat, 1 = if k < 36 then s.operands.ts0 else if k < 576 then s.operands.ts1 else s.operands.ts2) ∧
      CodablePairs (fun _ => 1) 0 pairs ∧
      (∀ q ∈ quads, SmallValue q.1 ∧ SmallValue q.2.1 ∧ SmallValue q.2.2.1 ∧ SmallValue q.2.2.2) ∧
      2 * pairs.length + 4 * quads.length ≤ 576 ∧ s.operands.bigValues = pairs.length ∧
      s.operands.regions = some (36, 576) ∧ s.operands.part23Len ≠ 0 ∧ HoldsBits s.mem s.operands.pos bits ∧
      s.operands.p2start + s.operands.part23Len = s.operands.pos + bits.length) ∧
    (let s := huffState [0x01, 0xA8] 0 0 13 6 0x00000401 0
      let pairs : List (Int × Int) := [(1, 1), (0, -1), (0, 0), (0, 0), (1, 0), (0, 0)]
      let table : Nat → Nat := fun k => if k < 4 then s.operands.ts0 else if k < 8 then s.operands.ts1 else s.operands.ts2
      CodablePairs table 0 pairs ∧ 2 * pairs.length + 4 * 0 ≤ 576 ∧ s.operands.bigValues = pairs.length ∧
      s.operands.regions = some (4, 8) ∧ s.operands.part23Len ≠ 0 ∧
      HoldsBits s.mem s.operands.pos (codedPairs table 0 pairs) ∧
      s.operands.p2start + s.operands.part23Len = s.operands.pos + (codedPairs table 0 pairs).length) := by
  refine ⟨⟨fun k => ?_, by simp [CodablePairs], by unfold SmallValue; decide, by decide, by decide, by decide, by decide,
    fun j h => ?_, by decide⟩, ?_, by decide, by decide, by decide, by decide, fun j h => ?_, by decide⟩
  · show 1 = if k < 36 then 1 else if k < 576 then 1 else 1
    simp
  · have h' : j < 9 := h
    interval_cases j <;> rfl
  · simp only [CodablePairs]; decide
  · have h' : j < 13 := h
    interval_cases j <;> rfl

/-- T6 at E1 = 6 to 8: the quad ends at 8, so slack 0 discards it at 6 and 7, slack 1 at 6. -/
theorem test_meets_OverrunDiscardsOneQuad :
    [6, 7, 8].all (fun len =>
      let s := huffState [0x00] 0 0 len 0 0x00C00000 0
      let ops := s.operands
      decide (ops.part23Len ≠ 0) && decide (ops.regions = some (36, 576)) && ops.tablesOk 36 576 &&
        decide (decodePairs ops 36 576 s.mem ops.bv 0 ops.pos = .ok ([], 0)) &&
        decide (decodeQuads s.mem ops.c1sel (ops.p2start + ops.part23Len) 144 (2 * ops.bv) 0 = .ok ([1, 1, 1, 1], 8))) = true ∧
    (Config.overrunSlack = 0 ∨ Config.overrunSlack = 1) := by
  refine ⟨by decide, ?_⟩
  have := Config.overrunSlack_le
  omega

/-- The two pairs of T1, one after the other, the quad behind them, and the loop's two ends. -/
theorem test_meets_OverrunDiscardsOneQuad_loops :
    let s := huffState [0x61, 0x80] 0 0 9 2 0x00400001 0
    let ops := s.operands
    (decodePair s.mem (if 0 < 36 then ops.ts0 else if 0 < 576 then ops.ts1 else ops.ts2) 0 = .ok ([-1, 0], 3) ∧
      decodePairs ops 36 576 s.mem 1 2 3 = .ok ([1, -1], 8)) ∧
    (4 < 576 ∧ 8 < 9 ∧ decodeQuad s.mem ops.c1sel 8 = .ok ([0, 0, 0, 0], 9) ∧
      decodeQuads s.mem ops.c1sel 9 143 8 9 = .ok ([], 9)) ∧
    (576 ≤ 576 ∨ 9 ≤ 0) ∧ (576 ≤ 0 ∨ 9 ≤ 9) := by decide +kernel

/-- Two states that differ in CMD, in XR and in a result register; both complete, and both fault with MDB unwritten. -/
theorem test_meets_HuffReadsOnlyItsOperands :
    let s := huffState [0x61, 0x80] 0 0 9 2 0x00400001 0
    let s' := { s with cmd := 0x1701, hufNonzero := 5, mem := s.mem ++ [(0x3000, 7)] }
    { s.operands with cmd := 0#32 } = { s'.operands with cmd := 0#32 } ∧
    (∀ a, region a = .mdb → s.mem.get a = s'.mem.get a) ∧ s.status = s'.status ∧ (∃ t, exec .huff s = .next t) ∧
    exec .huff { s with mem := [] } = .fault .unwrittenRead := by
  refine ⟨by decide, fun a h => ?_, rfl, (huff_next (fun _ => true) (by decide +kernel)).imp fun _ h => h.1, rfl⟩
  have ha : a ≠ 0x3000 := by rintro rfl; cases h
  show _ = Memory.get (_ ++ _) a
  rw [Memory.get_append]
  split
  · rfl
  · rename_i hn
    have hnone : (huffState [0x61, 0x80] 0 0 9 2 0x00400001 0).mem.find? (fun c => c.1 == a) = none := by
      rw [List.find?_eq_none]
      intro c hc hc'
      exact hn (List.any_eq_true.mpr ⟨c, hc, hc'⟩)
    simp only [Memory.get, hnone, List.find?_cons, List.find?_nil]
    rw [show ((0x3000 : Nat) == a) = false by simpa using fun h => ha h.symm]

theorem test_meets_AliasAppliesItsButterflies :
    (∀ sb, sb < boundaryCount .normal false → silent.mem.Written (xrAddr (18 * sb + 10)) 64) ∧
    (∃ lo up, aliasState.mem.word (xrAddr 17) = some lo ∧ aliasState.mem.word (xrAddr 18) = some up) ∧
    Config.cs[7]? = some 0x3F7FFF8D ∧ Config.ca[7]? = some 0xBB727B46 ∧
    (F32.isNaN 0x3F800000 = false ∧ F32.isNaN 0x7F800000 = false ∧ F32.isNaN 0xFF800000 = false) ∧
    (F32.isNaN 0x7FC00000 = true ∧ F32.isNaN 0x7F800001 = true ∧ F32.isNaN 0xFFFFFFFF = true) := by
  refine ⟨fun sb h j hj => ?_, ⟨_, _, rfl, rfl⟩, by decide, by decide, by decide, by decide⟩
  have h' : sb < 31 := h
  rw [show silent.mem = filled 0x3000 2304 0 from rfl, filled_get _ _ _ (by unfold xrAddr; omega) (by unfold xrAddr; omega)]
  rfl

theorem test_meets_AliasSkipsPureShortBlocks : BlockType.stop ≠ .short := by decide

theorem test_meets_AliasNeverTouchesMiddleEntries :
    (∃ t, exec (.antialias .short true) aliasState = .next t) ∧ 18 * 0 + 9 ≤ 9 ∧ 566 ≤ 18 * 31 + 8 :=
  ⟨of_nextOf (by decide +kernel), by decide, by decide⟩

theorem test_meets_AliasKeepsSilence : ∀ k, k < 576 → silent.mem.word (xrAddr k) = some F32.plusZero := silent_xr

/-- 1 + 2^-24 is a tie between 1 and 1 + 2^-23: the sum is the even 1, the other is as near. The largest finite value with
2^103 added is the midpoint above it, with the value below 2^103 it stays finite. -0 + -0, 1 - 1, NaN, both infinities. -/
theorem test_meets_AdditionRoundsToNearestEven :
    F32.isFinite 0x3F800000 = true ∧ F32.isFinite 0x33800000 = true ∧ F32.isFinite 0x3F800001 = true ∧
    F32.add 0x3F800000 0x33800000 = 0x3F800000 ∧
    |F32.units (F32.add 0x3F800000 0x33800000) - (F32.units 0x3F800000 + F32.units 0x33800000)| =
      |F32.units 0x3F800001 - (F32.units 0x3F800000 + F32.units 0x33800000)| ∧
    F32.units 0x3F800001 ≠ F32.units (F32.add 0x3F800000 0x33800000) ∧
    F32.isFinite 0x7F7FFFFF = true ∧ F32.isFinite 0x73000000 = true ∧ F32.isFinite 0x72FFFFFF = true ∧
    F32.isFinite (F32.add 0x7F7FFFFF 0x73000000) = false ∧ F32.isFinite (F32.add 0x7F7FFFFF 0x72FFFFFF) = true ∧
    F32.units 0x80000000 + F32.units 0x80000000 = 0 ∧ F32.units 0x3F800000 + F32.units 0xBF800000 = 0 ∧
    F32.isNaN 0x7FC00000 = true ∧
    (F32.isInf 0x7F800000 = true ∧ F32.isInf 0xFF800000 = true ∧ F32.sign 0x7F800000 ≠ F32.sign 0xFF800000) := by
  decide +kernel

/-- (1 + 2^-23) * 1.5 is a tie: the product is the even neighbour. The largest finite value times 1 is finite,
times the value above 1 it is not. Zero, NaN and infinity as the other operand of an infinity. -/
theorem test_meets_MultiplicationRoundsToNearestEven :
    F32.isFinite 0x3F800001 = true ∧ F32.isFinite 0x3FC00000 = true ∧ F32.isFinite 0x3FC00001 = true ∧
    F32.mul 0x3F800001 0x3FC00000 = 0x3FC00002 ∧
    |F32.units (F32.mul 0x3F800001 0x3FC00000) * 2 ^ 149 - F32.units 0x3F800001 * F32.units 0x3FC00000| =
      |F32.units 0x3FC00001 * 2 ^ 149 - F32.units 0x3F800001 * F32.units 0x3FC00000| ∧
    F32.units 0x3FC00001 ≠ F32.units (F32.mul 0x3F800001 0x3FC00000) ∧
    F32.isFinite 0x7F7FFFFF = true ∧ F32.isFinite 0x3F800000 = true ∧
    F32.isFinite (F32.mul 0x7F7FFFFF 0x3F800001) = false ∧ F32.isFinite (F32.mul 0x7F7FFFFF 0x3F800000) = true ∧
    F32.isNaN 0x7FC00000 = true ∧
    (F32.isInf 0xFF800000 = true ∧ F32.isNaN 0x80000000 = false ∧ F32.isZero 0x80000000 = true) ∧
    (F32.isNaN 0x00000001 = false ∧ F32.isZero 0x00000001 = false) ∧ F32.isNaN 0x7F800000 = false := by decide +kernel

theorem silent_subband (sb : Nat) (h : sb < 32) :
    silent.mem.words (xrAddr (18 * sb)) 18 = some (zeros 18) := by
  rw [Memory.words_eq]
  refine Memory.wordsFrom_eq (zeros_length 18) fun k hk => ?_
  rw [zeros_getElem]
  rw [zeros_length] at hk
  rw [show xrAddr (18 * sb) + 4 * k = xrAddr (18 * sb + k) by unfold xrAddr; omega]
  exact silent_xr _ (by omega)

theorem silent_ovl : silent.mem.word (ovlAddr .left 0 0) = some F32.plusZero ∧
    silent.mem.word (ovlAddr .right 31 17) = some F32.plusZero := by decide +kernel

/-- The first and the last subband, the first and the last index. -/
theorem test_meets_HybridOverlapAddsEverySubband :
    silent.mem.Written (xrAddr 0) 2304 ∧
    (∃ X, silent.mem.words (xrAddr (18 * 0)) 18 = some X) ∧ (∃ X, silent.mem.words (xrAddr (18 * 31)) 18 = some X) ∧
    (∃ v, silent.mem.word (ovlAddr .left 0 0) = some v) ∧ (∃ v, silent.mem.word (ovlAddr .right 31 17) = some v) ∧
    (true = true ∧ 1 < 2) ∧ (true = false ∨ 2 ≤ 2) ∧ (false = false ∨ 2 ≤ 0) ∧
    (F32.isFinite 0x7F7FFFFF = true ∧ F32.isFinite 0x00000000 = true ∧ F32.isFinite 0x00000001 = true ∧
      F32.isFinite 0x7F800000 = false ∧ |F32.units 0x7F7FFFFF + F32.units 0x00000000| ≤ (2 ^ 24 - 1) * 2 ^ 253 ∧
      (2 ^ 24 - 1) * 2 ^ 253 < |F32.units 0x7F7FFFFF + F32.units 0x00000001|) :=
  ⟨silent_written, ⟨_, silent_subband 0 (by omega)⟩, ⟨_, silent_subband 31 (by omega)⟩, ⟨_, silent_ovl.1⟩,
    ⟨_, silent_ovl.2⟩, by decide, by decide, by decide, by decide +kernel⟩

theorem test_meets_SilentSubbandPassesItsOverlap :
    (∃ t, exec (.hybrid .right .short false) silent = .next t) ∧
    (∀ k, k < 18 → ∃ x, silent.mem.word (xrAddr (18 * 31 + k)) = some x ∧ F32.isZero x = true) ∧
    silent.mem.word (ovlAddr .right 31 17) = some F32.plusZero ∧ F32.isFinite F32.plusZero = true :=
  ⟨hybrid_completes .right .short false, fun k hk => ⟨_, silent_xr _ (by omega), by decide⟩, silent_ovl.2, by decide⟩

/-- The exact transforms of inputs +0 are 0, in range. -/
theorem exactTransform_zero (bt : BlockType) (mixed : Bool) (sb : Nat) (i : Fin 36) :
    Exact.InRange (exactTransform bt mixed sb (fun _ => F32.plusZero) i) := by
  have h0 : exactTransform bt mixed sb (fun _ => F32.plusZero) i = 0 := by
    unfold exactTransform
    split
    · simp only [Exact.long, Exact.real_plusZero, zero_mul, Finset.sum_const_zero, mul_zero]
    · simp only [Exact.short, Exact.short12, Exact.shortInput, Exact.real_plusZero, zero_mul, Finset.sum_const_zero,
        mul_zero, ite_self]
  rw [h0, Exact.InRange, abs_zero]
  norm_num

/-- Inputs and carried overlaps +0, in both forms; the edges of windows 1 and 3 and of the short form. -/
theorem test_meets_HybridMeetsItsTolerance :
    let X : Fin 18 → Word := fun _ => F32.plusZero
    (∀ bt mixed, ∃ t, exec (.hybrid .left bt mixed) silent = .next t) ∧
    (∀ k : Fin 18, silent.mem.word (xrAddr (18 * 0 + k)) = some (X k)) ∧ Exact.AllFinite X ∧
    (∀ bt mixed i, Exact.InRange (exactTransform bt mixed 0 X i)) ∧
    (transformEdge .start true 0 (18 + 12) = true ∧ transformEdge .start true 0 (18 + 11) = false) ∧
    (transformEdge .stop true 0 5 = true ∧ transformEdge .stop true 0 6 = false) ∧
    (transformEdge .short true 2 5 = true ∧ transformEdge .short true 2 (18 + 12) = true ∧
      transformEdge .short true 1 5 = false) ∧
    (∃ v, silent.mem.word (ovlAddr .left 0 0) = some v ∧ F32.isFinite v = true ∧ F32.isZero v = true ∧
      |F32.units F32.plusZero + F32.units v| ≤ (2 ^ 24 - 1) * 2 ^ 253) :=
  ⟨hybrid_completes .left, fun k => silent_xr _ (by omega), fun _ => Exact.isFinite_plusZero,
    fun bt mixed => exactTransform_zero bt mixed 0, by decide, by decide, by decide,
    ⟨_, silent_ovl.1, by decide, by decide, by decide +kernel⟩⟩

theorem test_meets_ShortFormEdgesAreExact :
    let X : Fin 18 → Word := fun _ => F32.plusZero
    (∃ t, exec (.hybrid .left .short true) silent = .next t) ∧ transformOf .short true 2 = none ∧
    transformOf .short false 0 = none ∧
    (∀ k : Fin 18, silent.mem.word (xrAddr (18 * 2 + k)) = some (X k)) ∧ Exact.AllFinite X ∧
    (∃ v, silent.mem.word (ovlAddr .left 0 0) = some v ∧ F32.isFinite v = true) :=
  ⟨hybrid_completes .left .short true, rfl, rfl, fun k => silent_xr _ (by omega), fun _ => Exact.isFinite_plusZero, _, silent_ovl.1,
    by decide⟩

theorem test_meets_MonoRightRaisesBadChannel :
    (∃ t, exec (.hybrid .right .normal false) silent = .next t) ∧ ∃ t, exec (.clrstate .right) State.reset = .next t :=
  ⟨hybrid_completes .right .normal false, _, rfl⟩

theorem test_meets_SynthStoresHistoryAndPcm :
    ¬ (Channel.right = .right ∧ Packing.stereo = .mono) ∧ (zeros 576).length = 576 ∧ (zeros 1024).length = 1024 ∧
    (∀ k (h : k < (zeros 576).length), silent.mem.word (xrAddr k) = some (zeros 576)[k]) ∧
    (∀ i (h : i < (zeros 1024).length), silent.mem.word (vAddr .right i) = some (zeros 1024)[i]) := by
  refine ⟨by decide, zeros_length _, zeros_length _, fun k h => ?_, fun i h => ?_⟩
  · rw [zeros_getElem]; exact silent_xr k (by rwa [zeros_length] at h)
  · rw [zeros_getElem]; exact reset_v .right i (by rwa [zeros_length] at h)

theorem zeros_getD (n i : Nat) (h : i < n) : (zeros n).getD i 0 = F32.plusZero := by
  rw [zeros, List.getD_eq_getElem?_getD, List.getElem?_replicate, if_pos h]
  rfl

/-- The input of slot 0 of a silent XR, and the window input of a silent history. -/
theorem silent_slot : slotInput (zeros 576) 0 = fun _ => F32.plusZero := by
  funext sb
  have h : 18 * sb.val + 0 < 576 := by omega
  simp only [slotInput, zeros_getD 576 _ h, Nat.zero_mod, Nat.zero_ne_one, and_false, if_false]

theorem silent_window : windowInput (zeros 1024) = fun _ => F32.plusZero := by
  funext i
  unfold windowInput
  simp only
  split <;> exact zeros_getD 1024 _ (by omega)

/-- Slots 0 (even) and 17 (odd) with subbands 0 and 31; a silent slot: its inputs, its matrix outputs and its amplitudes are
finite and in range, and its window is +0. -/
theorem test_meets_SynthSlotShiftsHistory :
    (zeros 1024).length = 1024 ∧ (31 % 2 = 1 ∧ 17 % 2 = 1) ∧ ¬ (0 % 2 = 1 ∧ 17 % 2 = 1) ∧
    Exact.AllFinite (slotInput (zeros 576) 0) ∧ (∀ i, Exact.InRange (Exact.matrix (slotInput (zeros 576) 0) i)) ∧
    (∀ j, Exact.AllFinite (Exact.foldInput (windowInput (zeros 1024)) j)) ∧
    (∀ j, Exact.InRange (Exact.amplitude Config.synthWindow.d (windowInput (zeros 1024)) j)) ∧
    F32.isFinite (Config.filterbank.window 0 (windowInput (zeros 1024)) 0) = true := by
  rw [silent_slot, silent_window]
  refine ⟨zeros_length _, by decide, by decide, fun _ => Exact.isFinite_plusZero, fun i => ?_,
    fun j _ => Exact.isFinite_plusZero, fun j => ?_, ?_⟩
  · simp only [Exact.InRange, Exact.matrix, Exact.real_plusZero, mul_zero, Finset.sum_const_zero, abs_zero]
    norm_num
  · simp only [Exact.InRange, Exact.amplitude, Exact.foldTerm, Exact.foldInput, Exact.real_plusZero, zero_mul,
      Finset.sum_const_zero, mul_zero, abs_zero]
    norm_num
  · rw [Config.filterbank.window_silent 0 (fun _ => F32.plusZero) 0 fun _ => show F32.isZero F32.plusZero = true by decide]
    exact Exact.isFinite_plusZero

theorem test_meets_SilenceInSilenceOut :
    ¬ (Channel.left = .right ∧ Packing.mono = .mono) ∧
    (∀ k, k < 576 → ∃ x, silent.mem.word (xrAddr k) = some x ∧ F32.isZero x = true) ∧
    (∀ i, i < 1024 → ∃ v, silent.mem.word (vAddr .left i) = some v ∧ F32.isZero v = true) :=
  ⟨by decide, fun k hk => ⟨_, silent_xr k hk, by decide⟩, fun i hi => ⟨_, reset_v .left i hi, by decide⟩⟩

/-- -0.5, -0.75, -1.5, -1.0 and infinity: a value for each clause. -/
theorem test_meets_RoundingIsHalfUpAboveMinusHalf :
    F32.isFinite 0xBF000000 = true ∧ -(2 ^ 148) ≤ F32.units 0xBF000000 ∧
    F32.isFinite 0xBF400000 = true ∧ F32.units 0xBF400000 < -(2 ^ 148) ∧ (F32.units 0xBF400000 + 2 ^ 148) % 2 ^ 149 ≠ 0 ∧
    F32.isFinite 0xBFC00000 = true ∧ F32.units 0xBFC00000 < -(2 ^ 148) ∧ (F32.units 0xBFC00000 + 2 ^ 148) % 2 ^ 149 = 0 ∧
    F32.units 0xBF800000 = -1 * 2 ^ 149 ∧ F32.units 0xC7000000 = -32768 * 2 ^ 149 ∧
    F32.isFinite 0x7F800000 = false := by decide +kernel

/-- -1.0 lies between -1.5 and -0.5; the two ends do not. -/
theorem test_meets_RoundingReadingsDifferOnlyNearMinusOne :
    F32.isFinite 0xBF800000 = true ∧ -(3 * 2 ^ 148) < F32.units 0xBF800000 ∧ F32.units 0xBF800000 < -(2 ^ 148) ∧
    ¬ -(3 * 2 ^ 148) < F32.units 0xBFC00000 ∧ ¬ F32.units 0xBF000000 < -(2 ^ 148) := by decide +kernel

theorem test_meets_StartWriteTakesTheSnapshot :
    (0x00000001#32).getLsbD 0 = true ∧ (0x00000001#32).getLsbD 1 = false ∧ (started 0).busy = true ∧
    State.reset.busy = false ∧ State.reset.cmd.field 0 4 < 6 ∧ ({ State.reset with cmd := 5 } : State).cmd.field 0 4 < 6 ∧
    6 ≤ ({ State.reset with cmd := 6 } : State).cmd.field 0 4 := by decide

/-- SRST alone and with START; an idle state and one in which HUFF, ALIAS, HYBRID, SYNTH or CLRSTATE runs. -/
theorem test_meets_SoftResetState :
    (0x00000002#32).getLsbD 1 = true ∧ (0x00000003#32).getLsbD 1 = true ∧ State.reset.phase = .idle ∧
    (∀ op : Fin 6, ∃ snap, (started op.val).phase = .busy snap ∧ snap.op = op.val) ∧
    region 0x5000 = .ovl ∧ region 0x9FFF = .v ∧ region 0x1FFF = .mdb ∧ region 0x247F = .is ∧ region 0x38FF = .xr ∧
    region 0x48FF = .pcm := by
  refine ⟨by decide, by decide, rfl, fun op => ⟨_, rfl, ?_⟩, by decide, by decide, by decide, by decide, by decide, by decide⟩
  revert op; decide

theorem test_meets_StatusWriteOneToClear : State.reset.busy = false ∧ State.reset.cmd.field 0 4 < 6 := by decide

theorem test_meets_BusyWritesAreIgnored :
    (started 1).busy = true ∧ (region (0x1000#16).toNat).isMemory = true ∧ (region (0x9FFF#16).toNat).isMemory = true := by
  decide

theorem test_meets_BusyMemoryReadsComplete :
    (started 1).busy = true ∧ (region (0x3000#16).toNat).isMemory = true ∧ aligned (0x3000#16).toNat .w4 = true ∧
    aligned (0x3002#16).toNat .w4 = false := by decide

/-- A 4-byte access at XR + 2, a 2-byte access at an odd address, a narrow and an unaligned register access. -/
theorem test_meets_MisalignedAccessesAreRefused :
    ((region (0x3002#16).toNat).isMemory = true ∧ (0x3002#16).toNat % Width.count .w4 ≠ 0) ∧
    ((region (0x2001#16).toNat).isMemory = true ∧ (0x2001#16).toNat % Width.count .w2 ≠ 0) ∧
    (region (0x0004#16).toNat = .regs ∧ (regAt (0x0004#16).toNat).isSome = true ∧ Width.w2 ≠ .w4) ∧
    (region (0x003F#16).toNat = .regs ∧ (regAt (0x003F#16).toNat).isSome = true ∧ (0x003F#16).toNat % 4 ≠ 0) := by decide

/-- T59's addresses and the edges of the holes. -/
theorem test_meets_UnmappedReadsZero :
    (region (0x0014#16).toNat = .regs ∧ regAt (0x0014#16).toNat = none) ∧
    (region (0x00FF#16).toNat = .regs ∧ regAt (0x00FF#16).toNat = none) ∧ region (0x0100#16).toNat = .unmapped ∧
    region (0x2480#16).toNat = .unmapped ∧ region (0x7FFF#16).toNat = .unmapped ∧ region (0xFFFF#16).toNat = .unmapped := by
  decide

theorem test_meets_MemoryReadsBackWhatWasWritten :
    State.reset.busy = false ∧ (region (0x1FFF#16).toNat).isMemory = true ∧ (0x1FFF#16).toNat % Width.count .w1 = 0 ∧
    (region (0x9FFC#16).toNat).isMemory = true ∧ (0x9FFC#16).toNat % Width.count .w4 = 0 := by decide

/-- A write of CTRL whose bits are all ones but START and SRST. -/
theorem test_meets_RegistersKeepTheirWritableBits : State.reset.busy = false ∧
    (0xFFFFFFFC#32).getLsbD 0 = false ∧ (0xFFFFFFFC#32).getLsbD 1 = false := by decide

theorem test_meets_ReadsHaveNoSideEffects :
    (∃ t, hostRead 0x0000 .w4 State.reset = .next t) ∧ (∃ t, hostRead 0x3000 .w4 (started 1) = .next t) ∧
    (setAccErr State.reset).status.accErr = true := ⟨⟨_, rfl⟩, ⟨_, rfl⟩, rfl⟩

theorem test_meets_IrqFollowsCompletion :
    ({ State.reset with irqEn := 3 } : State).irqEn.getLsbD 0 = true ∧
    ({ State.reset with irqEn := 3 } : State).irqEn.getLsbD 1 = true ∧ (0x00000002#32).getLsbD 1 = true ∧
    (0x00000004#32).getLsbD 2 = true := by decide

end Sys2Proof.Tests
end

section
/-! PROOF. A command is one indivisible transformation: no step leaves a HUFF half done where none was. -/

namespace Sys2Proof.Machine

/-! ## What each operation does to the hidden state -/

theorem start_engine_eq_none {s : State} (h : s.engine = none) : (start s).engine = none := by
  unfold start
  split
  · exact h
  · split <;> rfl

theorem writeReg_engine_eq_none {s : State} (h : s.engine = none) (r : Reg) (v : Word) :
    (writeReg s r v).engine = none := by
  rcases writeReg_cases s r v with h' | h' | h' | h' | h' | h' | ⟨-, h' | h' | h' | h' | h' | h'⟩ <;>
    simp [h', h, start_engine_eq_none]

theorem hostRead_engine {addr : Address} {width : Width} {s t : State} (h : hostRead addr width s = .next t) :
    t.engine = s.engine := by
  obtain ⟨v, rfl⟩ | rfl | rfl := hostRead_next h <;> simp

theorem hostWrite_engine_eq_none {s : State} (h : s.engine = none) (addr : Address) (width : Width) (v : Word) :
    (hostWrite addr width v s).engine = none := by
  obtain h' | h' | ⟨r, -, -, h'⟩ | ⟨-, -, -, h'⟩ := hostWrite_cases addr width v s <;> rw [h']
  · exact h
  · exact h
  · exact writeReg_engine_eq_none h r v
  · exact h

/-- A command completes or ends in an error, and both clear the hidden state; a table word has no meaning where no walk
runs (30_encoding.md R122). -/
theorem exec_engine_eq_none {i : Instr} {s t : State} (h : s.engine = none) (hx : exec i s = .next t) :
    t.engine = none := by
  cases i with
  | nop => cases hx; rfl
  | huff => obtain ⟨r, -, rfl⟩ | ⟨c, -, rfl⟩ := exec_huff_next hx <;> rfl
  | antialias bt mixed => obtain ⟨m, -, rfl⟩ := exec_antialias_next hx; rfl
  | hybrid ch bt mixed => obtain ⟨xs, os, -, rfl⟩ := exec_hybrid_next hx; rfl
  | synth ch nch => obtain ⟨-, rfl⟩ | ⟨-, XR, V, -, -, rfl⟩ := exec_synth_next hx <;> rfl
  | clrstate ch => cases hx; rfl
  | reserved67 op => cases hx; rfl
  | reserved8to15 op => cases hx; rfl
  | htabBranch offset =>
    obtain ⟨pos, w, d, he, -⟩ := exec_htabBranch_next hx
    simp [h] at he
  | htabLeafPair x y =>
    obtain ⟨pos, w, d, he, -⟩ := endWalk_next hx
    simp [h] at he
  | htabLeafQuad v w x y =>
    obtain ⟨pos, w, d, he, -⟩ := endWalk_next hx
    simp [h] at he

theorem sequencerTurn_engine_eq_none {s t : State} (h : s.engine = none) (hq : sequencerTurn s = .next t) :
    t.engine = none := by
  obtain ⟨-, rfl⟩ | ⟨snap, i, rest, -, -, hx⟩ := sequencerTurn_next hq
  · exact h
  · exact exec_engine_eq_none h hx

/-- Settles O13: a step is a host access, a power-on reset or the sequencer's turn, and none of them brings hidden state
into being (00_scope.md R11, 10_state.md R60). -/
theorem stepLeavesNoHalfDoneCommand : Obligations.StepLeavesNoHalfDoneCommand := by
  intro s t h hs
  obtain ⟨-, hq⟩ | ⟨addr, width, rest, -, hr⟩ | ⟨addr, width, v, rest, -, rfl⟩ | ⟨rest, -, hq⟩ | ⟨rest, -, rfl⟩ :=
    step_next hs
  · exact sequencerTurn_engine_eq_none h hq
  · exact (hostRead_engine hr).trans h
  · exact hostWrite_engine_eq_none (s := { s with inputs := rest }) h addr width v
  · exact sequencerTurn_engine_eq_none (s := { s with inputs := rest }) h hq
  · rfl

end Sys2Proof.Machine
end

section
/-! PROOF. The region boundaries of HUFF, and what a successful decoding answers. -/

namespace Sys2Proof.Machine

/-! ## Region boundaries (40_huffman.md R151) -/

theorem field_lt (w : Word) (lo n : Nat) : w.field lo n < 2 ^ n := (w.extractLsb' lo n).isLt

theorem sfbLong_length (sri : Nat) : (Config.sfbLong sri).length = 23 := by
  unfold Config.sfbLong
  split <;> rfl

theorem sfbLong_rising (sri : Nat) : (Config.sfbLong sri).Pairwise (· < ·) := by
  unfold Config.sfbLong
  split <;> decide

theorem sfbLong_even (sri : Nat) : ∀ r ∈ Config.sfbLong sri, r % 2 = 0 ∧ r ≤ 576 := by
  unfold Config.sfbLong
  split <;> decide

theorem sfbLong_lt {sri i j r r' : Nat} (h : (Config.sfbLong sri)[i]? = some r) (h' : (Config.sfbLong sri)[j]? = some r')
    (hij : i < j) : r < r' := by
  obtain ⟨hi, rfl⟩ := List.getElem?_eq_some_iff.mp h
  obtain ⟨hj, rfl⟩ := List.getElem?_eq_some_iff.mp h'
  exact List.pairwise_iff_getElem.mp (sfbLong_rising sri) i j hi hj hij

theorem sfbLong_getElem?_getD {sri i : Nat} (h : i ≤ 22) :
    (Config.sfbLong sri)[i]? = some ((Config.sfbLong sri).getD i 576) := by
  have hi : i < (Config.sfbLong sri).length := by rw [sfbLong_length]; omega
  rw [List.getD_eq_getElem?_getD, List.getElem?_eq_getElem hi]
  rfl

/-- The first boundary is looked up at an index of the table, since R0CNT has four bits. -/
theorem Snapshot.r0cnt_lt (ops : Snapshot) : ops.r0cnt < 16 := field_lt _ _ _

theorem Snapshot.regions_of_ws {ops : Snapshot} (h : ops.ws = true) : ops.regions = some (36, 576) := by
  simp [Snapshot.regions, h]

theorem Snapshot.regions_of_reservedRate {ops : Snapshot} (hw : ops.ws = false) (hs : ops.sri = 3) :
    ops.regions = none := by
  simp [Snapshot.regions, hw, hs]

theorem Snapshot.regions_of_rate {ops : Snapshot} (hw : ops.ws = false) (hs : ops.sri ≠ 3) :
    ∃ r1 r2, ops.regions = some (r1, r2) ∧ (Config.sfbLong ops.sri)[ops.r0cnt + 1]? = some r1 ∧
      (ops.r0cnt + ops.r1cnt + 2 ≤ 22 → (Config.sfbLong ops.sri)[ops.r0cnt + ops.r1cnt + 2]? = some r2) ∧
      (22 < ops.r0cnt + ops.r1cnt + 2 → r2 = 576) := by
  have h0 := ops.r0cnt_lt
  have h : ops.regions = some ((Config.sfbLong ops.sri).getD (ops.r0cnt + 1) 576,
      if ops.r0cnt + ops.r1cnt + 2 ≤ 22 then (Config.sfbLong ops.sri).getD (ops.r0cnt + ops.r1cnt + 2) 576 else 576) := by
    simp only [Snapshot.regions, hw, hs, if_false, Bool.false_eq_true]
  refine ⟨_, _, h, sfbLong_getElem?_getD (by omega), fun hb => ?_, fun hb => if_neg (by omega)⟩
  rw [if_pos hb]
  exact sfbLong_getElem?_getD hb

/-- SFB_LONG rises from 0 to 576 in even steps, and so do the boundaries looked up in it. -/
theorem Snapshot.regions_bounds {ops : Snapshot} {r1 r2 : Nat} (h : ops.regions = some (r1, r2)) :
    r1 < r2 ∧ r2 ≤ 576 ∧ r1 % 2 = 0 ∧ r2 % 2 = 0 ∧ 0 < r1 := by
  cases hw : ops.ws with
  | true =>
    rw [Snapshot.regions_of_ws hw] at h
    cases h
    decide
  | false =>
    by_cases hs : ops.sri = 3
    · rw [Snapshot.regions_of_reservedRate hw hs] at h
      cases h
    · obtain ⟨r1', r2', h', h1, h2, h3⟩ := Snapshot.regions_of_rate hw hs
      obtain ⟨rfl, rfl⟩ : r1' = r1 ∧ r2' = r2 := by simpa [h] using h'.symm
      have even1 := sfbLong_even _ _ (List.mem_of_getElem? h1)
      have pos1 : 0 < r1' := Nat.pos_of_ne_zero fun h0 => by
        have := sfbLong_lt (sfbLong_getElem?_getD (Nat.zero_le 22)) h1 (Nat.succ_pos _)
        omega
      rcases Nat.lt_or_ge 22 (ops.r0cnt + ops.r1cnt + 2) with hb | hb
      · have last := sfbLong_getElem?_getD (sri := ops.sri) (le_refl 22)
        have lt := sfbLong_lt h1 last (by have := ops.r0cnt_lt; omega)
        have := sfbLong_even _ _ (List.mem_of_getElem? last)
        have := h3 hb
        omega
      · have lt := sfbLong_lt h1 (h2 hb) (by omega)
        have := sfbLong_even _ _ (List.mem_of_getElem? (h2 hb))
        omega

/-- Settles O24: the fields of the operands are the definitions of `Snapshot`, and the boundaries are entries of a table that
rises in even steps (40_huffman.md R151). -/
theorem regionBoundariesAreEvenAndOrdered : Obligations.RegionBoundariesAreEvenAndOrdered := by
  refine ⟨fun s snap h => operands_of_busy h, fun s h => ?_, fun ops => ?_, fun ops h => Snapshot.regions_of_ws h,
    fun ops hw hs => Snapshot.regions_of_reservedRate hw hs, fun ops hw hs => Snapshot.regions_of_rate hw hs,
    fun ops r1 r2 h => Snapshot.regions_bounds h⟩
  · simp only [State.operands, h]
    rfl
  · exact ⟨rfl, rfl, rfl, rfl, rfl, rfl, rfl, rfl, rfl, rfl, rfl, rfl, rfl⟩

/-! ## What a successful decoding answers -/

/-- A decoding that succeeds found an empty granule or ran both loops. -/
theorem huffDecode_ok_cases {slack : Nat} {ops : Snapshot} {m : Memory} {r : HuffResult}
    (h : huffDecode slack ops m = .ok r) :
    r = emptyGranule ops ∨
      ∃ r1 r2 pv pp qv qp, ops.regions = some (r1, r2) ∧
        decodePairs ops r1 r2 m ops.bv 0 ops.pos = .ok (pv, pp) ∧
        decodeQuads m ops.c1sel ops.endPos 144 (2 * ops.bv) pp = .ok (qv, qp) ∧
        r = huffResult slack ops r1 r2 pv pp qv qp := by
  obtain ⟨-, h'⟩ | ⟨-, -, h'⟩ | ⟨r1, r2, -, hr, ⟨-, h'⟩ | ⟨-, ⟨h', -⟩ | ⟨h', -⟩ | ⟨pv, pp, qv, qp, hp, hq, h'⟩⟩⟩ :=
    huffDecode_cases slack ops m <;> rw [h'] at h <;> cases h
  · exact .inl rfl
  · exact .inr ⟨r1, r2, pv, pp, qv, qp, hr, hp, hq, rfl⟩

/-- The errors a decoding ends in are those of 60_exceptions.md R316. -/
theorem huffDecode_error {slack : Nat} {ops : Snapshot} {m : Memory} {c : ErrCode}
    (h : huffDecode slack ops m = .error (.error c)) : c = .badSfb ∨ c = .badTable ∨ c = .mdbRange := by
  obtain ⟨-, h'⟩ | ⟨-, -, h'⟩ | ⟨r1, r2, -, hr, ⟨-, h'⟩ | ⟨-, ⟨h', -⟩ | ⟨h', -⟩ | ⟨pv, pp, qv, qp, -, -, h'⟩⟩⟩ :=
    huffDecode_cases slack ops m <;> rw [h'] at h <;> cases h
  · exact .inl rfl
  · exact .inr (.inl rfl)
  · exact .inr (.inr rfl)

theorem Snapshot.bv_le (ops : Snapshot) : ops.bv ≤ 288 := Nat.min_le_right _ _

theorem zeroFilled_bound {vals : List Int} {nz b : Nat} (h : ∀ v ∈ vals, v.natAbs ≤ b) :
    ∀ v ∈ zeroFilled vals nz, v.natAbs ≤ b := by
  intro v hv
  rcases List.mem_append.mp hv with hv | hv
  · exact h v (List.mem_of_mem_take hv)
  · rw [List.eq_of_mem_replicate hv]
    exact Nat.zero_le b

/-- The spectrum has 576 values, each a value of a pair, of a quad, or 0 (40_huffman.md R160, R165, R168). -/
theorem huffDecode_spectrum {slack : Nat} {ops : Snapshot} {m : Memory} {r : HuffResult}
    (h : huffDecode slack ops m = .ok r) :
    r.spectrum.length = 576 ∧ ∀ v ∈ r.spectrum, v.natAbs ≤ 8206 := by
  obtain rfl | ⟨r1, r2, pv, pp, qv, qp, -, hp, hq, rfl⟩ := huffDecode_ok_cases h
  · exact ⟨zeroFilled_length (Nat.zero_le _) (Nat.zero_le _), zeroFilled_bound (by simp)⟩
  · obtain ⟨hpl, hpv⟩ := decodePairs_values hp
    obtain ⟨hql, hqv, -⟩ := decodeQuads_values hq
    obtain ⟨hn, hn'⟩ := huffResult_nz_le (slack := slack) (r1 := r1) (r2 := r2) (pp := pp) (qp := qp) hpl hql
    refine ⟨zeroFilled_length hn hn', zeroFilled_bound fun v hv => ?_⟩
    rcases List.mem_append.mp hv with hv | hv
    · exact hpv v hv
    · exact (hqv v hv).trans (by decide)

/-- The results HUFF reports are in the ranges of 10_state.md R44. -/
theorem huffDecode_results {slack : Nat} {ops : Snapshot} {m : Memory} {r : HuffResult}
    (h : huffDecode slack ops m = .ok r) : r.nz ≤ 576 ∧ r.r1 ≤ 576 ∧ r.r2 ≤ 576 ∧ r.bv ≤ 288 := by
  obtain rfl | ⟨r1, r2, pv, pp, qv, qp, hr, hp, hq, rfl⟩ := huffDecode_ok_cases h
  · exact ⟨Nat.zero_le _, Nat.zero_le _, Nat.zero_le _, Nat.zero_le _⟩
  · obtain ⟨hn, -⟩ := huffResult_nz_le (slack := slack) (r1 := r1) (r2 := r2) (pp := pp) (qp := qp)
      (decodePairs_values hp).1 (decodeQuads_values hq).1
    obtain ⟨hlt, hle, -⟩ := Snapshot.regions_bounds hr
    exact ⟨hn, (hlt.trans_le hle).le, hle, ops.bv_le⟩

/-- Settles O29: a pair's values are at most 15 + 8191 in magnitude, a quad's at most 1 (30_encoding.md R124; 40_huffman.md
R160). -/
theorem spectrumValuesAreBounded : Obligations.SpectrumValuesAreBounded := by
  intro slack ops m r h
  obtain ⟨hl, hv⟩ := huffDecode_spectrum h
  refine ⟨hl, fun v hm => ?_⟩
  have := hv v hm
  omega

end Sys2Proof.Machine
end

section
/-! PROOF. How an instruction ends, and what the commands leave of the registers and the flags. -/

namespace Sys2Proof.Machine

/-! ## The ways an instruction ends -/

/-- A walk stands at the table word of its index (30_encoding.md R122). -/
def Engine.AtItsWord (e : Engine) : Prop := ∀ w, e.walk = some w → w.table.words[w.index]? = some w.word

/-- An instruction completes with a new memory and count of draws, commits a HUFF, ends in an error, or moves the walk of a
HUFF stopped inside one. -/
theorem exec_next {i : Instr} {s t : State} (h : exec i s = .next t) :
    (∃ m d, t = finish { s with mem := m, draws := d }) ∨
      (i = .huff ∧ ∃ r, huffDecode Config.overrunSlack s.operands s.mem = .ok r ∧
        t = finish (commitHuff s.operands r s)) ∨
      (∃ c, c ≠ .none ∧ t = raiseError c s) ∨
      (∃ e e', s.engine = some e ∧ e'.AtItsWord ∧ t = { s with engine := some e' }) := by
  have ends : ∀ leaf, endWalk leaf s = .next t →
      ∃ e e', s.engine = some e ∧ Engine.AtItsWord e' ∧ t = { s with engine := some e' } := fun leaf h => by
    obtain ⟨pos, w, d, he, ht⟩ := endWalk_next h
    exact ⟨_, _, he, (by intro w hw; cases hw), ht⟩
  cases i with
  | nop => cases h; exact .inl ⟨_, _, rfl⟩
  | huff =>
    obtain ⟨r, hr, ht⟩ | ⟨c, hc, ht⟩ := exec_huff_next h
    · exact .inr (.inl ⟨rfl, r, hr, ht⟩)
    · exact .inr (.inr (.inl ⟨c, by obtain rfl | rfl | rfl := huffDecode_error hc <;> decide, ht⟩))
  | antialias bt mixed => obtain ⟨m, -, ht⟩ := exec_antialias_next h; exact .inl ⟨_, _, ht⟩
  | hybrid ch bt mixed => obtain ⟨xs, os, -, ht⟩ := exec_hybrid_next h; exact .inl ⟨_, _, ht⟩
  | synth ch nch =>
    obtain ⟨-, ht⟩ | ⟨-, XR, V, -, -, ht⟩ := exec_synth_next h
    · exact .inr (.inr (.inl ⟨_, by decide, ht⟩))
    · exact .inl ⟨_, _, ht⟩
  | clrstate ch => cases h; exact .inl ⟨_, _, rfl⟩
  | reserved67 op => cases h; exact .inr (.inr (.inl ⟨_, by decide, rfl⟩))
  | reserved8to15 op => cases h; exact .inr (.inr (.inl ⟨_, by decide, rfl⟩))
  | htabBranch offset =>
    obtain ⟨pos, w, d, he, ⟨c, hc, ht⟩ | ⟨bit, pos', e, -, hw, ht⟩⟩ := exec_htabBranch_next h
    · exact .inr (.inr (.inl ⟨c, by rw [readBit_error hc]; decide, ht⟩))
    · exact .inr (.inr (.inr ⟨_, _, he, (by rintro w' ⟨⟩; exact hw), ht⟩))
  | htabLeafPair x y => exact .inr (.inr (.inr (ends _ h)))
  | htabLeafQuad v w x y => exact .inr (.inr (.inr (ends _ h)))

/-! ## Frames over registers and flags -/

theorem exec_sameConfig {i : Instr} {s t : State} (h : exec i s = .next t) : SameConfig s t := by
  obtain ⟨m, d, rfl⟩ | ⟨-, r, -, rfl⟩ | ⟨c, -, rfl⟩ | ⟨e, e', -, -, rfl⟩ := exec_next h <;>
    exact ⟨rfl, rfl, rfl, rfl, rfl, rfl⟩

theorem exec_sameResults {i : Instr} {s t : State} (hi : i ≠ .huff) (h : exec i s = .next t) : SameResults s t := by
  obtain ⟨m, d, rfl⟩ | ⟨hi', -⟩ | ⟨c, -, rfl⟩ | ⟨e, e', -, -, rfl⟩ := exec_next h
  · exact ⟨rfl, rfl, rfl, rfl⟩
  · exact absurd hi' hi
  · exact ⟨rfl, rfl, rfl, rfl⟩
  · exact ⟨rfl, rfl, rfl, rfl⟩

/-- Settles O16: completing, failing and moving a walk all leave the configuration, the bus and its flags alone
(10_state.md R41, R47). -/
theorem commandsKeepConfiguration : Obligations.CommandsKeepConfiguration := by
  intro i s t h
  refine ⟨exec_sameConfig h, ?_⟩
  obtain ⟨m, d, rfl⟩ | ⟨-, r, -, rfl⟩ | ⟨c, -, rfl⟩ | ⟨e, e', -, -, rfl⟩ := exec_next h <;>
    exact ⟨rfl, rfl, rfl, rfl⟩

/-- Settles O17: of the ways an instruction ends only the commit of a HUFF writes a result or a HUFF flag (10_state.md
R44). -/
theorem onlyHuffWritesResults : Obligations.OnlyHuffWritesResults := by
  intro i s t hi h
  refine ⟨exec_sameResults hi h, ?_⟩
  obtain ⟨m, d, rfl⟩ | ⟨hi', -⟩ | ⟨c, -, rfl⟩ | ⟨e, e', -, -, rfl⟩ := exec_next h
  · exact ⟨rfl, rfl, rfl, rfl⟩
  · exact absurd hi' hi
  · exact ⟨rfl, rfl, rfl, rfl⟩
  · exact ⟨rfl, rfl, rfl, rfl⟩

/-- Settles O18: a HUFF that is not in error committed its result; ALIAS, HYBRID and a SYNTH of an existing channel finish
with a new memory (60_exceptions.md R312). -/
theorem dataCommandsKeepTheirRegisters : Obligations.DataCommandsKeepTheirRegisters := by
  refine ⟨fun s t _ h ht => ?_, fun bt mixed s t h => ?_, fun ch bt mixed s t h => ?_, fun ch nch s t hc h => ?_⟩
  · obtain ⟨r, -, rfl⟩ | ⟨c, -, rfl⟩ := exec_huff_next h
    · rfl
    · cases ht
  · obtain ⟨m, -, rfl⟩ := exec_antialias_next h
    rfl
  · obtain ⟨xs, os, -, rfl⟩ := exec_hybrid_next h
    rfl
  · obtain ⟨hb, -⟩ | ⟨-, XR, V, -, -, rfl⟩ := exec_synth_next h
    · exact absurd (badChannel_eq_true.mp hb) hc
    · rfl

end Sys2Proof.Machine
end

section
/-! PROOF. Which bytes of memory an instruction and a step may change. -/

namespace Sys2Proof.Machine

/-! ## What each instruction stores -/

theorem raiseError_mem_eq {c : ErrCode} (h : c ≠ .mdbRange) (s : State) : (raiseError c s).mem = s.mem := if_neg h

theorem raiseError_sameOutside (c : ErrCode) (s : State) : SameOutside s (raiseError c s) (isAddr 0) 1152 := by
  intro a ha
  rw [raiseError_mem]
  split
  · rw [Memory.get_forget, if_neg (by omega)]
  · rfl

/-- HUFF stores the 576 halves of IS, or leaves them unwritten. -/
theorem exec_huff_sameOutside {s t : State} (h : exec .huff s = .next t) : SameOutside s t (isAddr 0) 1152 := by
  obtain ⟨r, hr, rfl⟩ | ⟨c, -, rfl⟩ := exec_huff_next h
  · intro a ha
    have hl := (huffDecode_spectrum hr).1
    exact Memory.get_store_outside _ _ _ a (by rw [spectrumBytes_length, hl]; exact ha)
  · exact raiseError_sameOutside c s

theorem exec_antialias_get {bt : BlockType} {mixed : Bool} {s t : State} {a : Nat}
    (h : exec (.antialias bt mixed) s = .next t)
    (ha : ∀ sb, sb < boundaryCount bt mixed → a < xrAddr (18 * sb + 10) ∨ xrAddr (18 * sb + 26) ≤ a) :
    t.mem.get a = s.mem.get a := by
  obtain ⟨m, hm, rfl⟩ := exec_antialias_next h
  exact aliasBoundaries_outside hm a fun b _ hb => ha b (by omega)

theorem exec_hybrid_get {ch : Channel} {bt : BlockType} {mixed : Bool} {s t : State} {a : Nat}
    (h : exec (.hybrid ch bt mixed) s = .next t) (hx : a < xrAddr 0 ∨ xrAddr 576 ≤ a)
    (ho : a < ovlAddr ch 0 0 ∨ ovlAddr ch 32 0 ≤ a) : t.mem.get a = s.mem.get a := by
  obtain ⟨xs, os, hs, rfl⟩ := exec_hybrid_next h
  obtain ⟨hxl, hol⟩ := hybridSubbands_length hs
  have hx' : a < xrAddr 0 ∨ xrAddr 0 + (wordListBytes xs).length ≤ a := by
    rw [wordListBytes_length]
    simp only [xrAddr] at hx ⊢
    omega
  have ho' : a < ovlAddr ch 0 0 ∨ ovlAddr ch 0 0 + (wordListBytes os).length ≤ a := by
    rw [wordListBytes_length]
    simp only [ovlAddr] at ho ⊢
    omega
  rw [finish_mem, Memory.get_store_outside _ _ _ a ho', Memory.get_store_outside _ _ _ a hx']

/-- The bytes of PCM that a SYNTH stores at the other channel's entries are those that stood there (43_synthesis.md R272). -/
theorem pcm_store_get (old m : Memory) (ch : Channel) (nch : Packing) {pcm : List Half} (hl : pcm.length = 576) {a : Nat}
    (hm : m.get a = old.get a)
    (ha : ∀ n, n < 576 → a < pcmAddr (pcmIndex ch nch n) ∨ pcmAddr (pcmIndex ch nch n + 1) ≤ a) :
    (m.store (pcmAddr 0) (pcmBytes old ch nch pcm)).get a = old.get a := by
  by_cases hin : pcmAddr 0 ≤ a ∧ a < pcmAddr 0 + (pcmBytes old ch nch pcm).length
  · obtain ⟨j, rfl⟩ := Nat.exists_eq_add_of_le hin.1
    cases nch with
    | mono =>
      have hj : j < 1152 := by
        have := hin.2
        simp only [pcmBytes, halfListBytes_length] at this
        omega
      have := ha (j / 2) (by omega)
      simp only [pcmAddr, pcmIndex] at this
      omega
    | stereo =>
      have hj : j < 2304 := by
        have := hin.2
        simp only [pcmBytes, stereoBytes_length] at this
        omega
      have hother : j / 2 % 2 = 1 - channelIndex ch := by
        have := ha (j / 4) (by omega)
        simp only [pcmAddr, pcmIndex] at this
        cases ch <;> simp only [channelIndex] at this ⊢ <;> omega
      have hbyte := (stereoBytes_getElem (old.slice (pcmAddr 0) 2304) ch 0 pcm (j / 4) (j % 2) (by omega) (by omega)).2
      rw [show 4 * (j / 4) + 2 * (1 - channelIndex ch) + j % 2 = j by omega,
        show pcmAddr (2 * (0 + j / 4) + (1 - channelIndex ch)) + j % 2 = pcmAddr 0 + j by simp only [pcmAddr]; omega,
        Memory.get_slice _ _ _ _ ⟨by omega, by omega⟩] at hbyte
      obtain ⟨hlt, hbyte⟩ := List.getElem?_eq_some_iff.mp hbyte
      have hu : unlisted (pcmAddr 0 + j) = none := by
        rw [unlisted, region_pcm (by simp only [pcmAddr]; omega) (by simp only [pcmAddr]; omega)]
      rw [pcmBytes, Memory.get_store_inside m (pcmAddr 0) _ j hlt, hbyte, hu, Option.or_none]
  · rw [Memory.get_store_outside _ _ _ a (by omega), hm]

theorem exec_synth_get {ch : Channel} {nch : Packing} {s t : State} {a : Nat} (h : exec (.synth ch nch) s = .next t)
    (hv : a < vAddr ch 0 ∨ vAddr ch 1024 ≤ a)
    (hp : ∀ n, n < 576 → a < pcmAddr (pcmIndex ch nch n) ∨ pcmAddr (pcmIndex ch nch n + 1) ≤ a) :
    t.mem.get a = s.mem.get a := by
  obtain ⟨-, rfl⟩ | ⟨-, XR, V, -, hV, rfl⟩ := exec_synth_next h
  · rw [raiseError_mem_eq (by decide)]
  · obtain ⟨hpl, hvl⟩ := synthSlots_length s.draws XR 18 0 V (readHistory_length hV)
    refine pcm_store_get s.mem _ ch nch hpl (Memory.get_store_outside _ _ _ a ?_) hp
    rw [wordListBytes_length]
    simp only [vAddr] at hv ⊢
    omega

theorem exec_clrstate_get {ch : Channel} {s t : State} {a : Nat} (h : exec (.clrstate ch) s = .next t)
    (ho : a < ovlAddr ch 0 0 ∨ ovlAddr ch 32 0 ≤ a) (hv : a < vAddr ch 0 ∨ vAddr ch 1024 ≤ a) :
    t.mem.get a = s.mem.get a := by
  cases h
  simp only [ovlAddr, vAddr] at ho hv
  show (clearChannel ch s.mem).get a = _
  rw [clearChannel, Memory.get_forget, if_neg (by simp only [vAddr]; omega), Memory.get_forget,
    if_neg (by simp only [ovlAddr]; omega)]

theorem endWalk_mem {leaf : Leaf} {s t : State} (h : endWalk leaf s = .next t) : t.mem = s.mem := by
  obtain ⟨pos, w, d, -, rfl⟩ := endWalk_next h
  rfl

theorem exec_htabBranch_sameOutside {offset : Nat} {s t : State} (h : exec (.htabBranch offset) s = .next t) :
    SameOutside s t (isAddr 0) 1152 := by
  obtain ⟨pos, w, d, -, ⟨c, -, rfl⟩ | ⟨bit, pos', e, -, -, rfl⟩⟩ := exec_htabBranch_next h
  · exact raiseError_sameOutside c s
  · exact fun a _ => rfl

theorem outside_is_of_region_ne {a : Nat} (h : region a ≠ .is) : a < isAddr 0 ∨ isAddr 0 + 1152 ≤ a := by
  by_contra hc
  simp only [isAddr] at hc
  exact h (region_is (by omega) (by omega))

theorem outside_xr_of_region_ne {a : Nat} (h : region a ≠ .xr) : a < xrAddr 0 ∨ xrAddr 576 ≤ a := by
  by_contra hc
  simp only [xrAddr] at hc
  exact h (region_xr (by omega) (by omega))

/-- Settles O20: each instruction's stores lie at the entries the address map gives (20_memory.md R88). -/
theorem commandsStoreOnlyTheirEntries : Obligations.CommandsStoreOnlyTheirEntries := by
  refine ⟨fun s t h => ?_, fun s t h => exec_huff_sameOutside h, fun bt mixed s t a h ha => exec_antialias_get h ha,
    fun ch bt mixed s t a h hx ho => exec_hybrid_get h (outside_xr_of_region_ne hx) ho,
    fun ch nch s t a h hv hp => exec_synth_get h hv hp, fun ch s t a h ho hv => exec_clrstate_get h ho hv,
    fun op s t h => ?_, fun op s t h => ?_,
    fun offset s t a h ha => exec_htabBranch_sameOutside h a (outside_is_of_region_ne ha),
    fun x y s t h => endWalk_mem h, fun v w x y s t h => endWalk_mem h⟩
  · cases h; rfl
  · cases h; exact raiseError_mem_eq (by decide) s
  · cases h; exact raiseError_mem_eq (by decide) s

/-! ## Nothing but the host writes MDB -/

theorem mdb_bounds {a : Nat} (h : region a = .mdb) : 0x1000 ≤ a ∧ a < 0x2000 := (region_map a).2.1.mp h

theorem Memory.get_forget_mdb (m : Memory) {lo n a : Nat} (h : region a = .mdb) (hlo : 0x2000 ≤ lo) :
    (m.forget lo n).get a = m.get a := by
  have := mdb_bounds h
  rw [Memory.get_forget, if_neg (by omega)]

/-- MDB lies below everything a command stores. -/
theorem exec_mdb {i : Instr} {s t : State} {a : Nat} (h : exec i s = .next t) (ha : region a = .mdb) :
    t.mem.get a = s.mem.get a := by
  obtain ⟨hlo, hhi⟩ := mdb_bounds ha
  cases i with
  | nop => cases h; rfl
  | huff => exact exec_huff_sameOutside h a (.inl (by simp only [isAddr]; omega))
  | antialias bt mixed => exact exec_antialias_get h fun sb _ => .inl (by simp only [xrAddr]; omega)
  | hybrid ch bt mixed =>
    exact exec_hybrid_get h (.inl (by simp only [xrAddr]; omega)) (.inl (by simp only [ovlAddr]; omega))
  | synth ch nch =>
    exact exec_synth_get h (.inl (by simp only [vAddr]; omega)) fun n _ => .inl (by simp only [pcmAddr]; omega)
  | clrstate ch =>
    exact exec_clrstate_get h (.inl (by simp only [ovlAddr]; omega)) (.inl (by simp only [vAddr]; omega))
  | reserved67 op => cases h; rw [raiseError_mem_eq (by decide)]
  | reserved8to15 op => cases h; rw [raiseError_mem_eq (by decide)]
  | htabBranch offset => exact exec_htabBranch_sameOutside h a (.inl (by simp only [isAddr]; omega))
  | htabLeafPair x y => rw [endWalk_mem h]
  | htabLeafQuad v w x y => rw [endWalk_mem h]

theorem sequencerTurn_mdb {s t : State} {a : Nat} (h : sequencerTurn s = .next t) (ha : region a = .mdb) :
    t.mem.get a = s.mem.get a := by
  obtain ⟨-, rfl⟩ | ⟨snap, i, rest, -, -, hx⟩ := sequencerTurn_next h
  · rfl
  · exact exec_mdb hx ha

theorem abandonMemory_mdb (p : Phase) (m : Memory) {a : Nat} (ha : region a = .mdb) :
    (abandonMemory p m).get a = m.get a := by
  unfold abandonMemory
  split
  · rfl
  · split
    · exact Memory.get_forget_mdb m ha (by decide)
    · exact Memory.get_forget_mdb m ha (by decide)
    · exact Memory.get_forget_mdb m ha (by decide)
    · exact Memory.get_forget_mdb m ha (by decide)
    · rfl

theorem softReset_mdb (s : State) {a : Nat} (ha : region a = .mdb) : (softReset s).mem.get a = s.mem.get a := by
  rw [softReset_mem, clearCarried, Memory.get_forget_mdb _ ha (by decide), Memory.get_forget_mdb _ ha (by decide),
    abandonMemory_mdb _ _ ha]

theorem writeReg_mdb (s : State) (r : Reg) (v : Word) {a : Nat} (ha : region a = .mdb) :
    (writeReg s r v).mem.get a = s.mem.get a := by
  rcases writeReg_cases s r v with h | h | h | h | h | h | ⟨-, h | h | h | h | h | h⟩ <;> rw [h]
  case inr.inr.inl => exact softReset_mdb s ha
  case inr.inr.inr.inl => rw [start_mem]
  all_goals rfl

/-- An aligned store stays in the memory of its first byte. -/
theorem hostWrite_mdb (s : State) (addr : Address) (width : Width) (v : Word) {a : Nat} (ha : region a = .mdb)
    (hw : region addr.toNat ≠ .mdb) : (hostWrite addr width v s).mem.get a = s.mem.get a := by
  obtain h | h | ⟨r, -, -, h⟩ | ⟨-, hal, -, h⟩ := hostWrite_cases addr width v s <;> rw [h]
  · rfl
  · exact writeReg_mdb s r v ha
  · refine Memory.get_store_outside _ _ _ a ?_
    rw [writeBytes_length]
    by_contra hc
    have := region_aligned (a := addr.toNat) (j := a - addr.toNat) (Width.count_cases width)
      (by simpa [aligned] using hal) (by omega)
    rw [show addr.toNat + (a - addr.toNat) = a by omega, ha] at this
    exact hw this.symm

theorem hostRead_mem {addr : Address} {width : Width} {s t : State} (h : hostRead addr width s = .next t) :
    t.mem = s.mem := by
  obtain ⟨v, rfl⟩ | rfl | rfl := hostRead_next h <;> rfl

/-- Settles O14: every store of a command and of a soft reset lies above MDB, and a host's aligned store stays in the memory
of its first byte (10_state.md R48, 70_reset_and_hazards.md R343). -/
theorem onlyTheHostWritesMdb : Obligations.OnlyTheHostWritesMdb := by
  intro s t a hs ha hw hp
  obtain ⟨-, hq⟩ | ⟨addr, width, rest, -, hr⟩ | ⟨addr, width, v, rest, hi, rfl⟩ | ⟨rest, -, hq⟩ | ⟨rest, hi, -⟩ :=
    step_next hs
  · exact sequencerTurn_mdb hq ha
  · rw [hostRead_mem hr]
  · exact hostWrite_mdb { s with inputs := rest } addr width v ha (hw addr width v rest hi)
  · exact sequencerTurn_mdb (s := { s with inputs := rest }) hq ha
  · exact absurd hi (hp rest)

end Sys2Proof.Machine
end

section
/-! PROOF. The STATUS word, and the host's accesses to registers and memories. -/

namespace Sys2Proof.Machine

/-! ## The STATUS word (10_state.md R35) -/

theorem getLsbD_ofNat_eq {n k : Nat} {b : Bool} (h : n / 2 ^ k % 2 = b.toNat) (hk : k < 32 := by decide) :
    (BitVec.ofNat 32 n).getLsbD k = b := by
  rw [BitVec.getLsbD_ofNat, Nat.testBit_eq_decide_div_mod_eq, h, decide_eq_true hk]
  cases b <;> rfl

theorem field_ofNat {n : Nat} (lo len : Nat) (hn : n < 2 ^ 32) :
    Word.field (BitVec.ofNat 32 n) lo len = n / 2 ^ lo % 2 ^ len := by
  rw [Word.field, BitVec.extractLsb'_toNat, BitVec.toNat_ofNat, Nat.mod_eq_of_lt hn, Nat.shiftRight_eq_div_pow]

theorem ErrCode.code_le (c : ErrCode) : ErrCode.code c ≤ 5 := by cases c <;> decide

/-- Settles O52: every flag is 0 or 1 and an error code below 16, so the summands of the word do not overlap. -/
theorem statusWordLayout : Obligations.StatusWordLayout := by
  intro st busy
  have hc := ErrCode.code_le st.errCode
  have h0 := busy.toNat_lt
  have h1 := st.done.toNat_lt
  have h2 := st.err.toNat_lt
  have h8 := st.bvClamp.toNat_lt
  have h9 := st.empty.toNat_lt
  have h10 := st.qRollback.toNat_lt
  have h11 := st.bvOverrun.toNat_lt
  have h16 := st.cmdDrop.toNat_lt
  have h17 := st.accErr.toNat_lt
  have h3 := Bool.toNat_false
  unfold Status.word
  refine ⟨getLsbD_ofNat_eq ?_, getLsbD_ofNat_eq ?_, getLsbD_ofNat_eq ?_, (field_ofNat 4 4 ?_).trans ?_,
    getLsbD_ofNat_eq ?_, getLsbD_ofNat_eq ?_, getLsbD_ofNat_eq ?_, getLsbD_ofNat_eq ?_, getLsbD_ofNat_eq ?_,
    getLsbD_ofNat_eq ?_, getLsbD_ofNat_eq (b := false) ?_, (field_ofNat 12 4 ?_).trans ?_,
    (field_ofNat 18 14 ?_).trans ?_⟩
  all_goals omega

/-! ## Accesses of registers -/

theorem hostRead_register {s : State} {addr : Address} {r : Reg} (hr : region addr.toNat = .regs)
    (ha : regAt addr.toNat = some r) (hw : wholeRegister addr.toNat .w4 = true) :
    hostRead addr .w4 s = .next (answer (readReg s r) s) := by
  simp only [hostRead, hr, ha, hw, if_true]

theorem hostWrite_register {s : State} {addr : Address} {r : Reg} (v : Word) (hr : region addr.toNat = .regs)
    (ha : regAt addr.toNat = some r) (hw : wholeRegister addr.toNat .w4 = true) :
    hostWrite addr .w4 v s = writeReg s r v := by
  simp only [hostWrite, hr, ha, hw, if_true]

theorem whenIdle_idle {s w : State} (h : s.busy = false) : whenIdle s w = w := by
  rw [whenIdle, h, if_neg Bool.false_ne_true]

theorem whenIdle_busy {s w : State} (h : s.busy = true) : whenIdle s w = setAccErr s := by
  rw [whenIdle, h, if_pos rfl]

theorem writeCtrl_none {v : Word} {s : State} (h0 : v.getLsbD 0 = false) (h1 : v.getLsbD 1 = false) :
    writeCtrl v s = s := by
  simp only [writeCtrl, h0, h1, Bool.false_eq_true, if_false]

/-- Settles O58: an aligned 4-byte access at a register's offset is `readReg` or `writeReg` of it (10_state.md section 3). -/
theorem registersKeepTheirWritableBits : Obligations.RegistersKeepTheirWritableBits := by
  refine ⟨fun s => ⟨?_, ?_, ?_, ?_, ?_, ?_, ?_, ?_, ?_, ?_, ?_, ?_, ?_⟩, fun s v hb => ⟨?_, ?_, ?_, ?_, ?_, ?_⟩,
    fun s v => ⟨?_, ?_, ?_, ?_, ?_, fun h0 h1 => ?_⟩⟩
  · exact hostRead_register (r := .id) rfl rfl rfl
  · exact hostRead_register (r := .cmd) rfl rfl rfl
  · exact hostRead_register (r := .ctrl) rfl rfl rfl
  · exact hostRead_register (r := .status) rfl rfl rfl
  · exact hostRead_register (r := .irqEn) rfl rfl rfl
  · exact hostRead_register (r := .hufBitpos) rfl rfl rfl
  · exact hostRead_register (r := .hufPart2start) rfl rfl rfl
  · exact hostRead_register (r := .hufGranule) rfl rfl rfl
  · exact hostRead_register (r := .hufTables) rfl rfl rfl
  · exact hostRead_register (r := .hufSfbsel) rfl rfl rfl
  · exact hostRead_register (r := .hufNonzero) rfl rfl rfl
  · exact hostRead_register (r := .hufRegion) rfl rfl rfl
  · exact hostRead_register (r := .hufBveff) rfl rfl rfl
  · exact (hostWrite_register (r := .cmd) v rfl rfl rfl).trans (whenIdle_idle hb)
  · exact (hostWrite_register (r := .hufBitpos) v rfl rfl rfl).trans (whenIdle_idle hb)
  · exact (hostWrite_register (r := .hufPart2start) v rfl rfl rfl).trans (whenIdle_idle hb)
  · exact (hostWrite_register (r := .hufGranule) v rfl rfl rfl).trans (whenIdle_idle hb)
  · exact (hostWrite_register (r := .hufTables) v rfl rfl rfl).trans (whenIdle_idle hb)
  · exact (hostWrite_register (r := .hufSfbsel) v rfl rfl rfl).trans (whenIdle_idle hb)
  · exact hostWrite_register (r := .irqEn) v rfl rfl rfl
  · exact hostWrite_register (r := .id) v rfl rfl rfl
  · exact hostWrite_register (r := .hufNonzero) v rfl rfl rfl
  · exact hostWrite_register (r := .hufRegion) v rfl rfl rfl
  · exact hostWrite_register (r := .hufBveff) v rfl rfl rfl
  · exact (hostWrite_register (r := .ctrl) v rfl rfl rfl).trans (writeCtrl_none h0 h1)

/-! ## Accesses while a command runs (10_state.md R41, R60) -/

theorem hostWrite_memory_busy {s : State} {addr : Address} (width : Width) (v : Word) (hb : s.busy = true)
    (hm : (region addr.toNat).isMemory = true) : hostWrite addr width v s = setAccErr s := by
  rw [hostWrite_memory s addr width v hm, hb, if_pos rfl, ite_self]

/-- Settles O53: a parameter register is written through `whenIdle`, and a memory is stored only while IDLE. -/
theorem busyWritesAreIgnored : Obligations.BusyWritesAreIgnored := by
  rintro s addr width v hb (⟨rfl, rfl | rfl | rfl | rfl | rfl | rfl⟩ | hm)
  · exact (hostWrite_register (r := .cmd) v rfl rfl rfl).trans (whenIdle_busy hb)
  · exact (hostWrite_register (r := .hufBitpos) v rfl rfl rfl).trans (whenIdle_busy hb)
  · exact (hostWrite_register (r := .hufPart2start) v rfl rfl rfl).trans (whenIdle_busy hb)
  · exact (hostWrite_register (r := .hufGranule) v rfl rfl rfl).trans (whenIdle_busy hb)
  · exact (hostWrite_register (r := .hufTables) v rfl rfl rfl).trans (whenIdle_busy hb)
  · exact (hostWrite_register (r := .hufSfbsel) v rfl rfl rfl).trans (whenIdle_busy hb)
  · exact hostWrite_memory_busy width v hb hm

/-- Settles O54: while a command runs a memory read answers a free value, with ACC_ERR where it is misaligned. -/
theorem busyMemoryReadsComplete : Obligations.BusyMemoryReadsComplete := by
  intro s addr width hb hm
  rw [hostRead_memory s addr width hm]
  cases ha : aligned addr.toNat width with
  | true =>
    exact ⟨answerFree width s, by simp only [hb, Bool.not_true, Bool.false_eq_true, if_false, if_true], rfl,
      fun _ => rfl, nofun⟩
  | false =>
    exact ⟨answerFree width (setAccErr s), by simp only [Bool.not_false, if_true], rfl, nofun, fun _ => rfl⟩

end Sys2Proof.Machine
end

section
/-! PROOF. The invariant: what each operation of the block keeps of it, and that every step keeps it. -/

namespace Sys2Proof.Machine

/-! ## The canonical form of memory -/

theorem channelIndex_le (ch : Channel) : channelIndex ch ≤ 1 := by cases ch <;> decide

/-- A store inside one memory keeps the canonical form. -/
theorem wf_storeWithin {m : Memory} (hm : m.wf = true) {ρ : Region} (hρ : ρ.isMemory = true) {base top lo : Nat}
    {bs : List (Option Byte)} (hr : ∀ {a}, base ≤ a → a < top → region a = ρ) (hlo : base ≤ lo)
    (hhi : lo + bs.length ≤ top) : (m.store lo bs).wf = true :=
  Memory.wf_store hm lo bs fun a h1 h2 => by
    rw [hr (hlo.trans h1) (h2.trans_le hhi)]
    exact hρ

theorem wf_storeSpectrum {m : Memory} (hm : m.wf = true) {vals : List Int} (hl : vals.length = 576) :
    (m.store (isAddr 0) (spectrumBytes vals)).wf = true :=
  wf_storeWithin hm rfl region_is (by decide) (by rw [spectrumBytes_length, hl]; decide)

theorem wf_storeXr {m : Memory} (hm : m.wf = true) {ws : List Word} (hl : ws.length = 576) :
    (m.store (xrAddr 0) (wordListBytes ws)).wf = true :=
  wf_storeWithin hm rfl region_xr (by decide) (by rw [wordListBytes_length, hl]; decide)

theorem wf_storePcm {m : Memory} (hm : m.wf = true) {bs : List (Option Byte)} (hl : bs.length ≤ 2304) :
    (m.store (pcmAddr 0) bs).wf = true :=
  wf_storeWithin hm rfl region_pcm (by decide) (by simp only [pcmAddr]; omega)

theorem wf_storeOverlap {m : Memory} (hm : m.wf = true) (ch : Channel) {ws : List Word} (hl : ws.length = 576) :
    (m.store (ovlAddr ch 0 0) (wordListBytes ws)).wf = true := by
  have hc := channelIndex_le ch
  refine wf_storeWithin hm rfl region_ovl ?_ ?_
  · simp only [ovlAddr]
    omega
  · rw [wordListBytes_length, hl]
    simp only [ovlAddr]
    omega

theorem wf_storeHistory {m : Memory} (hm : m.wf = true) (ch : Channel) {ws : List Word} (hl : ws.length = 1024) :
    (m.store (vAddr ch 0) (wordListBytes ws)).wf = true := by
  have hc := channelIndex_le ch
  refine wf_storeWithin hm rfl region_v ?_ ?_
  · simp only [vAddr]
    omega
  · rw [wordListBytes_length, hl]
    simp only [vAddr]
    omega

theorem boundaryCount_le (bt : BlockType) (mixed : Bool) : boundaryCount bt mixed ≤ 31 := by
  cases bt <;> cases mixed <;> decide

theorem wf_raiseError {s : State} (h : s.mem.wf = true) (c : ErrCode) : (raiseError c s).mem.wf = true := by
  rw [raiseError_mem]
  split
  · exact Memory.wf_forget h _ _
  · exact h

/-- Every store of an instruction lies in a memory. -/
theorem exec_wf {i : Instr} {s t : State} (hm : s.mem.wf = true) (h : exec i s = .next t) : t.mem.wf = true := by
  cases i with
  | nop => cases h; exact hm
  | huff =>
    obtain ⟨r, hr, rfl⟩ | ⟨c, -, rfl⟩ := exec_huff_next h
    · exact wf_storeSpectrum hm (huffDecode_spectrum hr).1
    · exact wf_raiseError hm c
  | antialias bt mixed =>
    obtain ⟨m, ha, rfl⟩ := exec_antialias_next h
    exact aliasBoundaries_wf ha (by have := boundaryCount_le bt mixed; omega) hm
  | hybrid ch bt mixed =>
    obtain ⟨xs, os, hs, rfl⟩ := exec_hybrid_next h
    obtain ⟨hx, ho⟩ := hybridSubbands_length hs
    exact wf_storeOverlap (wf_storeXr hm hx) ch ho
  | synth ch nch =>
    obtain ⟨-, rfl⟩ | ⟨-, XR, V, -, hV, rfl⟩ := exec_synth_next h
    · exact wf_raiseError hm _
    · obtain ⟨hp, hv⟩ := synthSlots_length s.draws XR 18 0 V (readHistory_length hV)
      exact wf_storePcm (wf_storeHistory hm ch hv) (pcmBytes_length s.mem ch nch _ hp)
  | clrstate ch => cases h; exact wf_clearChannel hm ch
  | reserved67 op => cases h; exact wf_raiseError hm _
  | reserved8to15 op => cases h; exact wf_raiseError hm _
  | htabBranch offset =>
    obtain ⟨pos, w, d, -, ⟨c, -, rfl⟩ | ⟨bit, pos', e, -, -, rfl⟩⟩ := exec_htabBranch_next h
    · exact wf_raiseError hm c
    · exact hm
  | htabLeafPair x y => rw [endWalk_mem h]; exact hm
  | htabLeafQuad v w x y => rw [endWalk_mem h]; exact hm

/-! ## The parts of the invariant as propositions -/

theorem State.registersOk_iff (s : State) : s.registersOk = true ↔
    s.cmd &&& cmdMask = s.cmd ∧ s.irqEn &&& irqEnMask = s.irqEn ∧ s.hufBitpos &&& bitposMask = s.hufBitpos ∧
      s.hufPart2start &&& part2startMask = s.hufPart2start ∧ s.hufGranule &&& granuleMask = s.hufGranule ∧
      s.hufTables &&& tablesMask = s.hufTables ∧ s.hufSfbsel &&& sfbselMask = s.hufSfbsel ∧
      s.hufNonzero.toNat ≤ 576 ∧ s.hufRegion.toNat % 65536 ≤ 576 ∧ s.hufRegion.toNat / 65536 ≤ 576 ∧
      s.hufBveff.toNat ≤ 288 := by
  simp only [State.registersOk, Bool.and_eq_true, decide_eq_true_eq, and_assoc]

theorem State.commandOk_iff (s : State) : s.commandOk = true ↔
    ∀ snap, s.phase = .busy snap → snap = s.parameters ∧ snap.op < 6 := by
  unfold State.commandOk
  cases s.phase <;> simp

theorem State.engineOk_iff (s : State) : s.engineOk = true ↔
    ∀ e, s.engine = some e → (∃ snap, s.phase = .busy snap ∧ snap.op = 1) ∧ e.AtItsWord := by
  unfold State.engineOk
  cases s.engine with
  | none => simp
  | some e =>
    obtain ⟨pos, walk, decoded⟩ := e
    cases s.phase <;> cases walk <;> simp [Engine.AtItsWord]

theorem State.Inv.engine_of_idle {s : State} (h : s.Inv) (hp : s.phase = .idle) : s.engine = none := by
  obtain ⟨-, -, -, -, he⟩ := h
  cases hs : s.engine with
  | none => rfl
  | some e =>
    obtain ⟨⟨snap, hb, -⟩, -⟩ := (State.engineOk_iff s).mp he e hs
    rw [hp] at hb
    cases hb

/-- While a command runs no flag of a completion is set (70_reset_and_hazards.md R348). -/
theorem State.Inv.flags_of_busy {s : State} {snap : Snapshot} (h : s.Inv) (hp : s.phase = .busy snap) :
    s.status.done = false ∧ s.status.err = false ∧ s.status.errCode = .none ∧ s.status.noHuffFlags = true := by
  obtain ⟨-, -, -, hf, -⟩ := h
  obtain ⟨-, hcode, -, hbusy⟩ := (State.flagsOk_iff s).mp hf
  obtain ⟨hd, he, hh⟩ := hbusy (busy_eq_true.mpr ⟨snap, hp⟩)
  exact ⟨hd, he, by simpa [he] using hcode, hh⟩

/-- With the sequencer IDLE and no hidden state, what the invariant says of a running command holds of itself. -/
theorem inv_of_idle {s : State} (hm : s.mem.wf = true) (hr : s.registersOk = true) (hf : s.flagsOk = true)
    (hp : s.phase = .idle) (he : s.engine = none) : s.Inv := by
  refine ⟨hm, hr, (State.commandOk_iff s).mpr fun snap h => ?_, hf, (State.engineOk_iff s).mpr fun e h => ?_⟩
  · rw [hp] at h
    cases h
  · rw [he] at h
    cases h

/-- The flags depend on STATUS and on whether a command runs. -/
theorem State.flagsOk_congr {s t : State} (hs : t.status = s.status) (hb : t.busy = s.busy) : t.flagsOk = s.flagsOk := by
  unfold State.flagsOk
  rw [hs, hb]

/-- The flags of a successful completion (60_exceptions.md R312). -/
theorem flagsOk_of_completed {s : State} (hp : s.phase = .idle) (he : s.status.err = false)
    (hc : s.status.errCode = .none) : s.flagsOk = true := by
  rw [State.flagsOk_iff, busy_eq_false.mpr hp, he, hc]
  simp

/-- The flags of an error completion (60_exceptions.md R313). -/
theorem flagsOk_of_failed {s : State} (hp : s.phase = .idle) (hd : s.status.done = false) (he : s.status.err = true)
    (hc : s.status.errCode ≠ .none) (hh : s.status.noHuffFlags = true) : s.flagsOk = true := by
  rw [State.flagsOk_iff, busy_eq_false.mpr hp, hd, he, hh]
  simp [hc]

/-! ## A command's step -/

theorem ofNat_and_lowMask (n : Nat) : BitVec.ofNat 32 (n % 65536) &&& 0x0000FFFF#32 = BitVec.ofNat 32 (n % 65536) := by
  apply BitVec.eq_of_toNat_eq
  rw [BitVec.toNat_and, BitVec.toNat_ofNat, Nat.mod_eq_of_lt (by omega)]
  show n % 65536 &&& 2 ^ 16 - 1 = _
  rw [Nat.and_two_pow_sub_one_eq_mod]
  omega

/-- The results HUFF commits are in their ranges (10_state.md R44). -/
theorem registersOk_commitHuff {s : State} (h : s.registersOk = true) (ops : Snapshot) {r : HuffResult}
    (hr : r.nz ≤ 576 ∧ r.r1 ≤ 576 ∧ r.r2 ≤ 576 ∧ r.bv ≤ 288) : (commitHuff ops r s).registersOk = true := by
  obtain ⟨hcmd, hirq, -, hp2, hg, ht, hs, -⟩ := (State.registersOk_iff s).mp h
  obtain ⟨hnz, hr1, hr2, hbv⟩ := hr
  refine (State.registersOk_iff _).mpr ⟨hcmd, hirq, ofNat_and_lowMask _, hp2, hg, ht, hs, ?_, ?_, ?_, ?_⟩ <;>
    simp only [commitHuff_hufNonzero, commitHuff_hufRegion, commitHuff_hufBveff, BitVec.toNat_ofNat] <;> omega

theorem inv_finish {s : State} (hm : s.mem.wf = true) (hr : s.registersOk = true)
    (he : s.status.err = false) (hc : s.status.errCode = .none) : (finish s).Inv :=
  inv_of_idle hm hr (flagsOk_of_completed rfl he hc) rfl rfl

theorem inv_raiseError {s : State} {c : ErrCode} (hm : s.mem.wf = true) (hr : s.registersOk = true) (hc : c ≠ .none)
    (hd : s.status.done = false) (hh : s.status.noHuffFlags = true) : (raiseError c s).Inv :=
  inv_of_idle (wf_raiseError hm c) hr (flagsOk_of_failed rfl hd rfl hc hh) rfl rfl

theorem exec_inv {i : Instr} {s t : State} {snap : Snapshot} (h : s.Inv) (hp : s.phase = .busy snap)
    (hx : exec i s = .next t) : t.Inv := by
  obtain ⟨hd, he, hc, hh⟩ := h.flags_of_busy hp
  have hwf := exec_wf h.1 hx
  obtain ⟨hm, hr, hcmd, hf, hen⟩ := h
  obtain ⟨m, d, rfl⟩ | ⟨-, r, hres, rfl⟩ | ⟨c, hcn, rfl⟩ | ⟨e, e', hse, hat, rfl⟩ := exec_next hx
  · exact inv_finish hwf hr he hc
  · exact inv_finish hwf (registersOk_commitHuff hr _ (huffDecode_results hres)) he hc
  · exact inv_raiseError hm hr hcn hd hh
  · refine ⟨hm, hr, hcmd, hf, (State.engineOk_iff _).mpr ?_⟩
    rintro _ ⟨⟩
    exact ⟨((State.engineOk_iff s).mp hen e hse).1, hat⟩

theorem sequencerTurn_inv {s t : State} (h : s.Inv) (hq : sequencerTurn s = .next t) : t.Inv := by
  obtain ⟨-, rfl⟩ | ⟨snap, i, rest, hp, -, hx⟩ := sequencerTurn_next hq
  · exact h
  · exact exec_inv h hp hx

/-! ## The host's accesses: ACC_ERR, CMD_DROP, the value read and the count of draws are no part of the invariant -/

theorem setAccErr_inv {s : State} (h : s.Inv) : (setAccErr s).Inv := h

theorem answer_inv {s : State} (h : s.Inv) (v : Word) : (answer v s).Inv := h

theorem answerFree_inv {s : State} (h : s.Inv) (width : Width) : (answerFree width s).Inv := h

theorem acceptStart_inv {s : State} (h : s.Inv) (hop : s.parameters.op < 6) : (acceptStart s).Inv := by
  obtain ⟨hm, hr, -, -, -⟩ := h
  refine ⟨hm, hr, (State.commandOk_iff _).mpr ?_, ?_, rfl⟩
  · rintro _ ⟨⟩
    exact ⟨rfl, hop⟩
  · rw [State.flagsOk_iff]
    simp [Status.noHuffFlags]

theorem start_inv {s : State} (h : s.Inv) : (start s).Inv := by
  cases hp : s.phase with
  | busy snap =>
    rw [start_busy hp]
    exact h
  | idle =>
    rcases Nat.lt_or_ge s.parameters.op 6 with hop | hop
    · rw [start_accepted hp hop]
      exact acceptStart_inv h hop
    · rw [start_reserved hp hop]
      obtain ⟨hm, hr, -⟩ := h
      exact inv_raiseError hm hr (by decide) rfl rfl

theorem registersOk_reset : State.reset.registersOk = true := by decide

theorem softReset_inv {s : State} (h : s.Inv) : (softReset s).Inv :=
  inv_of_idle (wf_clearCarried (wf_abandonMemory h.1 s.phase)) registersOk_reset rfl rfl rfl

theorem powerOnReset_inv (s : State) : (powerOnReset s).Inv := inv_of_idle rfl registersOk_reset rfl rfl rfl

/-- Acknowledging clears ERR and ERRCODE together (60_exceptions.md R314). -/
theorem acknowledge_inv {s : State} (h : s.Inv) (v : Word) : (acknowledge v s).Inv := by
  obtain ⟨hm, hr, hc, hf, he⟩ := h
  refine ⟨hm, hr, hc, ?_, he⟩
  obtain ⟨hde, hcode, hhuff, hbusy⟩ := (State.flagsOk_iff s).mp hf
  have hb : (acknowledge v s).busy = s.busy := rfl
  have hh : (acknowledge v s).status.noHuffFlags = s.status.noHuffFlags := rfl
  rw [State.flagsOk_iff, hb, hh, acknowledge_status, Status.writeOneToClear_done, Status.writeOneToClear_err,
    Status.writeOneToClear_errCode]
  cases v.getLsbD 1 <;> cases v.getLsbD 2 <;> simp_all

/-- A write of a register's writable bits while no command runs. -/
theorem inv_of_registers {s t : State} (h : s.Inv) (hb : s.busy = false) (hr : t.registersOk = true)
    (ht : t.mem = s.mem ∧ t.phase = s.phase ∧ t.engine = s.engine ∧ t.status = s.status) : t.Inv := by
  obtain ⟨hm, hp, he, hs⟩ := ht
  have hidle := busy_eq_false.mp hb
  have hengine := h.engine_of_idle hidle
  obtain ⟨hwf, -, -, hf, -⟩ := h
  have hbusy : t.busy = s.busy := by rw [State.busy, State.busy, hp]
  exact inv_of_idle (by rw [hm]; exact hwf) hr ((State.flagsOk_congr hs hbusy).trans hf) (hp.trans hidle)
    (he.trans hengine)

theorem writeReg_inv {s : State} (h : s.Inv) (r : Reg) (v : Word) : (writeReg s r v).Inv := by
  obtain ⟨hcmd, hirq, hbp, hp2, hg, ht, hsf, hres⟩ := (State.registersOk_iff s).mp h.2.1
  rcases writeReg_cases s r v with hw | hw | hw | hw | hw | hw | ⟨hb, hw | hw | hw | hw | hw | hw⟩ <;> rw [hw]
  · exact h
  · exact setAccErr_inv h
  · exact softReset_inv h
  · exact start_inv h
  · exact acknowledge_inv h v
  · exact ⟨h.1, (State.registersOk_iff _).mpr ⟨hcmd, mask_idem _ _, hbp, hp2, hg, ht, hsf, hres⟩, h.2.2⟩
  · exact inv_of_registers h hb ((State.registersOk_iff _).mpr ⟨mask_idem _ _, hirq, hbp, hp2, hg, ht, hsf, hres⟩)
      ⟨rfl, rfl, rfl, rfl⟩
  · exact inv_of_registers h hb ((State.registersOk_iff _).mpr ⟨hcmd, hirq, mask_idem _ _, hp2, hg, ht, hsf, hres⟩)
      ⟨rfl, rfl, rfl, rfl⟩
  · exact inv_of_registers h hb ((State.registersOk_iff _).mpr ⟨hcmd, hirq, hbp, mask_idem _ _, hg, ht, hsf, hres⟩)
      ⟨rfl, rfl, rfl, rfl⟩
  · exact inv_of_registers h hb ((State.registersOk_iff _).mpr ⟨hcmd, hirq, hbp, hp2, mask_idem _ _, ht, hsf, hres⟩)
      ⟨rfl, rfl, rfl, rfl⟩
  · exact inv_of_registers h hb ((State.registersOk_iff _).mpr ⟨hcmd, hirq, hbp, hp2, hg, mask_idem _ _, hsf, hres⟩)
      ⟨rfl, rfl, rfl, rfl⟩
  · exact inv_of_registers h hb ((State.registersOk_iff _).mpr ⟨hcmd, hirq, hbp, hp2, hg, ht, mask_idem _ _, hres⟩)
      ⟨rfl, rfl, rfl, rfl⟩

theorem hostWrite_inv {s : State} (h : s.Inv) (addr : Address) (width : Width) (v : Word) :
    (hostWrite addr width v s).Inv := by
  obtain hw | hw | ⟨r, -, -, hw⟩ | ⟨hmem, hal, -, hw⟩ := hostWrite_cases addr width v s <;> rw [hw]
  · exact h
  · exact setAccErr_inv h
  · exact writeReg_inv h r v
  · exact ⟨wf_hostStore h.1 v hmem hal, h.2⟩

theorem hostRead_inv {addr : Address} {width : Width} {s t : State} (h : s.Inv) (hr : hostRead addr width s = .next t) :
    t.Inv := by
  obtain ⟨v, rfl⟩ | rfl | rfl := hostRead_next hr
  · exact answer_inv h v
  · exact answerFree_inv h width
  · exact answerFree_inv (setAccErr_inv h) width

/-- Settles O10: a host access keeps the invariant, a reset establishes it, and the sequencer's turn ends the command or moves
its walk; the inputs still to come are no part of it. -/
theorem stepKeepsTheInvariant : Obligations.StepKeepsTheInvariant := by
  intro s t h hs
  obtain ⟨-, hq⟩ | ⟨addr, width, rest, -, hr⟩ | ⟨addr, width, v, rest, -, rfl⟩ | ⟨rest, -, hq⟩ | ⟨rest, -, rfl⟩ :=
    step_next hs
  · exact sequencerTurn_inv h hq
  · exact hostRead_inv (s := { s with inputs := rest }) h hr
  · exact hostWrite_inv (s := { s with inputs := rest }) h addr width v
  · exact sequencerTurn_inv (s := { s with inputs := rest }) h hq
  · exact powerOnReset_inv _

end Sys2Proof.Machine
end

section
/-! PROOF. Every step keeps the canonical form of memory. -/

namespace Sys2Proof.Machine

theorem writeReg_wf {s : State} (hm : s.mem.wf = true) (r : Reg) (v : Word) : (writeReg s r v).mem.wf = true := by
  rcases writeReg_cases s r v with h | h | h | h | h | h | ⟨-, h | h | h | h | h | h⟩ <;> rw [h]
  case inr.inr.inl => exact wf_clearCarried (wf_abandonMemory hm s.phase)
  case inr.inr.inr.inl => rw [start_mem]; exact hm
  all_goals exact hm

theorem hostWrite_wf {s : State} (hm : s.mem.wf = true) (addr : Address) (width : Width) (v : Word) :
    (hostWrite addr width v s).mem.wf = true := by
  obtain h | h | ⟨r, -, -, h⟩ | ⟨hmem, hal, -, h⟩ := hostWrite_cases addr width v s <;> rw [h]
  · exact hm
  · exact hm
  · exact writeReg_wf hm r v
  · exact wf_hostStore hm v hmem hal

theorem sequencerTurn_wf {s t : State} (hm : s.mem.wf = true) (h : sequencerTurn s = .next t) : t.mem.wf = true := by
  obtain ⟨-, rfl⟩ | ⟨snap, i, rest, -, -, hx⟩ := sequencerTurn_next h
  · exact hm
  · exact exec_wf hm hx

/-- Settles O11: a host's store is aligned and so stays in the memory of its first byte, the stores of an instruction lie in
their memories, and the resets only drop cells (20_memory.md R88, 10_state.md R56). -/
theorem stepKeepsMemoryCanonical : Obligations.StepKeepsMemoryCanonical := by
  intro s t hm hs
  obtain ⟨-, hq⟩ | ⟨addr, width, rest, -, hr⟩ | ⟨addr, width, v, rest, -, rfl⟩ | ⟨rest, -, hq⟩ | ⟨rest, -, rfl⟩ :=
    step_next hs
  · exact sequencerTurn_wf hm hq
  · rw [hostRead_mem hr]; exact hm
  · exact hostWrite_wf (s := { s with inputs := rest }) hm addr width v
  · exact sequencerTurn_wf (s := { s with inputs := rest }) hm hq
  · rfl

end Sys2Proof.Machine
end

section
/-! PROOF. The host's accesses of the memories, and the accesses that are refused or ignored (20_memory.md R80 to R92). -/

namespace Sys2Proof.Machine

/-! ## Refused and unmapped accesses -/

theorem hostRead_memory_misaligned {addr : Address} {width : Width} (s : State)
    (hm : (region addr.toNat).isMemory = true) (ha : addr.toNat % Width.count width ≠ 0) :
    hostRead addr width s = .next (answerFree width (setAccErr s)) := by
  rw [hostRead_memory s addr width hm, aligned, decide_eq_false ha, Bool.not_false, if_pos rfl]

theorem hostWrite_memory_misaligned {addr : Address} {width : Width} (s : State) (v : Word)
    (hm : (region addr.toNat).isMemory = true) (ha : addr.toNat % Width.count width ≠ 0) :
    hostWrite addr width v s = setAccErr s := by
  rw [hostWrite_memory s addr width v hm, aligned, decide_eq_false ha, Bool.not_false, if_pos rfl]

/-- An access that is narrow or not aligned is none of a whole register (20_memory.md R82). -/
theorem wholeRegister_eq_false {a : Nat} {width : Width} (h : width ≠ .w4 ∨ a % 4 ≠ 0) :
    wholeRegister a width = false := by
  cases width with
  | w1 => rfl
  | w2 => rfl
  | w4 => exact decide_eq_false (h.resolve_left (absurd rfl))

theorem hostRead_partRegister {addr : Address} {width : Width} (s : State) (hr : region addr.toNat = .regs)
    (hs : (regAt addr.toNat).isSome = true) (hw : wholeRegister addr.toNat width = false) :
    hostRead addr width s = .next (answerFree width (setAccErr s)) := by
  obtain ⟨r, ha⟩ := Option.isSome_iff_exists.mp hs
  simp only [hostRead, hr, ha, hw, Bool.false_eq_true, if_false]

theorem hostWrite_partRegister {addr : Address} {width : Width} (s : State) (v : Word) (hr : region addr.toNat = .regs)
    (hs : (regAt addr.toNat).isSome = true) (hw : wholeRegister addr.toNat width = false) :
    hostWrite addr width v s = setAccErr s := by
  obtain ⟨r, ha⟩ := Option.isSome_iff_exists.mp hs
  simp only [hostWrite, hr, ha, hw, Bool.false_eq_true, if_false]

/-- Settles O55: a refused access sets ACC_ERR, and a refused read takes a free value (93_implementation_defined.md U5,
U6). -/
theorem misalignedAccessesAreRefused : Obligations.MisalignedAccessesAreRefused := by
  rintro s addr width v (⟨hm, ha⟩ | ⟨hr, hs, hw⟩)
  · exact ⟨hostWrite_memory_misaligned s v hm ha, _, hostRead_memory_misaligned s hm ha, rfl⟩
  · have hpart := wholeRegister_eq_false hw
    exact ⟨hostWrite_partRegister s v hr hs hpart, _, hostRead_partRegister s hr hs hpart, rfl⟩

/-- Settles O56: at an unmapped address and at an unused register offset a read answers 0 and a write does nothing
(20_memory.md R90, 10_state.md R45). -/
theorem unmappedReadsZero : Obligations.UnmappedReadsZero := by
  refine ⟨?_, region_unmapped_iff, regAt_none_iff⟩
  rintro s addr width v (hr | ⟨hr, ha⟩)
  · exact ⟨by simp only [hostRead, hr, answer], by simp only [hostWrite, hr]⟩
  · exact ⟨by simp only [hostRead, hr, ha, answer], by simp only [hostWrite, hr, ha]⟩

/-- Settles O59: a read that answers takes its value from the state or from a draw, and may set ACC_ERR. -/
theorem readsHaveNoSideEffects : Obligations.ReadsHaveNoSideEffects := by
  intro s t addr width h
  obtain ⟨v, rfl⟩ | rfl | rfl := hostRead_next h
  · exact ⟨rfl, id⟩
  · exact ⟨rfl, id⟩
  · exact ⟨rfl, fun _ => rfl⟩

/-! ## Reading back what was written -/

/-- Bytes read where bytes were stored. -/
theorem Memory.bytes_store (m : Memory) (lo : Nat) (bs : List Byte) :
    (m.store lo (bs.map some)).bytes lo bs.length = bs.map some := by
  refine List.ext_getElem (by rw [Memory.bytes_length, List.length_map]) fun j h1 h2 => ?_
  rw [Memory.bytes_getElem, Memory.get_store_inside m lo (bs.map some) j h2, List.getElem_map, Option.some_or]

theorem toNat_byteAt (v : Word) (j : Nat) : (v.byteAt j).toNat = v.toNat / 2 ^ (8 * j) % 256 := by
  rw [Word.byteAt, BitVec.extractLsb'_toNat, Nat.shiftRight_eq_div_pow]

/-- The little-endian value of a word's low bytes is the word, cut to their width (20_memory.md R81). -/
theorem bytesValue_writeBytes (v : Word) (width : Width) :
    bytesValue ((v.bytes.take (Width.count width)).map some) = some (v.toNat % 2 ^ (8 * Width.count width)) := by
  have h0 := toNat_byteAt v 0
  have h1 := toNat_byteAt v 1
  have h2 := toNat_byteAt v 2
  have h3 := toNat_byteAt v 3
  cases width <;>
    simp only [Width.count, Word.bytes, List.take, List.map, bytesValue, Option.some.injEq] <;>
    omega

/-- A byte of what a write stores. -/
theorem writeBytes_getElem (v : Word) (width : Width) (j : Nat)
    (h : j < ((v.bytes.take (Width.count width)).map some).length) :
    ((v.bytes.take (Width.count width)).map some)[j] = some (v.byteAt j) := by
  have hj : j < 4 := by
    rw [writeBytes_length] at h
    have := Width.count_cases width
    omega
  rw [List.getElem_map, List.getElem_take]
  interval_cases j <;> rfl

theorem hostWrite_memory_idle {s : State} {addr : Address} {width : Width} (v : Word) (hb : s.busy = false)
    (hm : (region addr.toNat).isMemory = true) (ha : addr.toNat % Width.count width = 0) :
    hostWrite addr width v s =
      { s with mem := s.mem.store addr.toNat ((v.bytes.take (Width.count width)).map some) } := by
  simp only [hostWrite_memory s addr width v hm, aligned, ha, hb, decide_true, Bool.not_true, Bool.false_eq_true, if_false]

theorem hostRead_memory_idle {s : State} {addr : Address} {width : Width} {n : Nat} (hb : s.busy = false)
    (hm : (region addr.toNat).isMemory = true) (ha : addr.toNat % Width.count width = 0)
    (hv : bytesValue (s.mem.bytes addr.toNat (Width.count width)) = some n) :
    hostRead addr width s = .next (answer (BitVec.ofNat 32 n) s) := by
  simp only [hostRead_memory s addr width hm, aligned, ha, hb, hv, decide_true, Bool.not_true, Bool.false_eq_true, if_false]

theorem Region.isMemory_iff (ρ : Region) : ρ.isMemory = true ↔ ρ ≠ .regs ∧ ρ ≠ .unmapped := by
  cases ρ <;> simp [Region.isMemory]

theorem element_addresses (k sb i : Nat) :
    mdbAddr k = 0x1000 + k ∧ isAddr k = 0x2000 + 2 * k ∧ xrAddr k = 0x3000 + 4 * k ∧ pcmAddr k = 0x4000 + 2 * k ∧
    ovlAddr .left sb i = 0x5000 + 4 * (18 * sb + i) ∧ ovlAddr .right sb i = 0x5000 + 4 * (576 + 18 * sb + i) ∧
    vAddr .left i = 0x8000 + 4 * i ∧ vAddr .right i = 0x8000 + 4 * (1024 + i) := by
  refine ⟨rfl, rfl, rfl, rfl, ?_, ?_, ?_, ?_⟩ <;> simp only [ovlAddr, vAddr, channelIndex] <;> omega

/-- Settles O57: a write stores its bytes as one run, and the run read back has their value. -/
theorem memoryReadsBackWhatWasWritten : Obligations.MemoryReadsBackWhatWasWritten := by
  refine ⟨fun s addr width v hb hm ha => ?_, fun a => ?_, element_addresses, Memory.word_iff, Memory.half_iff, rfl, rfl, rfl,
    fun _ _ => rfl⟩
  · have hlen := writeBytes_length v width
    rw [hostWrite_memory_idle v hb hm ha]
    refine ⟨hostRead_memory_idle hb hm ha ?_, fun j hj => ?_, fun a h => ?_, rfl⟩
    · have := Memory.bytes_store s.mem addr.toNat (v.bytes.take (Width.count width))
      rw [List.length_map] at hlen
      rw [hlen] at this
      rw [this, bytesValue_writeBytes]
    · rw [← hlen] at hj
      rw [Memory.get_store_inside s.mem addr.toNat _ j hj, writeBytes_getElem, Option.some_or]
    · exact Memory.get_store_outside s.mem addr.toNat _ a (by omega)
  · obtain ⟨hregs, hmdb, his, hxr, hpcm, hovl, hv⟩ := region_map a
    exact ⟨hregs, hmdb, his, hxr, hpcm, hovl, hv, Region.isMemory_iff (region a)⟩

end Sys2Proof.Machine
end

section
/-! PROOF. The binary32 addition: one rounding is nearest, ties to even, and what an addition answers by the classes of its
operands (41_antialias.md R216 to R218). -/

namespace Sys2Proof.F32

/-! ## One rounding is the nearest -/

/-- A rounded quotient is within half a quantum of `m`, and even at the half. -/
theorem roundQuot_error (m q : Nat) :
    2 * |(roundQuot m q : Int) * 2 ^ q - m| ≤ 2 ^ q ∧
      (2 * |(roundQuot m q : Int) * 2 ^ q - m| = 2 ^ q → roundQuot m q % 2 = 0) := by
  obtain ⟨hlo, hhi, htie⟩ := roundQuot_spec m q
  have hQ : ((2 ^ q : Nat) : Int) = 2 ^ q := Nat.cast_pow 2 q
  have hrQ : ((roundQuot m q * 2 ^ q : Nat) : Int) = (roundQuot m q : Int) * 2 ^ q := by rw [Nat.cast_mul, hQ]
  rw [← hrQ, ← hQ]
  rcases abs_cases (((roundQuot m q * 2 ^ q : Nat) : Int) - m) with ⟨e, -⟩ | ⟨e, -⟩ <;> rw [e]
  · exact ⟨by omega, fun h => htie (.inl (by omega))⟩
  · exact ⟨by omega, fun h => htie (.inr (by omega))⟩

/-- No other whole multiple of 2^q is nearer to `m` than the rounded quotient's, and one as near makes it even. -/
theorem roundQuot_nearest (m q : Nat) (n : Int) :
    |(roundQuot m q : Int) * 2 ^ q - m| ≤ |n * 2 ^ q - m| ∧
      (|(roundQuot m q : Int) * 2 ^ q - m| = |n * 2 ^ q - m| → n ≠ roundQuot m q → roundQuot m q % 2 = 0) := by
  obtain ⟨hle, htie⟩ := roundQuot_error m q
  by_cases hn : n = roundQuot m q
  · rw [hn]
    exact ⟨le_rfl, fun _ h => absurd rfl h⟩
  have hfar : (2 ^ q : Int) ≤ |n * 2 ^ q - m| + |(roundQuot m q : Int) * 2 ^ q - m| :=
    calc (2 ^ q : Int) ≤ |n - roundQuot m q| * 2 ^ q :=
          le_mul_of_one_le_left (by positivity) (Int.one_le_abs (sub_ne_zero.mpr hn))
      _ = |n * 2 ^ q - roundQuot m q * 2 ^ q| := by
          rw [← sub_mul, abs_mul, abs_of_pos (by positivity : (0 : Int) < 2 ^ q)]
      _ ≤ |n * 2 ^ q - m| + |(roundQuot m q : Int) * 2 ^ q - m| := by
          rw [abs_sub_comm ((roundQuot m q : Int) * 2 ^ q)]
          exact abs_sub_le _ _ _
  exact ⟨by omega, fun he _ => htie (by omega)⟩

/-- A magnitude is a multiple of a power of two unless it is small beside it: an encoding has 24 significant bits. -/
theorem dvd_magOf_or_lt (p d : Nat) : 2 ^ d ∣ magOf p ∨ (d ≠ 0 ∧ magOf p < 2 ^ (d + 23)) := by
  have h23 : p % 2 ^ 23 < 2 ^ 23 := Nat.mod_lt _ (by decide)
  rcases Nat.eq_zero_or_pos d with rfl | hd
  · exact .inl (one_dvd _)
  unfold magOf
  split
  · have h1 : 2 ^ 23 ≤ 2 ^ (d + 23) := Nat.pow_le_pow_right (by decide) (by omega)
    exact .inr ⟨by omega, by omega⟩
  · rcases Nat.lt_or_ge (p / 2 ^ 23 - 1) d with h | h
    · refine .inr ⟨by omega, ?_⟩
      calc (2 ^ 23 + p % 2 ^ 23) * 2 ^ (p / 2 ^ 23 - 1)
          < 2 ^ 24 * 2 ^ (p / 2 ^ 23 - 1) := Nat.mul_lt_mul_of_pos_right (by omega) (by positivity)
        _ = 2 ^ (24 + (p / 2 ^ 23 - 1)) := (pow_add ..).symm
        _ ≤ 2 ^ (d + 23) := Nat.pow_le_pow_right (by decide) (by omega)
    · exact .inl (dvd_mul_of_dvd_right (pow_dvd_pow 2 h) _)

/-- Rounding `m` units of 2^-(149+k) to a finite value: no value `u` of an encoding is nearer, and another one as near
belongs to a tie whose even side was taken (41_antialias.md R216). -/
theorem roundMag_nearest {m k : Nat} (hfin : roundMag m k < infPattern) {u : Int} {p : Nat} (hu : u.natAbs = magOf p) :
    |(magOf (roundMag m k) : Int) * 2 ^ k - m| ≤ |u * 2 ^ k - m| ∧
      (|(magOf (roundMag m k) : Int) * 2 ^ k - m| = |u * 2 ^ k - m| → u ≠ magOf (roundMag m k) →
        roundMag m k % 2 = 0) := by
  obtain ⟨q, hk, hge, -, hmag, hpar⟩ := roundMag_spec m k hfin
  obtain ⟨d, rfl⟩ := Nat.exists_eq_add_of_le hk
  rw [Nat.add_sub_cancel_left] at hmag
  have hround : (magOf (roundMag m k) : Int) * 2 ^ k = (roundQuot m (k + d) : Int) * 2 ^ (k + d) := by
    rw [hmag]; push_cast; ring
  rw [hround, hpar]
  rcases dvd_magOf_or_lt p d with hdvd | ⟨hd, hlt⟩
  · obtain ⟨n, rfl⟩ : (2 ^ d : Int) ∣ u := by
      rw [← Int.natAbs_dvd_natAbs, hu, Int.natAbs_pow]
      exact hdvd
    have hu' : 2 ^ d * n * 2 ^ k = n * 2 ^ (k + d) := by ring
    rw [hu']
    obtain ⟨hle, htie⟩ := roundQuot_nearest m (k + d) n
    refine ⟨hle, fun he hne => htie he fun hn => hne ?_⟩
    rw [hn, hmag]; push_cast; ring
  · have hm : 2 ^ (k + d + 23) ≤ m := hge.resolve_left (by omega)
    have hsmall : |u * 2 ^ k| < 2 ^ (k + d + 23) := by
      rw [abs_mul, abs_of_pos (by positivity : (0 : Int) < 2 ^ k), Int.abs_eq_natAbs, hu]
      have := Nat.mul_lt_mul_of_pos_right hlt (Nat.two_pow_pos k)
      rw [← pow_add, show d + 23 + k = k + d + 23 by omega] at this
      exact_mod_cast this
    have hbound := (roundQuot_nearest m (k + d) (2 ^ 23)).1
    have hm' : (2 ^ (k + d + 23) : Int) ≤ m := by exact_mod_cast hm
    have he : (2 ^ 23 * 2 ^ (k + d) : Int) = 2 ^ (k + d + 23) := by ring
    rw [he, abs_of_nonpos (by omega : (2 ^ (k + d + 23) : Int) - m ≤ 0)] at hbound
    have hstrict : |(roundQuot m (k + d) : Int) * 2 ^ (k + d) - m| < |u * 2 ^ k - m| := by
      have := (abs_lt.mp hsmall).2
      rw [abs_of_neg (by omega : u * 2 ^ k - m < 0)]
      omega
    exact ⟨hstrict.le, fun he => absurd he hstrict.ne⟩

theorem natAbs_units (w : Word) : (units w).natAbs = magOf (w.toNat % 2 ^ 31) := by
  rw [← magUnits_eq]
  unfold units
  split <;> omega

/-- `roundMag_nearest` with a sign: `z` is the exact value, in units of 2^-(149+k). -/
theorem withSign_roundMag_nearest {neg : Bool} {m k : Nat} {z : Int} (hz : z = if neg then -(m : Int) else m)
    (hfin : roundMag m k < infPattern) (c : Word) :
    |units (withSign neg (roundMag m k)) * 2 ^ k - z| ≤ |units c * 2 ^ k - z| ∧
      (|units (withSign neg (roundMag m k)) * 2 ^ k - z| = |units c * 2 ^ k - z| →
        units c ≠ units (withSign neg (roundMag m k)) → (withSign neg (roundMag m k)).toNat % 2 = 0) := by
  have hlt : roundMag m k < 2 ^ 31 := hfin.trans infPattern_lt
  have hpar : (withSign neg (roundMag m k)).toNat % 2 = roundMag m k % 2 := by rw [withSign_toNat neg hlt]; omega
  rw [hpar, units_withSign neg hlt]
  cases neg with
  | false =>
    rw [hz]
    exact roundMag_nearest hfin (natAbs_units c)
  | true =>
    obtain ⟨hle, htie⟩ := roundMag_nearest hfin (u := -units c) ((Int.natAbs_neg _).trans (natAbs_units c))
    have hflip : ∀ x : Int, |-x * 2 ^ k - z| = |x * 2 ^ k - m| := fun x => by
      rw [hz, if_pos rfl, neg_mul, neg_sub_neg, abs_sub_comm]
    have hc := hflip (-units c)
    rw [neg_neg] at hc
    simp only [if_true, hflip, hc]
    exact ⟨hle, fun he hne => htie he (by omega)⟩

/-! ## Additions of finite operands -/

theorem isFinite_withSign (neg : Bool) {p : Nat} (h : p < 2 ^ 31) :
    isFinite (withSign neg p) = true ↔ p < infPattern := by rw [isFinite_iff, withSign_mod neg h]

theorem roundMag_lt (m k : Nat) : roundMag m k < 2 ^ 31 := (roundMag_le m k).trans_lt infPattern_lt

theorem add_of_finite {a b : Word} (ha : isFinite a = true) (hb : isFinite b = true) :
    add a b = if units a + units b = 0 then withSign (sign a && sign b) 0
      else withSign (decide (units a + units b < 0)) (roundMag (units a + units b).natAbs 0) := by
  obtain ⟨hna, hia⟩ := not_nan_of_finite ha
  obtain ⟨hnb, hib⟩ := not_nan_of_finite hb
  simp only [add, hna, hia, hnb, hib, Bool.or_self, Bool.false_eq_true, if_false]

/-- A sum of finite operands is one rounding of their exact sum, of its sign. -/
theorem add_eq_roundMag {a b : Word} (ha : isFinite a = true) (hb : isFinite b = true) :
    ∃ neg, add a b = withSign neg (roundMag (units a + units b).natAbs 0) ∧
      units a + units b = if neg then -((units a + units b).natAbs : Int) else (units a + units b).natAbs := by
  rw [add_of_finite ha hb]
  by_cases hz : units a + units b = 0
  · refine ⟨sign a && sign b, ?_, ?_⟩
    · rw [if_pos hz, hz]; rfl
    · rw [hz]; cases sign a && sign b <;> rfl
  · refine ⟨decide (units a + units b < 0), if_neg hz, ?_⟩
    by_cases hn : units a + units b < 0
    · rw [decide_eq_true hn, if_pos rfl]; omega
    · rw [decide_eq_false hn, if_neg Bool.false_ne_true]; omega

theorem add_nearest {a b : Word} (ha : isFinite a = true) (hb : isFinite b = true) (hab : isFinite (add a b) = true)
    (c : Word) :
    |units (add a b) - (units a + units b)| ≤ |units c - (units a + units b)| ∧
      (|units (add a b) - (units a + units b)| = |units c - (units a + units b)| →
        units c ≠ units (add a b) → (add a b).toNat % 2 = 0) := by
  obtain ⟨neg, he, hz⟩ := add_eq_roundMag ha hb
  rw [he, isFinite_withSign neg (roundMag_lt _ _)] at hab
  have := withSign_roundMag_nearest hz hab c
  rw [← he] at this
  simpa only [pow_zero, mul_one] using this

/-- A sum of finite operands is infinite exactly when its one rounding overflows. -/
theorem add_not_finite_iff {a b : Word} (ha : isFinite a = true) (hb : isFinite b = true) :
    isFinite (add a b) = false ↔ roundMag (units a + units b).natAbs 0 = infPattern := by
  obtain ⟨neg, he, -⟩ := add_eq_roundMag ha hb
  have hle := roundMag_le (units a + units b).natAbs 0
  rw [he, ← Bool.not_eq_true, isFinite_withSign neg (roundMag_lt _ _)]
  omega

theorem add_overflow_iff {a b : Word} (ha : isFinite a = true) (hb : isFinite b = true) :
    isFinite (add a b) = false ↔ (2 ^ 25 - 1) * 2 ^ 252 ≤ |units a + units b| := by
  rw [add_not_finite_iff ha hb, roundMag_overflow, Int.abs_eq_natAbs]
  omega

theorem add_overflow {a b : Word} (ha : isFinite a = true) (hb : isFinite b = true)
    (h : isFinite (add a b) = false) :
    add a b = if units a + units b < 0 then 0xFF800000#32 else 0x7F800000#32 := by
  have hinf := (add_not_finite_iff ha hb).mp h
  have hz : units a + units b ≠ 0 := fun hz => by
    rw [hz] at hinf
    exact absurd hinf (by decide)
  rw [add_of_finite ha hb, if_neg hz, hinf]
  by_cases hn : units a + units b < 0
  · rw [if_pos hn, decide_eq_true hn]; rfl
  · rw [if_neg hn, decide_eq_false hn]; rfl

theorem add_of_zero_sum {a b : Word} (ha : isFinite a = true) (hb : isFinite b = true) (hz : units a + units b = 0) :
    add a b = if sign a && sign b then 0x80000000#32 else 0x00000000#32 := by
  rw [add_of_finite ha hb, if_pos hz]
  cases sign a && sign b <;> rfl

/-! ## NaN and infinity -/

theorem isNaN_of_isInf {a : Word} (h : isInf a = true) : isNaN a = false := by
  simp only [isInf, isNaN, Bool.and_eq_true, decide_eq_true_eq] at h ⊢
  simp [h.2]

theorem withSign_infPattern {a : Word} (h : isInf a = true) : withSign (sign a) infPattern = a := by
  have hp : a.toNat % 2 ^ 31 = infPattern := by
    rw [isInf, Bool.and_eq_true, decide_eq_true_iff, decide_eq_true_iff] at h
    unfold expo frac at h
    unfold infPattern
    omega
  rw [← hp, withSign_self]

theorem add_nan {a b : Word} (h : isNaN a = true ∨ isNaN b = true) : isNaN (add a b) = true := by
  rw [add, if_pos (Bool.or_eq_true_iff.mpr h)]
  decide

theorem add_inf_inf {a b : Word} (ha : isInf a = true) (hb : isInf b = true) :
    add a b = if sign a = sign b then a else nan := by
  simp only [add, isNaN_of_isInf ha, isNaN_of_isInf hb, ha, hb, withSign_infPattern ha, Bool.or_self, Bool.false_eq_true,
    if_false, if_true, Bool.true_and, bne_iff_ne, ne_eq, ite_not]

theorem add_inf_finite {a b : Word} (ha : isInf a = true) (hb : isFinite b = true) : add a b = a ∧ add b a = a := by
  obtain ⟨hnb, hib⟩ := not_nan_of_finite hb
  simp only [add, isNaN_of_isInf ha, hnb, ha, hib, withSign_infPattern ha, Bool.or_self, Bool.false_eq_true, if_false,
    if_true, Bool.false_and, and_self]

/-! ## The encoding (20_memory.md R89) -/

theorem isFinite_field (a : Word) : isFinite a = true ↔ a.field 23 8 ≠ 255 := by
  rw [expo_eq, isFinite, decide_eq_true_iff]

theorem isInf_field (a : Word) : isInf a = true ↔ a.field 23 8 = 255 ∧ a.field 0 23 = 0 := by
  rw [expo_eq, frac_eq, isInf, Bool.and_eq_true, decide_eq_true_iff, decide_eq_true_iff]

theorem units_field (a : Word) : units a = (if a.getLsbD 31 then -1 else 1) *
    (if a.field 23 8 = 0 then (a.field 0 23 : Int) else (2 ^ 23 + (a.field 0 23 : Int)) * 2 ^ (a.field 23 8 - 1)) := by
  have hmag : (magUnits a : Int) =
      if expo a = 0 then (frac a : Int) else (2 ^ 23 + (frac a : Int)) * 2 ^ (expo a - 1) := by
    unfold magUnits
    split
    · rfl
    · rw [Nat.shiftLeft_eq]; push_cast; rfl
  rw [expo_eq, frac_eq, ← hmag, units, sign]
  split
  · rw [neg_one_mul]
  · rw [one_mul]

/-- Settles O37: a sum of finite operands is one rounding of the exact sum, which is nearest, and even on a tie; the rest is
read off the classes of the operands. -/
theorem additionRoundsToNearestEven : Obligations.AdditionRoundsToNearestEven := by
  refine ⟨fun a b ha hb hab c _ => add_nearest ha hb hab c,
    fun a b ha hb => ⟨add_overflow_iff ha hb, add_overflow ha hb, add_of_zero_sum ha hb⟩,
    fun a b h => add_nan h, fun a b ha hb => ⟨fun hs => ?_, fun hs => ?_⟩,
    fun a b ha hb => add_inf_finite ha hb, fun a b => rfl,
    fun a => ⟨isFinite_field a, rfl, isInf_field a, units_field a⟩⟩
  · rw [add_inf_inf ha hb, if_pos hs]
  · rw [add_inf_inf ha hb, if_neg hs]
    decide

end Sys2Proof.F32
end

section
/-! PROOF. The decoder of command words and table words, an equation for each row of its tables, and the encoder it
inverts. -/

namespace Sys2Proof.Machine

/-! ## The opcode map (30_encoding.md R111) -/

theorem decodeCommand_huff {w : Word} (h : w.field 0 4 = 1) : decodeCommand w = .huff := by
  have h' : (w.extractLsb' 0 4).toNat = 1 := h
  simp only [decodeCommand, h']

theorem decodeCommand_antialias {w : Word} (h : w.field 0 4 = 2) :
    decodeCommand w = .antialias (BlockType.ofBits (w.extractLsb' 8 2)) (w.getLsbD 10) := by
  have h' : (w.extractLsb' 0 4).toNat = 2 := h
  simp only [decodeCommand, h']

theorem decodeCommand_hybrid {w : Word} (h : w.field 0 4 = 3) :
    decodeCommand w =
      .hybrid (Channel.ofBit (w.getLsbD 4)) (BlockType.ofBits (w.extractLsb' 8 2)) (w.getLsbD 10) := by
  have h' : (w.extractLsb' 0 4).toNat = 3 := h
  simp only [decodeCommand, h']

theorem decodeCommand_synth {w : Word} (h : w.field 0 4 = 4) :
    decodeCommand w = .synth (Channel.ofBit (w.getLsbD 4)) (Packing.ofBit (w.getLsbD 12)) := by
  have h' : (w.extractLsb' 0 4).toNat = 4 := h
  simp only [decodeCommand, h']

theorem decodeCommand_clrstate {w : Word} (h : w.field 0 4 = 5) :
    decodeCommand w = .clrstate (Channel.ofBit (w.getLsbD 4)) := by
  have h' : (w.extractLsb' 0 4).toNat = 5 := h
  simp only [decodeCommand, h']

theorem decodeCommand_reserved67 {w : Word} (h : w.field 0 4 = 6 ∨ w.field 0 4 = 7) :
    decodeCommand w = .reserved67 (w.extractLsb' 0 4) := by
  have h' : (w.extractLsb' 0 4).toNat = 6 ∨ (w.extractLsb' 0 4).toNat = 7 := h
  rcases h' with h' | h' <;> simp only [decodeCommand, h']

theorem decodeCommand_reserved8to15 {w : Word} (h : 8 ≤ w.field 0 4) :
    decodeCommand w = .reserved8to15 (w.extractLsb' 0 4) := by
  have h' : 8 ≤ (w.extractLsb' 0 4).toNat := h
  unfold decodeCommand
  split
  case h_9 => rfl
  all_goals omega

/-- The rows of the opcode map, by the opcode. -/
theorem opcode_cases (w : Word) : w.field 0 4 = 0 ∨ w.field 0 4 = 1 ∨ w.field 0 4 = 2 ∨ w.field 0 4 = 3 ∨
    w.field 0 4 = 4 ∨ w.field 0 4 = 5 ∨ (w.field 0 4 = 6 ∨ w.field 0 4 = 7) ∨ 8 ≤ w.field 0 4 := by
  omega

/-- Settles O3: each row of the opcode map looks at OP and its own fields alone (30_encoding.md R112). -/
theorem unlistedFieldsAreIgnored : Obligations.UnlistedFieldsAreIgnored := by
  intro w w' hop hbtm hch hnch
  have hop' : w.extractLsb' 0 4 = w'.extractLsb' 0 4 := BitVec.eq_of_toNat_eq hop
  have hbt : w.field 8 2 = w'.field 8 2 → w.extractLsb' 8 2 = w'.extractLsb' 8 2 := BitVec.eq_of_toNat_eq
  obtain h | h | h | h | h | h | h | h := opcode_cases w
  · rw [decodeCommand_nop h, decodeCommand_nop (hop ▸ h)]
  · rw [decodeCommand_huff h, decodeCommand_huff (hop ▸ h)]
  · obtain ⟨hb, hm⟩ := hbtm (.inl h)
    rw [decodeCommand_antialias h, decodeCommand_antialias (hop ▸ h), hbt hb, hm]
  · obtain ⟨hb, hm⟩ := hbtm (.inr h)
    rw [decodeCommand_hybrid h, decodeCommand_hybrid (hop ▸ h), hch (.inl h), hbt hb, hm]
  · rw [decodeCommand_synth h, decodeCommand_synth (hop ▸ h), hch (.inr (.inl h)), hnch h]
  · rw [decodeCommand_clrstate h, decodeCommand_clrstate (hop ▸ h), hch (.inr (.inr h))]
  · rw [decodeCommand_reserved67 h, decodeCommand_reserved67 (hop ▸ h), hop']
  · rw [decodeCommand_reserved8to15 h, decodeCommand_reserved8to15 (hop ▸ h), hop']

/-! ## The fields of an encoded command (30_encoding.md R110; 10_state.md R33) -/

/-- OP, CH, BT, MIXED and NCH are summands of the word that do not overlap. -/
theorem commandWord_fields {op : Nat} (hop : op < 16) (ch : Bool) (bt : BitVec 2) (mixed nch : Bool) :
    (commandWord op ch bt mixed nch).field 0 4 = op ∧ (commandWord op ch bt mixed nch).getLsbD 4 = ch ∧
      (commandWord op ch bt mixed nch).extractLsb' 8 2 = bt ∧ (commandWord op ch bt mixed nch).getLsbD 10 = mixed ∧
      (commandWord op ch bt mixed nch).getLsbD 12 = nch := by
  have hbt := bt.isLt
  have h4 := ch.toNat_lt
  have h10 := mixed.toNat_lt
  have h12 := nch.toNat_lt
  unfold commandWord
  refine ⟨(field_ofNat 0 4 ?_).trans ?_, getLsbD_ofNat_eq ?_,
    BitVec.eq_of_toNat_eq ((field_ofNat 8 2 ?_).trans ?_), getLsbD_ofNat_eq ?_, getLsbD_ofNat_eq ?_⟩
  all_goals omega

/-- The commands with no field but OP. -/
theorem commandWord_op {op : Nat} (hop : op < 16) : (commandWord op false 0 false false).field 0 4 = op :=
  (commandWord_fields hop false 0 false false).1

theorem BlockType.ofBits_bits (bt : BlockType) : BlockType.ofBits bt.bits = bt := by cases bt <;> rfl

theorem Channel.ofBit_bit (ch : Channel) : Channel.ofBit ch.bit = ch := by cases ch <;> rfl

theorem Packing.ofBit_bit (nch : Packing) : Packing.ofBit nch.bit = nch := by cases nch <;> rfl

/-! ## Table words (30_encoding.md R121) -/

/-- A branch word reads the same in every table. -/
theorem decodeTableHalf_branch (f : Form) {e : Half} (h : e.getLsbD 15 = true) :
    decodeTableHalf f e = .ok (.htabBranch (65536 - e.toNat)) := by
  cases f <;> simp only [decodeTableHalf, decodePairWord, decodeQuadWord, h, if_true]

theorem decodeTableHalf_pairLeaf {e : Half} (h : e.getLsbD 15 = false) (hlt : e.toNat < 256) :
    decodeTableHalf .pairWord e = .ok (.htabLeafPair (Fin.ofNat 16 (e.toNat / 16)) (Fin.ofNat 16 e.toNat)) := by
  simp only [decodeTableHalf, decodePairWord, h, hlt, if_true, Bool.false_eq_true, if_false]

theorem decodeTableHalf_quadLeaf {e : Half} (h : e.getLsbD 15 = false) (hlt : e.toNat < 16) :
    decodeTableHalf .quadWord e =
      .ok (.htabLeafQuad (e.getLsbD 3) (e.getLsbD 2) (e.getLsbD 1) (e.getLsbD 0)) := by
  simp only [decodeTableHalf, decodeQuadWord, h, hlt, if_true, Bool.false_eq_true, if_false]

/-- A table word is a branch where it is 32768 or more, a leaf otherwise (30_encoding.md R120, R121). -/
theorem getLsbD_15_iff (e : Half) : e.getLsbD 15 = true ↔ 32768 ≤ e.toNat := by
  rw [← BitVec.testBit_toNat, Nat.testBit_eq_decide_div_mod_eq, decide_eq_true_iff]
  have := e.isLt
  omega

theorem getLsbD_15_eq_false {e : Half} (h : e.toNat < 32768) : e.getLsbD 15 = false := by
  rw [← Bool.not_eq_true, getLsbD_15_iff]
  omega

/-! ## Decoding inverts encoding -/

theorem decode_command_append (w : Word) (rest : List Byte) :
    decode .command (Word.bytes w ++ rest) = .ok (decodeCommand w, rest) := by
  simp only [decode, Word.bytes, List.cons_append, List.nil_append, wordOfBytes_bytes]

theorem decode_table_append {f : Form} (hf : f ≠ .command) {e : Half} {i : Instr} (hd : decodeTableHalf f e = .ok i)
    (rest : List Byte) : decode f (Half.bytes e ++ rest) = .ok (i, rest) := by
  cases f with
  | command => exact absurd rfl hf
  | pairWord => simp only [decode, Half.bytes, List.cons_append, List.nil_append, halfOfBytes_bytes, hd]
  | quadWord => simp only [decode, Half.bytes, List.cons_append, List.nil_append, halfOfBytes_bytes, hd]

theorem decodeTableHalf_encodedBranch {offset : Nat} (h : 1 ≤ offset ∧ offset ≤ 32768) :
    decodeTableHalf .pairWord (BitVec.ofNat 16 (65536 - offset)) = .ok (.htabBranch offset) := by
  have hn : (BitVec.ofNat 16 (65536 - offset)).toNat = 65536 - offset := by
    rw [BitVec.toNat_ofNat, Nat.mod_eq_of_lt (by omega)]
  rw [decodeTableHalf_branch _ ((getLsbD_15_iff _).mpr (by omega)), hn]
  congr 2
  omega

theorem decodeTableHalf_encodedPair (x y : Fin 16) :
    decodeTableHalf .pairWord (BitVec.ofNat 16 (16 * x.val + y.val)) = .ok (.htabLeafPair x y) := by
  have hx := x.isLt
  have hy := y.isLt
  have hn : (BitVec.ofNat 16 (16 * x.val + y.val)).toNat = 16 * x.val + y.val := by
    rw [BitVec.toNat_ofNat, Nat.mod_eq_of_lt (by omega)]
  rw [decodeTableHalf_pairLeaf (getLsbD_15_eq_false (by omega)) (by omega), hn]
  congr 2 <;> ext <;> simp only [Fin.ofNat] <;> omega

theorem decodeTableHalf_encodedQuad : ∀ v w x y : Bool,
    decodeTableHalf .quadWord (BitVec.ofNat 16 (8 * v.toNat + 4 * w.toNat + 2 * x.toNat + y.toNat)) =
      .ok (.htabLeafQuad v w x y) := by
  decide

/-- Settles O2: an encoded command keeps its fields apart, an encoded table word is the number its row gives. -/
theorem decodeInvertsEncode : Obligations.DecodeInvertsEncode := by
  intro i rest hwf
  cases i with
  | nop =>
    refine (decode_command_append _ rest).trans ?_
    rw [decodeCommand_nop (commandWord_op (by decide))]
  | huff =>
    refine (decode_command_append _ rest).trans ?_
    rw [decodeCommand_huff (commandWord_op (by decide))]
  | antialias bt mixed =>
    obtain ⟨hop, -, hbt, hmixed, -⟩ := commandWord_fields (op := 2) (by decide) false bt.bits mixed false
    refine (decode_command_append _ rest).trans ?_
    rw [decodeCommand_antialias hop, hbt, hmixed, BlockType.ofBits_bits]
  | hybrid ch bt mixed =>
    obtain ⟨hop, hch, hbt, hmixed, -⟩ := commandWord_fields (op := 3) (by decide) ch.bit bt.bits mixed false
    refine (decode_command_append _ rest).trans ?_
    rw [decodeCommand_hybrid hop, hch, hbt, hmixed, Channel.ofBit_bit, BlockType.ofBits_bits]
  | synth ch nch =>
    obtain ⟨hop, hch, -, -, hnch⟩ := commandWord_fields (op := 4) (by decide) ch.bit 0 false nch.bit
    refine (decode_command_append _ rest).trans ?_
    rw [decodeCommand_synth hop, hch, hnch, Channel.ofBit_bit, Packing.ofBit_bit]
  | clrstate ch =>
    obtain ⟨hop, hch, -⟩ := commandWord_fields (op := 5) (by decide) ch.bit 0 false false
    refine (decode_command_append _ rest).trans ?_
    rw [decodeCommand_clrstate hop, hch, Channel.ofBit_bit]
  | reserved67 op =>
    have hop : op.toNat = 6 ∨ op.toNat = 7 := by simpa [WellFormed] using hwf
    refine (decode_command_append _ rest).trans ?_
    rw [decodeCommand_reserved67 (by rwa [commandWord_op op.isLt]), BitVec.eq_of_toNat_eq (commandWord_op op.isLt)]
  | reserved8to15 op =>
    have hop : 8 ≤ op.toNat := of_decide_eq_true hwf
    refine (decode_command_append _ rest).trans ?_
    rw [decodeCommand_reserved8to15 (by rwa [commandWord_op op.isLt]), BitVec.eq_of_toNat_eq (commandWord_op op.isLt)]
  | htabBranch offset =>
    have hoff : 1 ≤ offset ∧ offset ≤ 32768 := by simpa [WellFormed] using hwf
    exact decode_table_append (by decide) (decodeTableHalf_encodedBranch hoff) rest
  | htabLeafPair x y => exact decode_table_append (by decide) (decodeTableHalf_encodedPair x y) rest
  | htabLeafQuad v w x y => exact decode_table_append (by decide) (decodeTableHalf_encodedQuad v w x y) rest

/-- Settles O1: the decoder evaluated on each of the eleven words (30_encoding.md R110, R111, R121, R127). -/
theorem specWordsDecode : Obligations.SpecWordsDecode := by
  unfold Obligations.SpecWordsDecode
  decide

end Sys2Proof.Machine
end

section
/-! PROOF. A table word as an instruction of a walk under way, and the words of a table run one by one as its walk. -/

namespace Sys2Proof.Machine

/-! ## One table word (30_encoding.md R121, R122) -/

/-- A branch word whose bit is read and whose target is in the table moves the walk there. -/
theorem exec_htabBranch_moves {s : State} {offset pos pos' : Nat} {w : Walk} {d : Option Leaf} {bit : Bool} {e : Half}
    (he : s.engine = some ⟨pos, some w, d⟩) (hb : readBit s.mem pos = .ok (bit, pos'))
    (hw : w.table.words[branchTarget w.index offset bit]? = some e) :
    exec (.htabBranch offset) s =
      .next { s with engine := some ⟨pos', some ⟨w.table, branchTarget w.index offset bit, e⟩, d⟩ } := by
  simp only [exec, execHtabBranch, he, hb, hw]

/-- A branch word whose bit is past the end of MDB ends the HUFF in the error of the read. -/
theorem exec_htabBranch_raises {s : State} {offset pos : Nat} {w : Walk} {d : Option Leaf} {c : ErrCode}
    (he : s.engine = some ⟨pos, some w, d⟩) (hb : readBit s.mem pos = .error (.error c)) :
    exec (.htabBranch offset) s = .next (raiseError c s) := by
  simp only [exec, execHtabBranch, he, hb]

/-- No HUFF is stopped inside a walk. -/
def State.NoWalk (s : State) : Prop := s.engine = none ∨ ∃ pos d, s.engine = some ⟨pos, none, d⟩

theorem exec_htabBranch_noWalk {s : State} (h : s.NoWalk) (offset : Nat) :
    exec (.htabBranch offset) s = .refused .noWalk := by
  obtain h | ⟨pos, d, h⟩ := h <;> simp only [exec, execHtabBranch, h]

theorem endWalk_of_walk {s : State} {pos : Nat} {w : Walk} {d : Option Leaf} (he : s.engine = some ⟨pos, some w, d⟩)
    (leaf : Leaf) : endWalk leaf s = .next { s with engine := some ⟨pos, none, some leaf⟩ } := by
  simp only [endWalk, he]

theorem endWalk_noWalk {s : State} (h : s.NoWalk) (leaf : Leaf) : endWalk leaf s = .refused .noWalk := by
  obtain h | ⟨pos, d, h⟩ := h <;> simp only [endWalk, h]

/-- Settles O8: a bit that is read moves the walk, a bit past the end of MDB raises MDB_RANGE (20_memory.md R85,
R86). -/
theorem branchWordMovesTheWalk : Obligations.BranchWordMovesTheWalk := by
  refine ⟨fun s offset pos w d b bit e he hp hb hbit hw => ?_, fun s offset pos w d he hp => ?_,
    fun s offset h => exec_htabBranch_noWalk h offset⟩
  · subst hbit
    exact exec_htabBranch_moves he (readBit_at hp hb) hw
  · exact ⟨_, spectrumLost_forget s.mem, exec_htabBranch_raises he (readBit_past hp)⟩

/-- Settles O9: a leaf word of either kind of table is `endWalk` of its leaf. -/
theorem leafWordsEndTheWalk : Obligations.LeafWordsEndTheWalk :=
  ⟨fun _ _ _ _ he => ⟨fun x y => endWalk_of_walk he (.pair x y), fun a b x y => endWalk_of_walk he (.quad a b x y)⟩,
    fun _ h => ⟨fun x y => endWalk_noWalk h (.pair x y), fun a b x y => endWalk_noWalk h (.quad a b x y)⟩⟩

/-! ## The leaf words of a table -/

/-- The table word, as an instruction, of a leaf. -/
def Leaf.instr : Leaf → Instr
  | .pair x y => .htabLeafPair x y
  | .quad v w x y => .htabLeafQuad v w x y

theorem exec_leafInstr (leaf : Leaf) (s : State) : exec leaf.instr s = endWalk leaf s := by
  cases leaf <;> rfl

/-- The leaf a walk of a table of HTAB answers is a leaf word of that kind of table (30_encoding.md R123). -/
theorem walk_leaf_decodes {table : TableId} {m : Memory} {pos pos' : Nat} {e : Half}
    (h : walk table.words m pos = .ok (e, pos')) :
    ∃ leaf : Leaf, decodeTableHalf table.form e = .ok leaf.instr := by
  cases table with
  | pair t =>
    obtain ⟨hok, h15⟩ := walk_pair_leaf h
    exact ⟨.pair _ _, decodeTableHalf_pairLeaf h15 (pairLeafOk_lt hok).1⟩
  | quad c1sel =>
    obtain ⟨hok, h15⟩ := walk_quad_leaf h
    have hle : e.toNat ≤ 15 := of_decide_eq_true hok
    exact ⟨.quad _ _ _ _, decodeTableHalf_quadLeaf h15 (by omega)⟩

/-! ## The words of a table one by one -/

/-- A walk that answers has a word at its index: that word is the leaf, or a branch whose bit is read and from whose
target the walk goes on. -/
theorem walkFrom_ok {ws : List Half} {m : Memory} {fuel i pos pos' : Nat} {e : Half}
    (h : walkFrom ws m fuel i pos = .ok (e, pos')) :
    ∃ n e₀, fuel = n + 1 ∧ ws[i]? = some e₀ ∧
      ((e₀.getLsbD 15 = false ∧ e = e₀ ∧ pos' = pos) ∨
        ∃ bit p, e₀.getLsbD 15 = true ∧ readBit m pos = .ok (bit, p) ∧
          walkFrom ws m n (branchTarget i (65536 - e₀.toNat) bit) p = .ok (e, pos')) := by
  cases fuel with
  | zero => cases h
  | succ n =>
    unfold walkFrom at h
    split at h
    · cases h
    · rename_i e₀ hw
      refine ⟨n, e₀, rfl, hw, ?_⟩
      split at h
      · rename_i h15
        split at h
        · cases h
        · rename_i bit p hb
          exact .inr ⟨bit, p, h15, hb, h⟩
      · rename_i h15
        cases h
        exact .inl ⟨by simpa using h15, rfl, rfl⟩

/-- From any index: each branch word is one step, and so is the leaf word. -/
theorem run_walkFrom {table : TableId} {snap : Snapshot} {leaf : Leaf} {e : Half} {pos' : Nat} {d : Option Leaf}
    (hleaf : decodeTableHalf table.form e = .ok leaf.instr) {fuel i pos : Nat} {e₀ : Half} {s : State}
    (hp : s.phase = .busy snap) (hi : s.inputs = []) (he : s.engine = some ⟨pos, some ⟨table, i, e₀⟩, d⟩)
    (hw₀ : table.words[i]? = some e₀) (hwalk : walkFrom table.words s.mem fuel i pos = .ok (e, pos')) :
    ∃ n, Host.Core.run Sys2Proof.core n s = .next { s with engine := some ⟨pos', none, some leaf⟩ } := by
  induction fuel generalizing i pos e₀ s with
  | zero => cases hwalk
  | succ fuel ih =>
    obtain ⟨n, e₁, hn, hw, hcase⟩ := walkFrom_ok hwalk
    obtain rfl : fuel = n := Nat.succ.inj hn
    obtain rfl : e₀ = e₁ := Option.some.inj (hw₀.symm.trans hw)
    obtain ⟨-, rfl, rfl⟩ | ⟨bit, p, h15, hb, hrest⟩ := hcase
    · have hstep := (step_table hp hi he hleaf).trans ((exec_leafInstr leaf s).trans (endWalk_of_walk he leaf))
      exact ⟨1, core_run_succ 0 hstep⟩
    · obtain ⟨n, e₂, -, hw₂, -⟩ := walkFrom_ok hrest
      have hstep := (step_table hp hi he (decodeTableHalf_branch _ h15)).trans (exec_htabBranch_moves he hb hw₂)
      obtain ⟨k, hk⟩ := ih (s := { s with engine := some ⟨p, some ⟨table, _, e₂⟩, d⟩ }) hp hi rfl hw₂ hrest
      exact ⟨k + 1, (core_run_succ k hstep).trans hk⟩

/-- Settles O7: by induction along the walk, whose leaf is a leaf word of the table. -/
theorem tableWordsComputeTheWalk : Obligations.TableWordsComputeTheWalk := by
  intro s snap table e₀ e pos pos' d hp hi he hw₀ hwalk
  obtain ⟨leaf, hleaf⟩ := walk_leaf_decodes hwalk
  obtain ⟨n, hn⟩ := run_walkFrom hleaf hp hi he hw₀ hwalk
  exact ⟨n, leaf, by cases leaf <;> exact hleaf, hn⟩

end Sys2Proof.Machine
end

section
/-! PROOF. The walks of the tables of HTAB: where they end, and the codewords they read. -/

namespace Sys2Proof.Machine

/-- A reader that moves by at most `n` bits ends in no walk outside its table, and its cursor stays in those bits. -/
theorem ReadsAtMost.walk_bounds {m : Memory} {pos n : Nat} {r : Except Stop (Half × Nat)} (h : ReadsAtMost m pos n r) :
    r ≠ .error (.fault .walkLeftTable) ∧ ∀ e pos', r = .ok (e, pos') → pos ≤ pos' ∧ pos' ≤ pos + n := by
  refine ⟨fun hr => ?_, fun e pos' hr => ?_⟩
  · rw [hr] at h
    obtain hs | hs := h.stop_eq <;> cases hs
  · rw [hr] at h
    exact h

/-- A walk of pair table `t` answers a leaf exactly where MDB holds a codeword of it in the code of the table. -/
theorem walk_pair_iff {m : Memory} {t pos pos' : Nat} {e : Half} : walk (Config.pairWords t) m pos = .ok (e, pos') ↔
    ∃ w, (w, e) ∈ Config.pairCode (Config.codeTable t) ∧ HoldsBits m pos w ∧ pos' = pos + w.length := by
  simp only [walk_iff, (Config.pairWords_spells t).mem_iff]

theorem walk_quad_iff {m : Memory} {tableB : Bool} {pos pos' : Nat} {e : Half} :
    walk (Config.quadWords tableB) m pos = .ok (e, pos') ↔
      ∃ w, (w, e) ∈ Config.quadCode tableB ∧ HoldsBits m pos w ∧ pos' = pos + w.length := by
  simp only [walk_iff, (Config.quadWords_spells tableB).mem_iff]

/-- Settles O5: the tables have the form of 30_encoding.md R123 and spell their codes. -/
theorem walksEndAtLeaves : Obligations.WalksEndAtLeaves := by
  refine ⟨fun t m pos _ => ?_, fun tableB m pos => ?_,
    fun t e _ he h15 => (Config.tableOk_iff.mp (Config.pairWords_tableOk t)).2 e he h15,
    fun tableB e he h15 => (Config.tableOk_iff.mp (Config.quadWords_tableOk tableB)).2 e he h15,
    fun t m pos pos' e _ => walk_pair_iff, fun tableB m pos pos' e => walk_quad_iff⟩
  · obtain ⟨hleft, hpos⟩ := (walk_pair_reads m t pos).walk_bounds
    exact ⟨hleft, fun e pos' h => ⟨(walk_pair_leaf h).1, hpos e pos' h⟩⟩
  · obtain ⟨hleft, hpos⟩ := (walk_quad_reads m tableB pos).walk_bounds
    exact ⟨hleft, fun e pos' h => ⟨(walk_quad_leaf h).1, hpos e pos' h⟩⟩

end Sys2Proof.Machine
end

section
/-! PROOF. The codewords of tables 1, A and B with their sign bits, and the escapes. -/

namespace Sys2Proof.Machine

/-! ## Values (30_encoding.md R125; 40_huffman.md R160) -/

theorem pairValue_escape {m : Memory} {linbits extra pos : Nat} {negative : Bool} (hl : 0 < linbits)
    (hx : extra < 2 ^ linbits) (h : HoldsBits m pos (bitsMsb linbits extra ++ [negative])) :
    pairValue m linbits 15 pos =
      .ok (if negative then -(15 + (extra : Int)) else 15 + (extra : Int), pos + linbits + 1) := by
  obtain ⟨hbits, hsign⟩ := bitsMsb_append_holds h
  unfold pairValue
  rw [if_pos ⟨hl, rfl⟩, readBits_holds hbits hx]
  simp only [Nat.zero_mul, Nat.zero_add]
  rw [signed_bit (by omega) hsign]
  push_cast
  rfl

theorem pairValue_noEscape {linbits mag : Nat} (h : linbits = 0 ∨ mag ≠ 15) (m : Memory) (pos : Nat) :
    pairValue m linbits mag pos = signed m mag pos := if_neg (by omega)

/-! ## Codewords (30_encoding.md R126, R127, R130, R131) -/

/-- A codeword of a pair table without escapes, with the sign bits of the values whose magnitudes its leaf has. -/
theorem decodePair_holds {m : Memory} {t pos : Nat} {w : List Bool} {e : Half} {x y : Int}
    (hl : Config.linbits t = 0) (hw : (w, e) ∈ Config.pairCode (Config.codeTable t)) (hx : e.toNat / 16 = x.natAbs)
    (hy : e.toNat % 16 = y.natAbs) (h : HoldsBits m pos (w ++ signBits [x, y])) :
    decodePair m t pos = .ok ([x, y], pos + (w ++ signBits [x, y]).length) := by
  obtain ⟨hword, hsigns⟩ := holdsBits_append h
  rw [signBits_cons] at hsigns
  obtain ⟨h1, h2⟩ := holdsBits_append hsigns
  have hwalk := walk_pair_iff.mpr ⟨w, hw, hword, rfl⟩
  unfold decodePair
  simp only [hwalk, hx, hy, pairValue_noEscape (.inl hl), signed_holds h1, signed_holds h2]
  rw [signBits_cons x [y], List.length_append, List.length_append]
  simp only [Nat.add_assoc]

theorem SmallValue.natAbs_cases {x : Int} (h : SmallValue x) : x.natAbs = 0 ∨ x.natAbs = 1 := by
  unfold SmallValue at h
  omega

/-- `table1Bits` begins with the codeword of table 1 whose leaf has the magnitudes of the pair. -/
theorem table1Bits_eq {x y : Int} (hx : SmallValue x) (hy : SmallValue y) :
    ∃ w e, table1Bits x y = w ++ signBits [x, y] ∧ (w, e) ∈ Config.pairCode 1 ∧ e.toNat / 16 = x.natAbs ∧
      e.toNat % 16 = y.natAbs := by
  unfold table1Bits
  obtain hx | hx := hx.natAbs_cases <;> obtain hy | hy := hy.natAbs_cases <;> rw [hx, hy]
  · exact ⟨_, 0x00#16, rfl, by decide, rfl, rfl⟩
  · exact ⟨_, 0x01#16, rfl, by decide, rfl, rfl⟩
  · exact ⟨_, 0x10#16, rfl, by decide, rfl, rfl⟩
  · exact ⟨_, 0x11#16, rfl, by decide, rfl, rfl⟩

theorem decodePair_table1 {m : Memory} {pos : Nat} {x y : Int} (hx : SmallValue x) (hy : SmallValue y)
    (h : HoldsBits m pos (table1Bits x y)) : decodePair m 1 pos = .ok ([x, y], pos + (table1Bits x y).length) := by
  obtain ⟨w, e, hbits, hw, hx, hy⟩ := table1Bits_eq hx hy
  rw [hbits] at h ⊢
  exact decodePair_holds rfl hw hx hy h

/-- The codeword of four magnitudes in table A or B, which are 1 where the Boolean is true. -/
def quadCodeword (tableB v w x y : Bool) : List Bool :=
  if tableB then [!v, !w, !x, !y]
  else Config.tableACodes.getD (8 * v.toNat + 4 * w.toNat + 2 * x.toNat + y.toNat) []

/-- The leaf of four magnitudes (30_encoding.md R121). -/
def quadLeaf (v w x y : Bool) : Half := BitVec.ofNat 16 (8 * v.toNat + 4 * w.toNat + 2 * x.toNat + y.toNat)

theorem quadCodeword_mem : ∀ tableB v w x y : Bool,
    (quadCodeword tableB v w x y, quadLeaf v w x y) ∈ Config.quadCode tableB := by
  decide

theorem quadLeaf_bits : ∀ v w x y : Bool, (quadLeaf v w x y).getLsbD 3 = v ∧ (quadLeaf v w x y).getLsbD 2 = w ∧
    (quadLeaf v w x y).getLsbD 1 = x ∧ (quadLeaf v w x y).getLsbD 0 = y := by
  decide

theorem SmallValue.toNat_ne_zero {v : Int} (h : SmallValue v) : (v != 0).toNat = v.natAbs := by
  by_cases hv : v = 0
  · subst hv; rfl
  · have hne : (v != 0) = true := by simpa using hv
    obtain h | h := h.natAbs_cases
    · omega
    · rw [hne, h]; rfl

theorem quadBits_eq {tableB : Bool} {v w x y : Int} (hv : SmallValue v) (hw : SmallValue w) (hx : SmallValue x)
    (hy : SmallValue y) : quadBits tableB (v, w, x, y) =
      quadCodeword tableB (v != 0) (w != 0) (x != 0) (y != 0) ++ signBits [v, w, x, y] := by
  have hmin : ∀ {u : Int}, SmallValue u → min u.natAbs 1 = (u != 0).toNat := fun {u} hu =>
    (min_eq_left hu).trans hu.toNat_ne_zero.symm
  have hnot : ∀ u : Int, (!(u != 0)) = (u == 0) := fun u => Bool.not_not _
  simp only [quadBits, quadCodeword, quadIndex, hmin hv, hmin hw, hmin hx, hmin hy, hnot]

theorem decodeQuad_holds {m : Memory} {pos : Nat} {tableB : Bool} {v w x y : Int} (hv : SmallValue v)
    (hw : SmallValue w) (hx : SmallValue x) (hy : SmallValue y) (h : HoldsBits m pos (quadBits tableB (v, w, x, y))) :
    decodeQuad m tableB pos = .ok ([v, w, x, y], pos + (quadBits tableB (v, w, x, y)).length) := by
  rw [quadBits_eq hv hw hx hy] at h ⊢
  obtain ⟨hword, hsigns⟩ := holdsBits_append h
  have hwalk := walk_quad_iff.mpr ⟨_, quadCodeword_mem tableB (v != 0) (w != 0) (x != 0) (y != 0), hword, rfl⟩
  obtain ⟨h3, h2, h1, h0⟩ := quadLeaf_bits (v != 0) (w != 0) (x != 0) (y != 0)
  have hmags : [v != 0, w != 0, x != 0, y != 0].map Bool.toNat = [v, w, x, y].map Int.natAbs := by
    simp only [List.map_cons, List.map_nil, hv.toNat_ne_zero, hw.toNat_ne_zero, hx.toNat_ne_zero,
      hy.toNat_ne_zero]
  unfold decodeQuad
  simp only [hwalk, h3, h2, h1, h0, quadValues_holds hmags hsigns, List.length_append, Nat.add_assoc]

/-- Settles O4: the codewords of tables 1, A and B are those their words spell, and a value is its escape bits, if any,
and its sign. -/
theorem listedCodewordsDecode : Obligations.ListedCodewordsDecode := by
  refine ⟨fun m pos x y hx hy => decodePair_table1 hx hy, fun m pos tableB v w x y hv hw hx hy =>
    decodeQuad_holds hv hw hx hy, fun m linbits extra pos negative hl hx => pairValue_escape hl hx,
    fun m linbits mag pos negative hmag hne h => ?_, fun m linbits pos => ?_, fun m t pos p₁ p₂ p₃ e x y hw hx hy => ?_,
    fun t ht => ?_, by decide⟩
  · rw [pairValue_noEscape hmag, signed_bit hne h]
  · rw [pairValue_noEscape (.inr (by decide))]
    rfl
  · simp only [decodePair, hw, hx, hy]
  · interval_cases t <;> rfl

end Sys2Proof.Machine
end

section
/-! PROOF. HUFF decodes a granule written with tables 0, 1, A and B. -/

namespace Sys2Proof.Machine

/-! ## The loops on coded pairs and quads (40_huffman.md R157, R158, R165) -/

/-- Every pair a list holds is coded with table 0 or 1. -/
theorem CodablePairs.table_le {table : Nat → Nat} {k : Nat} {pairs : List (Int × Int)} (h : CodablePairs table k pairs)
    {j : Nat} (hj : j < pairs.length) : table (k + 2 * j) ≤ 1 := by
  induction pairs generalizing k j with
  | nil => cases hj
  | cons p ps ih =>
    obtain ⟨hp, hps⟩ := h
    cases j with
    | zero => obtain ⟨ht, -⟩ | ⟨ht, -⟩ := hp <;> simp only [Nat.mul_zero, Nat.add_zero, ht] <;> decide
    | succ j =>
      rw [show k + 2 * (j + 1) = k + 2 + 2 * j by ring]
      exact ih hps (Nat.lt_of_succ_lt_succ hj)

/-- The coefficients of a list of pairs. -/
def valuesOfPairs (pairs : List (Int × Int)) : List Int := pairs.flatMap (fun p => [p.1, p.2])

/-- The coefficients of a list of quads. -/
def valuesOfQuads (quads : List (Int × Int × Int × Int)) : List Int :=
  quads.flatMap (fun q => [q.1, q.2.1, q.2.2.1, q.2.2.2])

theorem valuesOfPairs_length (pairs : List (Int × Int)) : (valuesOfPairs pairs).length = 2 * pairs.length := by
  simp [valuesOfPairs, List.length_flatMap, Nat.mul_comm]

theorem valuesOfQuads_length (quads : List (Int × Int × Int × Int)) :
    (valuesOfQuads quads).length = 4 * quads.length := by
  simp [valuesOfQuads, List.length_flatMap, Nat.mul_comm]

/-- The pair loop reads a list of coded pairs back. -/
theorem decodePairs_holds {ops : Snapshot} {r1 r2 : Nat} {m : Memory} {pairs : List (Int × Int)} {k pos : Nat}
    (hc : CodablePairs (ops.tableAt r1 r2) k pairs) (h : HoldsBits m pos (codedPairs (ops.tableAt r1 r2) k pairs)) :
    decodePairs ops r1 r2 m pairs.length k pos =
      .ok (valuesOfPairs pairs, pos + (codedPairs (ops.tableAt r1 r2) k pairs).length) := by
  induction pairs generalizing k pos with
  | nil => rfl
  | cons p ps ih =>
    obtain ⟨hp, hps⟩ := hc
    obtain ⟨h1, h2⟩ := holdsBits_append h
    have hpair : decodePair m (ops.tableAt r1 r2 k) pos = .ok ([p.1, p.2],
        pos + (if ops.tableAt r1 r2 k = 0 then [] else table1Bits p.1 p.2).length) := by
      obtain ⟨ht, rfl⟩ | ⟨ht, hx, hy⟩ := hp
      · rw [ht]
        exact decodePair_table0 m pos
      · rw [ht, if_neg (by decide)] at h1 ⊢
        exact decodePair_table1 hx hy h1
    simp only [decodePairs, List.length_cons, hpair, ih hps h2, codedPairs, valuesOfPairs, List.flatMap_cons,
      List.length_append, Nat.add_assoc]

theorem quadBits_length_pos {tableB : Bool} {v w x y : Int} (hv : SmallValue v) (hw : SmallValue w)
    (hx : SmallValue x) (hy : SmallValue y) : 0 < (quadBits tableB (v, w, x, y)).length := by
  have hpos : ∀ tableB v w x y : Bool, 0 < (quadCodeword tableB v w x y).length := by decide
  rw [quadBits_eq hv hw hx hy, List.length_append]
  exact Nat.add_pos_left (hpos ..) _

/-- Four values of -1, 0 or 1. -/
def SmallQuad (q : Int × Int × Int × Int) : Prop :=
  SmallValue q.1 ∧ SmallValue q.2.1 ∧ SmallValue q.2.2.1 ∧ SmallValue q.2.2.2

/-- The count1 loop reads a list of coded quads back where they end exactly at the end position. -/
theorem decodeQuads_holds {m : Memory} {tableB : Bool} {quads : List (Int × Int × Int × Int)}
    {fuel idx pos endPos : Nat} (hq : ∀ q ∈ quads, SmallQuad q) (hfuel : quads.length ≤ fuel)
    (hidx : idx + 4 * quads.length ≤ 576) (h : HoldsBits m pos (quads.flatMap (quadBits tableB)))
    (hend : endPos = pos + (quads.flatMap (quadBits tableB)).length) :
    decodeQuads m tableB endPos fuel idx pos = .ok (valuesOfQuads quads, endPos) := by
  induction quads generalizing fuel idx pos with
  | nil =>
    obtain rfl : endPos = pos := hend
    cases fuel with
    | zero => rfl
    | succ fuel => simp only [decodeQuads, Nat.lt_irrefl, and_false, if_false, valuesOfQuads, List.flatMap_nil]
  | cons q qs ih =>
    obtain ⟨v, w, x, y⟩ := q
    obtain ⟨hv, hw, hx, hy⟩ : SmallValue v ∧ SmallValue w ∧ SmallValue x ∧ SmallValue y := hq _ (List.mem_cons_self ..)
    rw [List.flatMap_cons] at h hend
    rw [List.length_append] at hend
    rw [List.length_cons] at hfuel hidx
    obtain ⟨h1, h2⟩ := holdsBits_append h
    have hlen := quadBits_length_pos (tableB := tableB) hv hw hx hy
    obtain ⟨fuel, rfl⟩ := Nat.exists_eq_add_of_le' (Nat.one_le_of_lt hfuel)
    have hrest := ih (fuel := fuel) (idx := idx + 4) (fun q hm => hq q (List.mem_cons_of_mem _ hm)) (by omega)
      (by omega) h2 (by omega)
    have hin : idx < 576 ∧ pos < endPos := by omega
    simp only [decodeQuads, hin, and_self, if_true, decodeQuad_holds hv hw hx hy h1, hrest, valuesOfQuads,
      List.flatMap_cons]

/-! ## The granule (40_huffman.md R155, R168 to R170) -/

/-- No region that holds a pair coded with table 0 or 1 selects table 4 or 14 (40_huffman.md R155). -/
theorem tablesOk_of_codable {ops : Snapshot} {r1 r2 : Nat} {pairs : List (Int × Int)}
    (hr : ops.regions = some (r1, r2)) (hbv : ops.bv = pairs.length)
    (hc : CodablePairs (ops.tableAt r1 r2) 0 pairs) : ops.tablesOk r1 r2 = true := by
  obtain ⟨hlt, -, heven1, heven2, hpos⟩ := Snapshot.regions_bounds hr
  have small : ∀ k, k % 2 = 0 → k < 2 * ops.bv → reservedTable (ops.tableAt r1 r2 k) = false := fun k hk hkn => by
    have := hc.table_le (j := k / 2) (by omega)
    rw [show 0 + 2 * (k / 2) = k by omega] at this
    simp only [reservedTable, Bool.or_eq_false_iff, decide_eq_false_iff_not]
    omega
  have h0 : 0 < 2 * ops.bv → reservedTable ops.ts0 = false := fun h => by
    simpa only [Snapshot.tableAt, hpos, if_true] using small 0 rfl h
  have h1 : r1 < 2 * ops.bv → reservedTable ops.ts1 = false := fun h => by
    simpa only [Snapshot.tableAt, Nat.lt_irrefl, hlt, if_true, if_false] using small r1 heven1 h
  have h2 : r2 < 2 * ops.bv → reservedTable ops.ts2 = false := fun h => by
    simpa only [Snapshot.tableAt, Nat.lt_irrefl, Nat.lt_asymm hlt, if_false] using small r2 heven2 h
  simp only [Snapshot.tablesOk, Bool.and_eq_true, Bool.not_eq_true', ← Bool.not_eq_true, decide_eq_true_eq, not_and,
    and_imp]
  rw [Bool.not_eq_true, Bool.not_eq_true, Bool.not_eq_true]
  exact ⟨⟨fun h _ => h0 h, fun h _ => h1 h⟩, fun h _ => h2 h⟩

theorem exec_huff_of_ok {s : State} {r : HuffResult} (h : huffDecode Config.overrunSlack s.operands s.mem = .ok r) :
    exec .huff s = .next (finish (commitHuff s.operands r s)) := by
  simp only [exec, execHuff, huffWith, h]

/-- Regions that end exactly at the end position keep every quad and raise no flag (40_huffman.md R164, R167, R168). -/
theorem huffResult_exact {slack : Nat} {ops : Snapshot} {r1 r2 : Nat} {pv qv : List Int} {pp : Nat}
    (hp : pp ≤ ops.endPos) (hm : qv.length % 4 = 0) (hlen : 2 * ops.bv + qv.length ≤ 576) :
    (huffResult slack ops r1 r2 pv pp qv ops.endPos).rollback = false ∧
      (huffResult slack ops r1 r2 pv pp qv ops.endPos).overrun = false ∧
      (huffResult slack ops r1 r2 pv pp qv ops.endPos).nz = 2 * ops.bv + qv.length := by
  have hroll : (huffResult slack ops r1 r2 pv pp qv ops.endPos).rollback = false := by
    rw [← Bool.not_eq_true, huffResult_rollback hm]
    omega
  refine ⟨hroll, decide_eq_false (by omega), ?_⟩
  rw [huffResult_nz hm, hroll, if_neg Bool.false_ne_true, Nat.sub_zero, min_eq_left hlen]

/-- IS[k] after HUFF stored all of `vals` and zeros after them. -/
theorem spectrum_half_zeroFilled (m : Memory) {vals : List Int} (hlen : vals.length ≤ 576) :
    ∀ k, k < 576 → (m.store (isAddr 0) (spectrumBytes (zeroFilled vals vals.length))).half (isAddr k) =
      some (BitVec.ofInt 16 (vals.getD k 0)) := by
  intro k hk
  have hz : k < (zeroFilled vals vals.length).length := by rwa [zeroFilled_length hlen le_rfl]
  obtain ⟨hin, hout⟩ := zeroFilled_getElem? (vals := vals) le_rfl k
  rw [spectrum_half m _ k hz]
  congr 2
  apply Option.some.inj
  rw [← List.getElem?_eq_getElem hz]
  rcases Nat.lt_or_ge k vals.length with h | h
  · rw [hin h, List.getElem?_eq_getElem h, List.getD_eq_getElem _ _ h]
  · rw [hout h hk, List.getD_eq_default _ _ h]

/-- Settles O30: the loops read the pairs and the quads back, and the end position is where the quads end. -/
theorem huffDecodesAnEncodedGranule : Obligations.HuffDecodesAnEncodedGranule := by
  intro s r1 r2 pairs quads table htable hpairs hquads hlen hbig hr h0 hbits hend
  obtain rfl : table = s.operands.tableAt r1 r2 := funext htable
  obtain ⟨hpbits, hqbits⟩ := holdsBits_append hbits
  have hbv : s.operands.bv = pairs.length := by
    rw [Snapshot.bv, hbig]
    exact min_eq_left (by unfold Config.bvMax; omega)
  have hclamp : s.operands.clamped = false := decide_eq_false (by unfold Config.bvMax; omega)
  replace hend : s.operands.endPos = _ := hend
  rw [List.length_append, ← Nat.add_assoc] at hend
  have hp := decodePairs_holds hpairs hpbits
  rw [← hbv] at hp
  have hq := decodeQuads_holds (idx := 2 * s.operands.bv) (fuel := 144) hquads (by omega) (by omega) hqbits hend
  have hok := huffDecode_ok (slack := Config.overrunSlack) h0 hr (tablesOk_of_codable hr hbv hpairs) hp hq
  have hpl := valuesOfPairs_length pairs
  have hql := valuesOfQuads_length quads
  obtain ⟨hroll, hover, hnz⟩ := huffResult_exact (slack := Config.overrunSlack) (r1 := r1) (r2 := r2)
    (pv := valuesOfPairs pairs) (qv := valuesOfQuads quads) (Nat.le.intro hend.symm) (by omega) (by omega)
  rw [hbv, hql] at hnz
  have hspectrum := spectrum_half_zeroFilled s.mem (vals := valuesOfPairs pairs ++ valuesOfQuads quads)
    (by rw [List.length_append]; omega)
  rw [List.length_append, hpl, hql, ← hnz] at hspectrum
  refine ⟨_, exec_huff_of_ok hok, rfl, hroll, hover, hclamp, rfl, ?_, rfl, hspectrum⟩
  rw [finish_hufNonzero, commitHuff_hufNonzero, hnz, BitVec.toNat_ofNat, Nat.mod_eq_of_lt (by omega)]

end Sys2Proof.Machine
end

section
/-! PROOF. The binary32 multiplication: one rounding of the exact product, and what a multiplication answers by the classes
of its operands (41_antialias.md R216 to R218). -/

namespace Sys2Proof.F32

/-! ## Multiplications of finite operands -/

theorem mul_of_finite {a b : Word} (ha : isFinite a = true) (hb : isFinite b = true) :
    mul a b = withSign (sign a != sign b) (roundMag (magUnits a * magUnits b) 149) := by
  obtain ⟨hna, hia⟩ := not_nan_of_finite ha
  obtain ⟨hnb, hib⟩ := not_nan_of_finite hb
  simp only [mul, hna, hia, hnb, hib, Bool.or_self, Bool.false_eq_true, if_false]

/-- The exact product has the product of the signs. -/
theorem units_mul (a b : Word) : units a * units b =
    if (sign a != sign b) = true then -((magUnits a * magUnits b : Nat) : Int) else (magUnits a * magUnits b : Nat) := by
  unfold units
  cases sign a <;> cases sign b <;> simp

theorem abs_units_mul (a b : Word) : |units a * units b| = (magUnits a * magUnits b : Nat) := by
  rw [units_mul]
  split
  · rw [abs_neg, Nat.abs_cast]
  · rw [Nat.abs_cast]

theorem mul_nearest {a b : Word} (ha : isFinite a = true) (hb : isFinite b = true) (hab : isFinite (mul a b) = true)
    (c : Word) :
    |units (mul a b) * 2 ^ 149 - units a * units b| ≤ |units c * 2 ^ 149 - units a * units b| ∧
      (|units (mul a b) * 2 ^ 149 - units a * units b| = |units c * 2 ^ 149 - units a * units b| →
        units c ≠ units (mul a b) → (mul a b).toNat % 2 = 0) := by
  rw [mul_of_finite ha hb] at hab ⊢
  rw [isFinite_withSign _ (roundMag_lt _ _)] at hab
  exact withSign_roundMag_nearest (units_mul a b) hab c

/-- A product of finite operands is infinite exactly when its one rounding overflows. -/
theorem mul_not_finite_iff {a b : Word} (ha : isFinite a = true) (hb : isFinite b = true) :
    isFinite (mul a b) = false ↔ roundMag (magUnits a * magUnits b) 149 = infPattern := by
  have hle := roundMag_le (magUnits a * magUnits b) 149
  rw [mul_of_finite ha hb, ← Bool.not_eq_true, isFinite_withSign _ (roundMag_lt _ _)]
  omega

theorem mul_overflow_iff {a b : Word} (ha : isFinite a = true) (hb : isFinite b = true) :
    isFinite (mul a b) = false ↔ (2 ^ 25 - 1) * 2 ^ 401 ≤ |units a * units b| := by
  rw [mul_not_finite_iff ha hb, roundMag_overflow, abs_units_mul]
  omega

theorem isInf_withSign_infPattern (neg : Bool) : isInf (withSign neg infPattern) = true := by cases neg <;> decide

theorem mul_overflow {a b : Word} (ha : isFinite a = true) (hb : isFinite b = true) (h : isFinite (mul a b) = false) :
    isInf (mul a b) = true := by
  rw [mul_of_finite ha hb, (mul_not_finite_iff ha hb).mp h]
  exact isInf_withSign_infPattern _

theorem mul_sign {a b : Word} (ha : isFinite a = true) (hb : isFinite b = true) :
    sign (mul a b) = (sign a != sign b) := by rw [mul_of_finite ha hb, sign_withSign _ (roundMag_lt _ _)]

/-! ## NaN, infinity and zero -/

theorem mul_operands_comm (a b : Word) : mul a b = mul b a := by
  simp only [mul, Bool.or_comm (isNaN a), Bool.or_comm (isInf a), Bool.or_comm (isZero a), bne_comm (a := sign a),
    Nat.mul_comm (magUnits a)]

theorem mul_nan {a b : Word} (h : isNaN a = true ∨ isNaN b = true) : isNaN (mul a b) = true := by
  rw [mul, if_pos (Bool.or_eq_true_iff.mpr h)]
  decide

theorem isZero_of_isInf {a : Word} (h : isInf a = true) : isZero a = false := by
  simp only [isInf, Bool.and_eq_true, decide_eq_true_eq] at h
  simp [isZero, h.1]

theorem mul_inf {a b : Word} (ha : isInf a = true) (hb : isNaN b = false) :
    mul a b = if isZero b then nan else withSign (sign a != sign b) infPattern := by
  simp only [mul, isNaN_of_isInf ha, hb, ha, isZero_of_isInf ha, Bool.or_self, Bool.true_or, Bool.false_or,
    Bool.false_eq_true, if_false, if_true]

theorem mul_inf_zero {a b : Word} (ha : isInf a = true) (hb : isNaN b = false) (hz : isZero b = true) :
    isNaN (mul a b) = true := by
  rw [mul_inf ha hb, if_pos hz]
  decide

theorem mul_inf_nonzero {a b : Word} (ha : isInf a = true) (hb : isNaN b = false) (hz : isZero b = false) :
    mul a b = if sign a = sign b then 0x7F800000#32 else 0xFF800000#32 := by
  rw [mul_inf ha hb, hz, if_neg Bool.false_ne_true]
  cases sign a <;> cases sign b <;> rfl

/-- A zero times a finite value is the zero of the product of the signs (41_antialias.md R217). -/
theorem mul_zero_left {z c : Word} (hz : isZero z = true) (hc : isFinite c = true) :
    mul z c = withSign (sign z != sign c) 0 := by
  have hp := (isZero_iff z).mp hz
  have hzf : isFinite z = true := by rw [isFinite_iff, hp]; decide
  have hm : magUnits z = 0 := by rw [magUnits_eq, hp]; rfl
  rw [mul_of_finite hzf hc, hm, Nat.zero_mul, show roundMag 0 149 = 0 by decide]

/-- Settles O38: a product of finite operands is one rounding of the exact product, which is nearest, and even on a tie; the
rest is read off the classes of the operands. -/
theorem multiplicationRoundsToNearestEven : Obligations.MultiplicationRoundsToNearestEven := by
  refine ⟨fun a b ha hb hab c _ => mul_nearest ha hb hab c,
    fun a b ha hb => ⟨mul_overflow_iff ha hb, mul_overflow ha hb, mul_sign ha hb⟩,
    fun a b h => mul_nan h, fun a b ha hb => ⟨fun hz => ?_, fun hz => ⟨mul_inf_nonzero ha hb hz, mul_operands_comm b a⟩⟩⟩
  have hnan := mul_inf_zero ha hb hz
  exact ⟨hnan, mul_operands_comm b a ▸ hnan⟩

end Sys2Proof.F32
end

section
/-! PROOF. ALIAS: where it completes, what each butterfly leaves in its two entries, and the entries it never touches
(41_antialias.md R210 to R221). -/

namespace Sys2Proof.Machine

/-! ## What ALIAS stores -/

/-- Where the entries around its boundaries are written ALIAS completes (41_antialias.md R210). -/
theorem exec_antialias_completes {bt : BlockType} {mixed : Bool} {s : State}
    (h : ∀ sb, sb < boundaryCount bt mixed → s.mem.Written (xrAddr (18 * sb + 10)) 64) :
    ∃ t, exec (.antialias bt mixed) s = .next t := by
  have hsome : (aliasBoundaries s.draw s.mem (boundaryCount bt mixed) 0 s.mem).isSome = true :=
    aliasBoundaries_isSome fun b _ hb => h b (by omega)
  obtain ⟨m, hm⟩ := Option.isSome_iff_exists.mp hsome
  exact ⟨finish { s with mem := m, draws := s.draws + 576 }, by simp only [exec, execAntialias, hm]⟩

/-- The 16 entries around a boundary after ALIAS are those of `boundaryWords` on the entries at START. -/
theorem exec_antialias_boundary {bt : BlockType} {mixed : Bool} {s t : State} (h : exec (.antialias bt mixed) s = .next t)
    {sb : Nat} (hsb : sb < boundaryCount bt mixed) :
    ∃ B : List Word, (∀ j, j < 16 → s.mem.word (xrAddr (18 * sb + 10 + j)) = some (B.getD j 0)) ∧
      ∀ j (hj : j < (boundaryWords (fun j => s.draw (18 * sb + 10 + j)) B).length),
        t.mem.word (xrAddr (18 * sb + 10 + j)) = some (boundaryWords (fun j => s.draw (18 * sb + 10 + j)) B)[j] := by
  obtain ⟨m, hm, rfl⟩ := exec_antialias_next h
  obtain ⟨B, hB, hword⟩ := aliasBoundaries_word hm (Nat.zero_le sb) (by omega)
  refine ⟨B, fun j hj => ?_, fun j hj => ?_⟩
  · rw [← Memory.words_getD hB hj]
    congr 1
    simp only [xrAddr]
    omega
  · rw [finish_mem, hword j (by rwa [boundaryWords_length] at hj), List.getElem?_eq_getElem hj]

/-- Both entries of butterfly `i` of boundary `sb` after ALIAS, from their values at START (41_antialias.md R212). -/
theorem exec_antialias_butterfly {bt : BlockType} {mixed : Bool} {s t : State}
    (h : exec (.antialias bt mixed) s = .next t) {sb i : Nat} {lo up cs ca : Word} (hsb : sb < boundaryCount bt mixed)
    (hi : i < 8) (hlo : s.mem.word (xrAddr (18 * sb + 17 - i)) = some lo)
    (hup : s.mem.word (xrAddr (18 * (sb + 1) + i)) = some up) (hcs : Config.cs[i]? = some cs)
    (hca : Config.ca[i]? = some ca) :
    t.mem.word (xrAddr (18 * sb + 17 - i)) = some (F32.settle (s.draw (18 * sb + 17 - i)) (butterflyLow lo up cs ca)) ∧
      t.mem.word (xrAddr (18 * (sb + 1) + i)) =
        some (F32.settle (s.draw (18 * (sb + 1) + i)) (butterflyHigh lo up cs ca)) := by
  obtain ⟨B, hstart, hend⟩ := exec_antialias_boundary h hsb
  have elo : 18 * sb + 17 - i = 18 * sb + 10 + (7 - i) := by omega
  have eup : 18 * (sb + 1) + i = 18 * sb + 10 + (8 + i) := by omega
  rw [elo] at hlo ⊢
  rw [eup] at hup ⊢
  have hBlo : B.getD (7 - i) 0 = lo := Option.some.inj ((hstart (7 - i) (by omega)).symm.trans hlo)
  have hBup : B.getD (8 + i) 0 = up := Option.some.inj ((hstart (8 + i) (by omega)).symm.trans hup)
  have hcs' : Config.cs.getD i 0 = cs := by rw [List.getD_eq_getElem?_getD, hcs]; rfl
  have hca' : Config.ca.getD i 0 = ca := by rw [List.getD_eq_getElem?_getD, hca]; rfl
  constructor
  · rw [hend (7 - i) (by rw [boundaryWords_length]; omega), boundaryWords_getElem, if_pos (by omega),
      show 15 - (7 - i) = 8 + i by omega, show 7 - (7 - i) = i by omega, hBlo, hBup, hcs', hca']
  · rw [hend (8 + i) (by rw [boundaryWords_length]; omega), boundaryWords_getElem, if_neg (by omega),
      show 15 - (8 + i) = 7 - i by omega, show 8 + i - 8 = i by omega, hBlo, hBup, hcs', hca']

/-- Settles O33: each boundary's entries are `boundaryWords` of those at START, and a stored NaN is the free one of its
draw. -/
theorem aliasAppliesItsButterflies : Obligations.AliasAppliesItsButterflies := by
  refine ⟨fun bt mixed s hw => ?_, fun d r h => F32.settle_of_not_nan h, fun d r h => ?_,
    fun r x hr hx => ⟨x, (F32.settle_of_nan hr).trans (F32.nanOf_self hx)⟩, fun x => ?_, rfl, rfl⟩
  · obtain ⟨t, ht⟩ := exec_antialias_completes hw
    exact ⟨t, ht, fun sb i lo up cs ca hsb hi hlo hup hcs hca => exec_antialias_butterfly ht hsb hi hlo hup hcs hca⟩
  · rw [F32.settle_of_nan h]
    exact F32.isNaN_nanOf d
  · rw [F32.isNaN_iff, F32.expo_eq, F32.frac_eq]

/-! ## What ALIAS leaves alone -/

/-- Settles O35: an entry that lies around no boundary is none of those ALIAS stores. -/
theorem aliasNeverTouchesMiddleEntries : Obligations.AliasNeverTouchesMiddleEntries := by
  intro bt mixed s t sb i hsb hi h hmid
  refine Memory.word_congr fun j hj => exec_antialias_get h fun b hb => ?_
  have := boundaryCount_le bt mixed
  simp only [xrAddr]
  omega

/-- Settles O34: a pure short block has no boundary, so nothing is read and nothing stored. -/
theorem aliasSkipsPureShortBlocks : Obligations.AliasSkipsPureShortBlocks := by
  refine ⟨fun bt mixed hbt => ?_, rfl, fun s => ⟨_, rfl, rfl, rfl⟩⟩
  cases bt with
  | normal | start | stop => rfl
  | short => exact absurd rfl hbt

/-! ## Silence -/

/-- The constants are finite, every cs_i positive and every ca_i negative (41_antialias.md R211). -/
theorem antialias_constants : ∀ i, i < 8 → ∃ cs ca, Config.cs[i]? = some cs ∧ Config.ca[i]? = some ca ∧
    F32.isFinite cs = true ∧ F32.sign cs = false ∧ F32.isFinite ca = true ∧ F32.sign ca = true := by
  intro i hi
  interval_cases i <;> exact ⟨_, _, rfl, rfl, by decide⟩

/-- A butterfly of two +0 gives two +0: +0 - (-0) and +0 + (-0) are +0 (41_antialias.md R221). -/
theorem butterfly_silent {cs ca : Word} (hcs : F32.isFinite cs = true) (hcs' : F32.sign cs = false)
    (hca : F32.isFinite ca = true) (hca' : F32.sign ca = true) :
    butterflyLow F32.plusZero F32.plusZero cs ca = F32.plusZero ∧
      butterflyHigh F32.plusZero F32.plusZero cs ca = F32.plusZero := by
  have hz : F32.isZero F32.plusZero = true := by decide
  unfold butterflyLow butterflyHigh
  rw [F32.mul_zero_left hz hcs, F32.mul_zero_left hz hca, hcs', hca']
  decide

/-- The entries around a boundary with only +0 around it stay +0. -/
theorem exec_antialias_silent {bt : BlockType} {mixed : Bool} {s t : State} (h : exec (.antialias bt mixed) s = .next t)
    {sb : Nat} (hsb : sb < boundaryCount bt mixed) (hz : ∀ k, k < 576 → s.mem.word (xrAddr k) = some F32.plusZero)
    {j : Nat} (hj : j < 16) : t.mem.word (xrAddr (18 * sb + 10 + j)) = some F32.plusZero := by
  have hcount := boundaryCount_le bt mixed
  have hpair : ∀ i, i < 8 → t.mem.word (xrAddr (18 * sb + 17 - i)) = some F32.plusZero ∧
      t.mem.word (xrAddr (18 * (sb + 1) + i)) = some F32.plusZero := fun i hi => by
    obtain ⟨cs, ca, hcs, hca, hfs, hss, hfa, hsa⟩ := antialias_constants i hi
    obtain ⟨hlow, hhigh⟩ := butterfly_silent hfs hss hfa hsa
    have hbutterfly := exec_antialias_butterfly h hsb hi (hz _ (by omega)) (hz _ (by omega)) hcs hca
    rwa [hlow, hhigh, F32.settle_of_not_nan (by decide), F32.settle_of_not_nan (by decide)] at hbutterfly
  rcases Nat.lt_or_ge j 8 with hj8 | hj8
  · rw [show 18 * sb + 10 + j = 18 * sb + 17 - (7 - j) by omega]
    exact (hpair (7 - j) (by omega)).1
  · rw [show 18 * sb + 10 + j = 18 * (sb + 1) + (j - 8) by omega]
    exact (hpair (j - 8) (by omega)).2

/-- The bytes of a word at an address of XR. -/
theorem Memory.get_xr {m : Memory} {k : Nat} {w : Word} (h : m.word (xrAddr k) = some w) {a : Nat}
    (h1 : xrAddr k ≤ a) (h2 : a < xrAddr (k + 1)) : m.get a = some (w.byteAt (a - xrAddr k)) := by
  have := Memory.get_of_word h (j := a - xrAddr k) (by simp only [xrAddr] at h1 h2 ⊢; omega)
  rwa [Nat.add_sub_cancel' h1] at this

/-- Settles O36: a byte around a boundary belongs to an entry that stays +0, any other byte is never stored. -/
theorem aliasKeepsSilence : Obligations.AliasKeepsSilence := by
  intro bt mixed s hz
  have hcount := boundaryCount_le bt mixed
  have hwritten : ∀ sb, sb < boundaryCount bt mixed → s.mem.Written (xrAddr (18 * sb + 10)) 64 := fun sb hsb j hj => by
    rw [Memory.get_xr (hz (18 * sb + 10 + j / 4) (by omega)) (by simp only [xrAddr]; omega) (by simp only [xrAddr]; omega)]
    rfl
  obtain ⟨t, ht⟩ := exec_antialias_completes hwritten
  refine ⟨t, ht, fun a => ?_⟩
  by_cases ha : ∀ sb, sb < boundaryCount bt mixed → a < xrAddr (18 * sb + 10) ∨ xrAddr (18 * sb + 26) ≤ a
  · exact exec_antialias_get ht ha
  · push Not at ha
    obtain ⟨sb, hsb, hlo, hhi⟩ := ha
    obtain ⟨j, hj⟩ : ∃ j, j = (a - xrAddr (18 * sb + 10)) / 4 := ⟨_, rfl⟩
    simp only [xrAddr] at hlo hhi hj
    have h1 : xrAddr (18 * sb + 10 + j) ≤ a := by simp only [xrAddr]; omega
    have h2 : a < xrAddr (18 * sb + 10 + j + 1) := by simp only [xrAddr]; omega
    rw [Memory.get_xr (exec_antialias_silent ht hsb hz (j := j) (by omega)) h1 h2, Memory.get_xr (hz _ (by omega)) h1 h2]

end Sys2Proof.Machine
end

section
/-! PROOF. HYBRID: where it completes, what it leaves of a subband's samples and overlap, and how near, or exactly
where, its transforms meet the formulas (42_hybrid_imdct.md R230 to R246). -/

namespace Sys2Proof.Machine

/-! ## The transform of a subband (42_hybrid_imdct.md R231, R245) -/

theorem transform_long {bt : BlockType} {mixed : Bool} {sb : Nat} {b : LongWindow}
    (h : transformOf bt mixed sb = some b) (n : Nat) (X : List Word) :
    transform n bt mixed sb X = Config.imdct.long n b (fun k => X.getD k.val 0) := by
  simp only [transform, h]

theorem transform_short {bt : BlockType} {mixed : Bool} {sb : Nat} (h : transformOf bt mixed sb = none) (n : Nat)
    (X : List Word) : transform n bt mixed sb X = Config.imdct.short n (fun k => X.getD k.val 0) := by
  simp only [transform, h]

/-- Subbands 0 and 1 of a mixed short block take the long form with window 0 (42_hybrid_imdct.md R231). -/
theorem transformOf_short_eq_normal {mixed : Bool} {sb : Nat} (h : mixed = true ∧ sb < 2) :
    transformOf .short mixed sb = some .normal := if_pos h

/-- Every other subband of a short block takes the short form (42_hybrid_imdct.md R231). -/
theorem transformOf_short_eq_none {mixed : Bool} {sb : Nat} (h : mixed = false ∨ 2 ≤ sb) :
    transformOf .short mixed sb = none := by
  refine if_neg fun ⟨hmixed, hlow⟩ => ?_
  rcases h with h | h
  · exact absurd (hmixed.symm.trans h) (by decide)
  · omega

/-- The 18 inputs of a transform as a function of their index and as the list HYBRID reads. -/
theorem getD_ofFn_input (X : Fin 18 → Word) : (fun k : Fin 18 => (List.ofFn X).getD k.val 0) = X := by
  funext k
  rw [List.getD_eq_getElem _ _ (by simp), List.getElem_ofFn]

/-- Zero inputs give +0 everywhere (42_hybrid_imdct.md R237, R245). -/
theorem transform_silent (n : Nat) (bt : BlockType) (mixed : Bool) (sb : Nat) {X : Fin 18 → Word}
    (hX : Exact.AllZero X) (i : Fin 36) : transform n bt mixed sb (List.ofFn X) i = F32.plusZero := by
  cases h : transformOf bt mixed sb with
  | some b => rw [transform_long h, getD_ofFn_input]; exact Config.imdct.long_silent n b X i hX
  | none => rw [transform_short h, getD_ofFn_input]; exact Config.imdct.short_silent n X i hX

/-- Finite inputs give +0 where the window is 0 or no short window reaches (42_hybrid_imdct.md R245, R246). -/
theorem transform_edge (n : Nat) {bt : BlockType} {mixed : Bool} {sb : Nat} {X : Fin 18 → Word}
    (hX : Exact.AllFinite X) {i : Fin 36} (he : transformEdge bt mixed sb i = true) :
    transform n bt mixed sb (List.ofFn X) i = F32.plusZero := by
  cases h : transformOf bt mixed sb with
  | some b =>
    simp only [transformEdge, h] at he
    rw [transform_long h, getD_ofFn_input]
    exact Config.imdct.long_edge n b X i hX he
  | none =>
    simp only [transformEdge, h] at he
    rw [transform_short h, getD_ofFn_input]
    exact Config.imdct.short_edge n X i hX he

/-- Finite inputs give an output within TOL_IMDCT of the exact one, where that is in range (42_hybrid_imdct.md R245). -/
theorem transform_close (n : Nat) {bt : BlockType} {mixed : Bool} {sb : Nat} {X : Fin 18 → Word}
    (hX : Exact.AllFinite X) {i : Fin 36} (hr : Exact.InRange (exactTransform bt mixed sb X i)) :
    F32.isFinite (transform n bt mixed sb (List.ofFn X) i) = true ∧
      |Exact.real (transform n bt mixed sb (List.ofFn X) i) - exactTransform bt mixed sb X i| ≤
        (Config.imdct.tol : ℝ) * Exact.absSum X := by
  cases h : transformOf bt mixed sb with
  | some b =>
    simp only [exactTransform, h] at hr ⊢
    rw [transform_long h, getD_ofFn_input]
    exact Config.imdct.long_close n b X i hX hr
  | none =>
    simp only [exactTransform, h] at hr ⊢
    rw [transform_short h, getD_ofFn_input]
    exact Config.imdct.short_close n X i hX hr

/-- The short form has its edges at outputs 0 to 5 and 30 to 35 (42_hybrid_imdct.md R234). -/
theorem transformEdge_short {bt : BlockType} {mixed : Bool} {sb i : Nat} (h : transformOf bt mixed sb = none)
    (hi : i < 6 ∨ 30 ≤ i) : transformEdge bt mixed sb i = true := by
  simpa only [transformEdge, h, Exact.shortEdge, Bool.or_eq_true, decide_eq_true_eq] using hi

/-! ## What HYBRID stores (42_hybrid_imdct.md R240, R243) -/

/-- Where XR is written HYBRID completes (42_hybrid_imdct.md R243, R244). -/
theorem exec_hybrid_completes {ch : Channel} {bt : BlockType} {mixed : Bool} {s : State}
    (h : s.mem.Written (xrAddr 0) 2304) :
    ∃ t, exec (.hybrid ch bt mixed) s = .next t ∧ t.status.done = true ∧ t.phase = .idle := by
  obtain ⟨⟨xs, os⟩, hs⟩ := Option.isSome_iff_exists.mp
    (hybridSubbands_isSome (ch := ch) (bt := bt) (mixed := mixed) (n := 32) (sb := 0) (Nat.le_refl _) h)
  refine ⟨finish { s with
    mem := (s.mem.store (xrAddr 0) (wordListBytes xs)).store (ovlAddr ch 0 0) (wordListBytes os)
    draws := s.draws + 576 }, ?_, rfl, rfl⟩
  simp only [exec, execHybrid, hs]

/-- The list HYBRID reads where the 18 entries of a subband hold `X`. -/
theorem words_xr_subband {m : Memory} {sb : Nat} {X : Fin 18 → Word}
    (h : ∀ k : Fin 18, m.word (xrAddr (18 * sb + k)) = some (X k)) :
    m.words (xrAddr (18 * sb)) 18 = some (List.ofFn X) := by
  rw [Memory.words_eq]
  refine Memory.wordsFrom_eq (List.length_ofFn ..) fun k hk => ?_
  rw [List.getElem_ofFn, ← h, show xrAddr (18 * sb) + 4 * k = xrAddr (18 * sb + k) by simp only [xrAddr]; omega]

section
variable {ch : Channel} {bt : BlockType} {mixed : Bool} {s t : State} {sb : Nat}

/-- The new overlap of a subband is the second half of the transform of its inputs. -/
theorem exec_hybrid_overlap (h : exec (.hybrid ch bt mixed) s = .next t) (hsb : sb < 32) {X : List Word}
    (hX : s.mem.words (xrAddr (18 * sb)) 18 = some X) {i : Nat} (hi : i < 18) :
    t.mem.word (ovlAddr ch sb i) = some (transform (s.draws + sb) bt mixed sb X ⟨18 + i, by omega⟩) := by
  obtain ⟨X', O, hX', -, hword⟩ := exec_hybrid_words h hsb
  obtain rfl : X = X' := Option.some.inj (hX.symm.trans hX')
  exact (hword i hi).2

/-- The samples of a subband are the first half of the transform, added to the carried overlap. -/
theorem exec_hybrid_sample (h : exec (.hybrid ch bt mixed) s = .next t) (hsb : sb < 32) {X : List Word}
    (hX : s.mem.words (xrAddr (18 * sb)) 18 = some X) {i : Nat} (hi : i < 18) {v : Word}
    (hv : s.mem.word (ovlAddr ch sb i) = some v) :
    t.mem.word (xrAddr (18 * sb + i)) = some (overlapAdd (s.draw (18 * sb + i))
      (transform (s.draws + sb) bt mixed sb X ⟨i, by omega⟩) v) := by
  obtain ⟨X', O, hX', hO, hword⟩ := exec_hybrid_words h hsb
  obtain rfl : X = X' := Option.some.inj (hX.symm.trans hX')
  have hOv : O.getD i 0 = v := by
    rw [show ovlAddr ch sb i = ovlAddr ch sb 0 + 4 * i by simp only [ovlAddr]; omega, Memory.words_getD hO hi] at hv
    exact Option.some.inj hv
  rw [(hword i hi).1, hOv]

/-- Where the transform's output is +0 the sample is a finite carried overlap, but that -0 becomes +0
(42_hybrid_imdct.md R240, R246). -/
theorem exec_hybrid_sample_plusZero (h : exec (.hybrid ch bt mixed) s = .next t) (hsb : sb < 32) {X : List Word}
    (hX : s.mem.words (xrAddr (18 * sb)) 18 = some X) {i : Nat} (hi : i < 18) {v : Word}
    (hv : s.mem.word (ovlAddr ch sb i) = some v) (hfin : F32.isFinite v = true)
    (ho : transform (s.draws + sb) bt mixed sb X ⟨i, by omega⟩ = F32.plusZero) :
    t.mem.word (xrAddr (18 * sb + i)) = some (if F32.isZero v then F32.plusZero else v) := by
  rw [exec_hybrid_sample h hsb hX hi hv, ho, overlapAdd_plusZero hfin]

end

/-- A carried overlap of zero keeps the value of a finite transform output (42_hybrid_imdct.md R240). -/
theorem overlapAdd_zero_right {draw o v : Word} (ho : F32.isFinite o = true) (hv : F32.isFinite v = true)
    (hz : F32.isZero v = true) :
    F32.isFinite (overlapAdd draw o v) = true ∧ Exact.real (overlapAdd draw o v) = Exact.real o := by
  have hrange : |F32.units o + F32.units v| ≤ (2 ^ 24 - 1) * 2 ^ 253 := by
    rw [(F32.units_eq_zero v).mpr hz, Int.add_zero]
    exact F32.units_abs_le ho
  obtain ⟨hfin, hunits⟩ := F32.add_zero_right hz ho
  rw [overlapAdd_inRange ho hv hrange]
  exact ⟨hfin, by rw [Exact.real, Exact.real, hunits]⟩

/-! ## The statements -/

/-- Settles O39: each subband's words are those its own 18 inputs and overlaps give, under the form and window of
R231. -/
theorem hybridOverlapAddsEverySubband : Obligations.HybridOverlapAddsEverySubband := by
  refine ⟨fun ch bt mixed s hw => ?_, fun n sb mixed X => ⟨transform_long rfl n X, transform_long rfl n X,
    transform_long rfl n X, fun h => transform_long (transformOf_short_eq_normal h) n X,
    fun h => transform_short (transformOf_short_eq_none h) n X⟩, fun draw o v => ⟨overlapAdd_inRange, overlapAdd_open⟩⟩
  obtain ⟨t, ht, hdone, hidle⟩ := exec_hybrid_completes hw
  exact ⟨t, ht, hdone, hidle, fun sb X hsb hX i hi =>
    ⟨exec_hybrid_overlap ht hsb hX hi, fun v hv => exec_hybrid_sample ht hsb hX hi hv⟩⟩

/-- Settles O40: a silent transform is +0 in both halves, and +0 passes the carried overlap on. -/
theorem silentSubbandPassesItsOverlap : Obligations.SilentSubbandPassesItsOverlap := by
  intro ch bt mixed s t sb i v hsb hi h hzero hv hfin
  choose X hX hX0 using fun k : Fin 18 => hzero k k.isLt
  have hwords := words_xr_subband hX
  have hsilent := transform_silent (s.draws + sb) bt mixed sb hX0
  exact ⟨by rw [exec_hybrid_overlap h hsb hwords hi, hsilent],
    exec_hybrid_sample_plusZero h hsb hwords hi hv hfin (hsilent _)⟩

/-- Settles O41: both halves of the transform keep the bound, and the sample of a zero overlap keeps its output's
value. -/
theorem hybridMeetsItsTolerance : Obligations.HybridMeetsItsTolerance := by
  intro ch bt mixed s t sb i hi X hsb h hX hfinX
  have hwords := words_xr_subband hX
  refine ⟨fun hr => ⟨_, exec_hybrid_overlap h hsb hwords hi, transform_close _ hfinX hr⟩, fun he => ?_,
    fun v hv hfin => ⟨fun hr => ?_, fun he => ?_⟩⟩
  · rw [exec_hybrid_overlap h hsb hwords hi, transform_edge _ hfinX he]
  · have hsample := exec_hybrid_sample h hsb hwords hi hv
    obtain ⟨ho, hclose⟩ := transform_close (s.draws + sb) hfinX hr
    exact ⟨_, ho, hclose, fun hsum => by rw [hsample, overlapAdd_inRange ho hfin hsum],
      fun hz => ⟨_, hsample, overlapAdd_zero_right ho hfin hz⟩⟩
  · exact exec_hybrid_sample_plusZero h hsb hwords hi hv hfin (transform_edge _ hfinX he)

/-- Settles O42: the first and the last six outputs of the short form are its edges. -/
theorem shortFormEdgesAreExact : Obligations.ShortFormEdgesAreExact := by
  intro ch bt mixed s t sb X hsb h hshort hX hfinX
  have hwords := words_xr_subband hX
  refine ⟨fun i hlo hi => ?_, fun i v hi hv hfin => ?_⟩
  · have he := transformEdge_short hshort (.inr (Nat.add_le_add_left hlo 18))
    rw [exec_hybrid_overlap h hsb hwords hi, transform_edge _ hfinX he]
  · exact exec_hybrid_sample_plusZero h hsb hwords (by omega) hv hfin
      (transform_edge _ hfinX (transformEdge_short hshort (.inl hi)))

end Sys2Proof.Machine
end

section
/-! PROOF. ROUND, and where its two readings differ (43_synthesis.md R270, R271). -/

namespace Sys2Proof.Machine

/-! ## ROUND by the sign of s + 1/2, taken in units of 2^-149 -/

theorem roundPcm_truncHalfNeg (s : Word) : roundPcm .truncHalfNeg s =
    max (-32768) (min (if F32.units s + 2 ^ 148 < 0 then (F32.units s + 2 ^ 148).tdiv (2 ^ 149) - 1
      else (F32.units s + 2 ^ 148).tdiv (2 ^ 149)) 32767) := by
  simp only [roundPcm, decide_eq_true_iff]

theorem roundPcm_truncResultNeg (s : Word) : roundPcm .truncResultNeg s =
    max (-32768) (min (if (F32.units s + 2 ^ 148).tdiv (2 ^ 149) < 0 then (F32.units s + 2 ^ 148).tdiv (2 ^ 149) - 1
      else (F32.units s + 2 ^ 148).tdiv (2 ^ 149)) 32767) := by
  simp only [roundPcm, decide_eq_true_iff]

/-- From -1/2 up both readings round half up. -/
theorem roundPcm_of_nonneg (reading : PcmRounding) {s : Word} (h : 0 ≤ F32.units s + 2 ^ 148) :
    roundPcm reading s = max (-32768) (min ((F32.units s + 2 ^ 148) / 2 ^ 149) 32767) := by
  have hquot := Int.ediv_nonneg h (show (0 : Int) ≤ 2 ^ 149 by decide)
  cases reading with
  | truncHalfNeg => rw [roundPcm_truncHalfNeg, Int.tdiv_eq_ediv_of_nonneg h, if_neg (not_lt.mpr h)]
  | truncResultNeg => rw [roundPcm_truncResultNeg, Int.tdiv_eq_ediv_of_nonneg h, if_neg (not_lt.mpr hquot)]

/-- ROUND clamps to 16 bits. -/
theorem roundPcm_bounds (reading : PcmRounding) (s : Word) :
    -32768 ≤ roundPcm reading s ∧ roundPcm reading s ≤ 32767 :=
  ⟨le_max_left _ _, max_le (by decide) (min_le_right _ _)⟩

/-- Truncation of a negative quotient: the floor where it is exact, else one more. -/
theorem tdiv_of_neg {t d : Int} (ht : t < 0) (hd : 0 < d) :
    t.tdiv d = if t % d = 0 then t / d else t / d + 1 := by
  have hnonneg : ¬ 0 ≤ t := not_le.mpr ht
  rw [Int.tdiv_eq_ediv, Int.sign_eq_one_of_pos hd]
  simp only [hnonneg, false_or, Int.dvd_iff_emod_eq_zero]
  split
  · rw [Int.add_zero]
  · rfl

theorem roundPcm_truncHalfNeg_of_inexact {s : Word} (h : F32.units s + 2 ^ 148 < 0)
    (hr : (F32.units s + 2 ^ 148) % 2 ^ 149 ≠ 0) :
    roundPcm .truncHalfNeg s = max (-32768) (min ((F32.units s + 2 ^ 148) / 2 ^ 149) 32767) := by
  rw [roundPcm_truncHalfNeg, if_pos h, tdiv_of_neg h (by decide), if_neg hr, Int.add_sub_cancel]

theorem roundPcm_truncHalfNeg_of_exact {s : Word} (h : F32.units s + 2 ^ 148 < 0)
    (hr : (F32.units s + 2 ^ 148) % 2 ^ 149 = 0) :
    roundPcm .truncHalfNeg s = max (-32768) (min ((F32.units s + 2 ^ 148) / 2 ^ 149 - 1) 32767) := by
  rw [roundPcm_truncHalfNeg, if_pos h, tdiv_of_neg h (by decide), if_pos hr]

/-- A whole number in the 16-bit range is its own rounding. -/
theorem roundPcm_truncHalfNeg_of_whole {s : Word} {n : Int} (hlo : -32768 ≤ n) (hhi : n ≤ 32767)
    (h : F32.units s = n * 2 ^ 149) : roundPcm .truncHalfNeg s = n := by
  have hdiv : (F32.units s + 2 ^ 148) / 2 ^ 149 = n := by omega
  have hround : roundPcm .truncHalfNeg s = max (-32768) (min ((F32.units s + 2 ^ 148) / 2 ^ 149) 32767) := by
    rcases lt_or_ge (F32.units s + 2 ^ 148) 0 with hneg | hnonneg
    · exact roundPcm_truncHalfNeg_of_inexact hneg (by omega)
    · exact roundPcm_of_nonneg _ hnonneg
  rw [hround, hdiv, min_eq_left hhi, max_eq_right hlo]

/-! ## PCM samples -/

theorem pcmSample_of_finite {s : Word} (h : F32.isFinite s = true) (draw : Word) :
    pcmSample draw s = BitVec.ofInt 16 (roundPcm Config.pcmRounding s) := if_pos h

/-- The sample of an infinite or NaN amplitude is the low half of its draw (43_synthesis.md R271). -/
theorem pcmSample_of_not_finite {s : Word} (h : F32.isFinite s = false) (draw : Word) :
    pcmSample draw s = draw.extractLsb' 0 16 := if_neg (by simp [h])

theorem extractLsb'_setWidth_half (x : Half) : (x.setWidth 32).extractLsb' 0 16 = x := by
  apply BitVec.eq_of_toNat_eq
  simpa [BitVec.extractLsb'_toNat] using x.isLt

/-- Settles O47: from -1/2 up the truncation is the floor; below it the truncation is one above the floor unless it is exact,
and ROUND takes 1 off. -/
theorem roundingIsHalfUpAboveMinusHalf : Obligations.RoundingIsHalfUpAboveMinusHalf := by
  refine ⟨fun s _ => ⟨fun h => roundPcm_of_nonneg _ (by omega),
    fun h hr => roundPcm_truncHalfNeg_of_inexact (by omega) hr,
    fun h hr => roundPcm_truncHalfNeg_of_exact (by omega) hr,
    fun n hlo hhi h => roundPcm_truncHalfNeg_of_whole hlo hhi h⟩, fun s hs x => ⟨x.setWidth 32, ?_⟩⟩
  rw [pcmSample_of_not_finite hs, extractLsb'_setWidth_half]

/-- Settles O48: between -3/2 and -1/2 the truncation of s + 1/2 is 0 and s + 1/2 negative; below that both are negative. -/
theorem roundingReadingsDifferOnlyNearMinusOne : Obligations.RoundingReadingsDifferOnlyNearMinusOne := by
  refine fun s _ => ⟨fun reading => roundPcm_bounds reading s, fun ⟨hlo, hhi⟩ => ?_, fun hout => ?_⟩
  · have hneg : F32.units s + 2 ^ 148 < 0 := by omega
    have hzero : (F32.units s + 2 ^ 148).tdiv (2 ^ 149) = 0 := by
      rw [tdiv_of_neg hneg (by decide)]
      split <;> omega
    exact ⟨by rw [roundPcm_truncHalfNeg, if_pos hneg, hzero]; rfl, by rw [roundPcm_truncResultNeg, hzero]; rfl⟩
  · rcases lt_or_ge (F32.units s + 2 ^ 148) 0 with hneg | hnonneg
    · have htrunc : (F32.units s + 2 ^ 148).tdiv (2 ^ 149) < 0 := by
        rw [tdiv_of_neg hneg (by decide)]
        split <;> omega
      rw [roundPcm_truncHalfNeg, roundPcm_truncResultNeg, if_pos hneg, if_pos htrunc]
    · rw [roundPcm_of_nonneg _ hnonneg, roundPcm_of_nonneg _ hnonneg]

end Sys2Proof.Machine
end

section
/-! PROOF. SYNTH: where it completes, the history and the samples it leaves, and what one slot computes
(43_synthesis.md R260 to R277). -/

namespace Sys2Proof.Machine

/-! ## Channel 1 in mono (43_synthesis.md R274) -/

/-- Settles O43: SYNTH checks its channel before it reads; HYBRID and CLRSTATE only finish. -/
theorem monoRightRaisesBadChannel : Obligations.MonoRightRaisesBadChannel := by
  refine ⟨fun s => rfl, fun s t bt mixed h => ?_, fun s t h => ?_⟩
  · obtain ⟨xs, os, -, rfl⟩ := exec_hybrid_next h
    rfl
  · cases h
    rfl

/-! ## What SYNTH stores (43_synthesis.md R272, R275) -/

/-- PCM[2n + ch] is sample `n` of what SYNTH stores in stereo, PCM[n] in mono. -/
theorem half_store_pcmBytes (old m : Memory) (ch : Channel) {nch : Packing} {pcm : List Half} {n : Nat}
    (hn : n < pcm.length) :
    (m.store (pcmAddr 0) (pcmBytes old ch nch pcm)).half (pcmAddr (pcmIndex ch nch n)) = some pcm[n] := by
  cases nch with
  | mono =>
    rw [pcmIndex, show pcmAddr n = pcmAddr 0 + 2 * n by unfold pcmAddr; omega]
    exact Memory.half_store m (pcmAddr 0) pcm n hn
  | stereo =>
    rw [Memory.half_iff]
    intro j hj
    obtain ⟨hlt, hbyte⟩ := List.getElem?_eq_some_iff.mp
      (stereoBytes_getElem (old.slice (pcmAddr 0) 2304) ch 0 pcm n j hn hj).1
    rw [pcmIndex, show pcmAddr (2 * n + channelIndex ch) + j = pcmAddr 0 + (4 * n + 2 * channelIndex ch + j) by
      simp only [pcmAddr]; omega, pcmBytes, Memory.get_store_inside _ _ _ _ hlt, hbyte, Option.some_or]

/-- Entry `i` of V[ch] where SYNTH stored a history and then PCM samples, which lie below it. -/
theorem word_store_history (m : Memory) (ch : Channel) {V : List Word} {bs : List (Option Byte)}
    (hbs : bs.length ≤ 2304) {i : Nat} (hi : i < V.length) :
    ((m.store (vAddr ch 0) (wordListBytes V)).store (pcmAddr 0) bs).word (vAddr ch i) = some V[i] := by
  rw [Memory.word_store_outside _ _ _ _ (.inr (by simp only [pcmAddr, vAddr]; omega)),
    show vAddr ch i = vAddr ch 0 + 4 * i by simp only [vAddr]; omega, Memory.word_store _ _ _ _ hi]

/-- Where XR and V[ch] hold the entries `XR` and `V`, SYNTH commits what their slots compute. -/
theorem exec_synth_of_entries {ch : Channel} {nch : Packing} {s : State} {XR V : List Word}
    (hc : ¬ (ch = .right ∧ nch = .mono)) (hXRl : XR.length = 576) (hVl : V.length = 1024)
    (hXR : ∀ k (h : k < XR.length), s.mem.word (xrAddr k) = some XR[k])
    (hV : ∀ i (h : i < V.length), s.mem.word (vAddr ch i) = some V[i]) :
    exec (.synth ch nch) s = .next (finish (commitSynth ch nch XR V s)) := by
  have hxr : readXr s.mem 32 0 = some XR :=
    readXr_eq hXRl fun k hk => by rw [Nat.mul_zero, Nat.zero_add]; exact hXR k hk
  have hhist : readHistory s.mem ch 16 0 = some V :=
    readHistory_eq hVl fun k hk => by rw [Nat.mul_zero, Nat.zero_add]; exact hV k hk
  have hbad : ¬ badChannel ch nch = true := fun h => hc (badChannel_eq_true.mp h)
  simp only [exec, execSynth, if_neg hbad, hxr, hhist]

theorem commitSynth_history (ch : Channel) (nch : Packing) (XR : List Word) {V : List Word} (s : State)
    (hV : V.length = 1024) {i : Nat} (hi : i < 1024) :
    (commitSynth ch nch XR V s).mem.word (vAddr ch i) = (synthSlots s.draws XR 18 0 V).2[i]? := by
  obtain ⟨hpcm, hhist⟩ := synthSlots_length s.draws XR 18 0 V hV
  rw [commitSynth_mem, word_store_history _ _ (pcmBytes_length _ _ _ _ hpcm) (hi.trans_eq hhist.symm),
    List.getElem?_eq_getElem]

theorem commitSynth_pcm (ch : Channel) (nch : Packing) (XR : List Word) {V : List Word} (s : State)
    (hV : V.length = 1024) {n : Nat} (hn : n < 576) :
    (commitSynth ch nch XR V s).mem.half (pcmAddr (pcmIndex ch nch n)) = (synthSlots s.draws XR 18 0 V).1[n]? := by
  obtain ⟨hpcm, -⟩ := synthSlots_length s.draws XR 18 0 V hV
  rw [commitSynth_mem, half_store_pcmBytes _ _ _ (hn.trans_eq hpcm.symm), List.getElem?_eq_getElem]

/-- Settles O44: SYNTH reads the entries at START and stores what their 18 slots compute. -/
theorem synthStoresHistoryAndPcm : Obligations.SynthStoresHistoryAndPcm := by
  intro ch nch s XR V hc hXRl hVl hXR hV
  exact ⟨_, exec_synth_of_entries hc hXRl hVl hXR hV, rfl, rfl,
    fun i hi => commitSynth_history ch nch XR s hVl hi, fun n hn => commitSynth_pcm ch nch XR s hVl hn⟩

/-! ## One slot (43_synthesis.md R262 to R268) -/

theorem shiftHistory_new (V : List Word) (new : Fin 64 → Word) (i : Fin 64) :
    (shiftHistory V new)[i.val]? = some (new i) := by
  rw [shiftHistory, List.getElem?_append_left (by simp), List.getElem?_ofFn, dif_pos i.isLt]

theorem shiftHistory_old (V : List Word) (new : Fin 64 → Word) {i : Nat} (hlo : 64 ≤ i) (hi : i < 1024) :
    (shiftHistory V new)[i]? = V[i - 64]? := by
  rw [shiftHistory, List.getElem?_append_right (by simpa using hlo), List.length_ofFn,
    List.getElem?_take_of_lt (by omega)]

/-- The window input interleaves the two quarters at 128b and 128b + 96 of the history (43_synthesis.md R265). -/
theorem windowInput_quarters {V : List Word} (hV : V.length = 1024) {b j : Nat} (hb : b < 8) (hj : j < 32) :
    V[128 * b + j]? = some (windowInput V ⟨64 * b + j, by omega⟩) ∧
      V[128 * b + 96 + j]? = some (windowInput V ⟨64 * b + 32 + j, by omega⟩) := by
  have hlow : (64 * b + j) / 64 = b ∧ (64 * b + j) % 64 = j := by omega
  have hhigh : (64 * b + 32 + j) / 64 = b ∧ (64 * b + 32 + j) % 64 = 32 + j := by omega
  constructor
  · simp only [windowInput, hlow, if_pos hj]
    rw [List.getD_eq_getElem _ _ (by omega), List.getElem?_eq_getElem]
  · simp only [windowInput, hhigh, if_neg (show ¬ 32 + j < 32 by omega), Nat.add_sub_cancel_left]
    rw [List.getD_eq_getElem _ _ (by omega), List.getElem?_eq_getElem]

/-- The history after slot `ts` (43_synthesis.md R263, R264). -/
def slotHistory (draws : Nat) (XR : List Word) (ts : Nat) (V : List Word) : List Word :=
  shiftHistory V (Config.filterbank.matrix (draws + ts) (slotInput XR ts))

/-- The amplitudes of slot `ts` (43_synthesis.md R267, R268). -/
def slotAmplitude (draws : Nat) (XR : List Word) (ts : Nat) (V : List Word) : Fin 32 → Word :=
  Config.filterbank.window (draws + ts) (windowInput (slotHistory draws XR ts V))

/-- The first slot, and the slots after it from the history it leaves. -/
theorem synthSlots_succ (draws : Nat) (XR : List Word) (n ts : Nat) (V : List Word) :
    synthSlots draws XR (n + 1) ts V =
      (slotPcm (fun j => Config.freeWord (draws + (32 * ts + j))) (slotAmplitude draws XR ts V) ++
        (synthSlots draws XR n (ts + 1) (slotHistory draws XR ts V)).1,
        (synthSlots draws XR n (ts + 1) (slotHistory draws XR ts V)).2) := rfl

theorem synthSlots_drop (draws : Nat) (XR : List Word) (n ts : Nat) (V : List Word) :
    (synthSlots draws XR (n + 1) ts V).1.drop 32 = (synthSlots draws XR n (ts + 1) (slotHistory draws XR ts V)).1 := by
  rw [synthSlots_succ]
  exact List.drop_left' (slotPcm_length _ _)

/-- The samples of the first slot are ROUND of its amplitudes where those are finite (43_synthesis.md R270). -/
theorem synthSlots_sample {draws ts : Nat} {XR V : List Word} (n : Nat) {j : Fin 32}
    (h : F32.isFinite (slotAmplitude draws XR ts V j) = true) :
    (synthSlots draws XR (n + 1) ts V).1[j.val]? =
      some (BitVec.ofInt 16 (roundPcm Config.pcmRounding (slotAmplitude draws XR ts V j))) := by
  rw [synthSlots_succ, List.getElem?_append_left (by rw [slotPcm_length]; exact j.isLt), slotPcm, List.getElem?_ofFn,
    dif_pos j.isLt, pcmSample_of_finite h]

/-- Settles O45: a slot's history is its matrix outputs and then the history before it; its samples are ROUND of the window's
amplitudes; and matrix and window keep the bounds of R276. -/
theorem synthSlotShiftsHistory : Obligations.SynthSlotShiftsHistory := by
  refine ⟨fun draws ts XR V => rfl, fun draws n ts XR V hV => ⟨fun sb => rfl, slotHistory draws XR ts V, ?_⟩⟩
  have hlen : (slotHistory draws XR ts V).length = 1024 := shiftHistory_length hV _
  refine ⟨hlen, shiftHistory_new V _, fun i hfin hr => ?_, fun i hlo hi => shiftHistory_old V _ hlo hi,
    fun b j hb hj => windowInput_quarters hlen hb hj, rfl, synthSlots_drop draws XR n ts V,
    fun j hfin => synthSlots_sample n hfin, fun j hfin hr => ?_⟩
  · exact ⟨_, shiftHistory_new V _ i, Config.filterbank.matrix_close _ _ i hfin hr⟩
  · obtain ⟨hamp, hclose⟩ := Config.filterbank.window_close (draws + ts) _ j hfin hr
    exact ⟨_, hamp, hclose, synthSlots_sample n hamp⟩

/-! ## Silence (43_synthesis.md R277) -/

/-- A list of words that are all +0 or -0. -/
def ZeroWords (ws : List Word) : Prop := ∀ w ∈ ws, F32.isZero w = true

theorem ZeroWords.getD {ws : List Word} (h : ZeroWords ws) (k : Nat) : F32.isZero (ws.getD k 0) = true := by
  rcases lt_or_ge k ws.length with hk | hk
  · rw [List.getD_eq_getElem _ _ hk]
    exact h _ (List.getElem_mem hk)
  · rw [List.getD_eq_default _ _ hk]
    rfl

/-- Flipping the sign bit keeps a zero a zero (43_synthesis.md R262). -/
theorem isZero_neg (w : Word) : F32.isZero (F32.neg w) = F32.isZero w := by
  rw [Bool.eq_iff_iff, F32.isZero_iff, F32.isZero_iff, F32.neg, BitVec.toNat_xor, Nat.xor_mod_two_pow,
    show (0x80000000#32).toNat % 2 ^ 31 = 0 from rfl, Nat.xor_zero]

theorem slotInput_zero {XR : List Word} (h : ZeroWords XR) (ts : Nat) : Exact.AllZero (slotInput XR ts) := by
  intro sb
  simp only [slotInput]
  split
  · rw [isZero_neg]; exact h.getD _
  · exact h.getD _

theorem windowInput_zero {V : List Word} (h : ZeroWords V) (i : Fin 512) : F32.isZero (windowInput V i) = true := by
  simp only [windowInput]
  split <;> exact h.getD _

/-- The matrix outputs of a silent slot are +0. -/
theorem slotHistory_zero (draws : Nat) {XR : List Word} (ts : Nat) {V : List Word} (hXR : ZeroWords XR)
    (hV : ZeroWords V) : ZeroWords (slotHistory draws XR ts V) := by
  intro w hw
  rcases List.mem_append.mp hw with hnew | hold
  · obtain ⟨i, rfl⟩ := List.mem_ofFn.mp hnew
    rw [Config.filterbank.matrix_silent _ _ i (slotInput_zero hXR ts)]
    rfl
  · exact hV w (List.mem_of_mem_take hold)

theorem slotAmplitude_zero (draws : Nat) {XR : List Word} (ts : Nat) {V : List Word} (hXR : ZeroWords XR)
    (hV : ZeroWords V) (j : Fin 32) : slotAmplitude draws XR ts V j = F32.plusZero :=
  Config.filterbank.window_silent _ _ j fun _ => windowInput_zero (slotHistory_zero draws ts hXR hV) _

/-- ROUND of +0 is 0 under both readings. -/
theorem pcmSample_plusZero (draw : Word) : pcmSample draw F32.plusZero = 0#16 := by
  have hround : roundPcm Config.pcmRounding F32.plusZero = 0 := by
    rw [roundPcm_of_nonneg _ (by decide)]
    decide
  rw [pcmSample_of_finite Exact.isFinite_plusZero, hround]
  rfl

/-- Slots of a silent XR from a silent history answer samples 0 and a silent history. -/
theorem synthSlots_silent (draws : Nat) {XR : List Word} (n ts : Nat) {V : List Word} (hXR : ZeroWords XR)
    (hV : ZeroWords V) :
    (∀ x ∈ (synthSlots draws XR n ts V).1, x = 0#16) ∧ ZeroWords (synthSlots draws XR n ts V).2 := by
  induction n generalizing ts V with
  | zero => exact ⟨fun x hx => absurd hx List.not_mem_nil, hV⟩
  | succ n ih =>
    obtain ⟨hpcm, hhist⟩ := ih (ts + 1) (slotHistory_zero draws ts hXR hV)
    rw [synthSlots_succ]
    refine ⟨fun x hx => ?_, hhist⟩
    rcases List.mem_append.mp hx with hslot | hrest
    · obtain ⟨j, rfl⟩ := List.mem_ofFn.mp hslot
      rw [slotAmplitude_zero draws ts hXR hV, pcmSample_plusZero]
    · exact hpcm x hrest

/-- Entries that are all zeros are those of a list of zeros. -/
theorem exists_zeroWords {m : Memory} {addr : Nat → Nat} {n : Nat}
    (h : ∀ k, k < n → ∃ x, m.word (addr k) = some x ∧ F32.isZero x = true) :
    ∃ ws : List Word, ws.length = n ∧ ZeroWords ws ∧ ∀ k (hk : k < ws.length), m.word (addr k) = some ws[k] := by
  choose x hx hzero using fun k : Fin n => h k k.isLt
  refine ⟨List.ofFn x, List.length_ofFn, fun w hw => ?_, fun k hk => ?_⟩
  · obtain ⟨k, rfl⟩ := List.mem_ofFn.mp hw
    exact hzero k
  · rw [List.getElem_ofFn]
    exact hx ⟨k, _⟩

/-- Settles O46: the 18 slots of a silent XR and a silent history are silent. -/
theorem silenceInSilenceOut : Obligations.SilenceInSilenceOut := by
  intro ch nch s hc hxr hv
  obtain ⟨XR, hXRl, hXR0, hXR⟩ := exists_zeroWords hxr
  obtain ⟨V, hVl, hV0, hV⟩ := exists_zeroWords hv
  obtain ⟨hpcml, hhistl⟩ := synthSlots_length s.draws XR 18 0 V hVl
  obtain ⟨hpcm, hhist⟩ := synthSlots_silent s.draws 18 0 hXR0 hV0
  refine ⟨_, exec_synth_of_entries hc hXRl hVl hXR hV, fun n hn => ?_, fun i hi => ?_⟩
  · rw [finish_mem, commitSynth_pcm ch nch XR s hVl hn, List.getElem?_eq_getElem (by omega), hpcm _ (List.getElem_mem _)]
  · rw [finish_mem, commitSynth_history ch nch XR s hVl hi, List.getElem?_eq_getElem (by omega)]
    exact ⟨_, rfl, hhist _ (List.getElem_mem _)⟩

end Sys2Proof.Machine
end

section
/-! PROOF. The control commands: NOP, CLRSTATE and the reserved opcodes (44_control.md R290 to R292). -/

namespace Sys2Proof.Machine

/-! ## NOP (44_control.md R290) -/

/-- The sequencer is IDLE before a START and after its completion, so a command that only finishes leaves the phase as
it was (10_state.md R58). -/
theorem finish_acceptStart {s : State} (h : s.phase = .idle) :
    finish (acceptStart s) = { s with
      engine := none
      status := { s.status with
        done := true, err := false, errCode := .none
        bvClamp := false, empty := false, qRollback := false, bvOverrun := false } } := by
  rw [h]
  rfl

/-- Settles O21: a NOP only finishes, and a START clears what the completion leaves 0. -/
theorem nopCompletes : Obligations.NopCompletes := by
  refine ⟨fun s => rfl, fun s hp hop => ?_, by decide⟩
  have haccepted : s.parameters.op < 6 := by
    rw [show s.parameters.op = 0 from hop]
    decide
  calc runCommand s
      = exec .nop (acceptStart s) := by rw [runCommand_accepted hp haccepted, decodeCommand_nop hop]
    _ = .next (finish (acceptStart s)) := rfl
    _ = _ := by rw [finish_acceptStart hp]

/-! ## CLRSTATE (44_control.md R291) -/

theorem clearChannel_get_ovl {ch : Channel} (m : Memory) {a : Nat} (hlo : ovlAddr ch 0 0 ≤ a)
    (hhi : a < ovlAddr ch 32 0) : (clearChannel ch m).get a = some 0#8 := by
  have hch := channelIndex_le ch
  simp only [ovlAddr] at hlo hhi
  have hregion : region a = .ovl := region_ovl (by omega) (by linarith)
  rw [clearChannel, Memory.get_forget, if_neg (by simp only [vAddr]; omega), Memory.get_forget,
    if_pos (by simp only [ovlAddr]; omega), unlisted, hregion]

theorem clearChannel_get_v {ch : Channel} (m : Memory) {a : Nat} (hlo : vAddr ch 0 ≤ a) (hhi : a < vAddr ch 1024) :
    (clearChannel ch m).get a = some 0#8 := by
  have hch := channelIndex_le ch
  simp only [vAddr] at hlo hhi
  have hregion : region a = .v := region_v (by omega) (by linarith)
  rw [clearChannel, Memory.get_forget, if_pos (by simp only [vAddr]; omega), unlisted, hregion]

/-- Settles O22: CLRSTATE takes CH from bit 4 of CMD, and the forgotten bytes of OVL and V read 0. -/
theorem clrstateZeroesItsChannel : Obligations.ClrstateZeroesItsChannel :=
  ⟨fun _ hop => decodeCommand_clrstate hop, fun s ch => ⟨clearChannel ch s.mem, rfl,
    fun _ hlo hhi => clearChannel_get_ovl s.mem hlo hhi, fun _ hlo hhi => clearChannel_get_v s.mem hlo hhi,
    fun _ hovl hv => exec_clrstate_get (s := s) rfl hovl hv⟩⟩

/-! ## The reserved opcodes (44_control.md R292) -/

/-- As for a command that only finishes; MDB_RANGE, which loses IS, is left out (60_exceptions.md R313). -/
theorem raiseError_acceptStart {s : State} {c : ErrCode} (h : s.phase = .idle) (hc : c ≠ .mdbRange) :
    raiseError c (acceptStart s) = { s with
      engine := none
      status := { s.status with
        done := false, err := true, errCode := c
        bvClamp := false, empty := false, qRollback := false, bvOverrun := false } } := by
  rw [raiseError, if_neg hc, h]
  rfl

/-- Settles O23: a reserved opcode is BAD_OPCODE's error completion, as an instruction and at its START. -/
theorem reservedOpcodesRaiseBadOpcode : Obligations.ReservedOpcodesRaiseBadOpcode :=
  ⟨fun _ _ => rfl, fun _ _ => rfl, fun _ hp hop => by
    rw [start_reserved hp hop, raiseError_acceptStart hp (by decide)]⟩

end Sys2Proof.Machine
end

section
/-! PROOF. Errors, their acknowledgement and the irq output (60_exceptions.md R313 to R315). -/

namespace Sys2Proof.Machine

/-! ## Error completions (60_exceptions.md R313) -/

/-- Of the ways an instruction ends, only `raiseError` sets ERR: a completion and a moved walk leave it as it was. -/
theorem exec_eq_raiseError {i : Instr} {s t : State} (h : exec i s = .next t) (hs : s.status.err = false)
    (ht : t.status.err = true) : ∃ c, t = raiseError c s := by
  obtain ⟨m, d, rfl⟩ | ⟨-, r, -, rfl⟩ | ⟨c, -, hc⟩ | ⟨e, e', -, -, rfl⟩ := exec_next h
  · exact absurd (hs.symm.trans ht) Bool.false_ne_true
  · exact absurd (hs.symm.trans ht) Bool.false_ne_true
  · exact ⟨c, hc⟩
  · exact absurd (hs.symm.trans ht) Bool.false_ne_true

theorem raiseError_spectrumLost (s : State) : SpectrumLost s.mem (raiseError .mdbRange s).mem := by
  rw [raiseError_mem, if_pos rfl]
  exact spectrumLost_forget s.mem

/-- Settles O19: an instruction that sets ERR ended in `raiseError`, which forgets IS at MDB_RANGE alone. -/
theorem errorsArePrecise : Obligations.ErrorsArePrecise := by
  intro i s t h hs ht
  obtain ⟨c, rfl⟩ := exec_eq_raiseError h hs ht
  refine ⟨rfl, fun hc => raiseError_mem_eq hc s, fun hc => ?_⟩
  obtain rfl : c = .mdbRange := hc
  exact raiseError_spectrumLost s

/-! ## Acknowledgement (60_exceptions.md R314) -/

theorem hostWrite_status (s : State) (v : Word) : hostWrite 0x000C#16 .w4 v s = acknowledge v s :=
  hostWrite_register (r := .status) v rfl rfl rfl

/-- Settles O51: a write of STATUS is `acknowledge`, in every phase; a START that is neither dropped nor of a reserved
opcode is `acceptStart`. -/
theorem statusWriteOneToClear : Obligations.StatusWriteOneToClear :=
  ⟨hostWrite_status, fun s hb hop => by
    rw [start_accepted (busy_eq_false.mp hb) hop, acceptStart_status, Status.atStart]⟩

/-! ## The irq output (60_exceptions.md R315) -/

theorem irq_of_no_completion {s : State} (hd : s.status.done = false) (he : s.status.err = false) : s.irq = false := by
  rw [State.irq, hd, he, Bool.false_and, Bool.false_and, Bool.or_false]

theorem irq_of_done {s : State} (hd : s.status.done = true) (hi : s.irqEn.getLsbD 0 = true) : s.irq = true := by
  rw [State.irq, hd, hi, Bool.true_and, Bool.true_or]

theorem irq_of_err {s : State} (he : s.status.err = true) (hi : s.irqEn.getLsbD 1 = true) : s.irq = true := by
  rw [State.irq, he, hi, Bool.true_and, Bool.or_true]

theorem acknowledge_done_eq_false {v : Word} (h : v.getLsbD 1 = true) (s : State) :
    (acknowledge v s).status.done = false := by
  rw [acknowledge_status, Status.writeOneToClear_done, h, Bool.not_true, Bool.and_false]

theorem acknowledge_err_eq_false {v : Word} (h : v.getLsbD 2 = true) (s : State) :
    (acknowledge v s).status.err = false := by
  rw [acknowledge_status, Status.writeOneToClear_err, h, Bool.not_true, Bool.and_false]

/-- Settles O60: a completion sets the flag of its source, an acknowledgement clears it, and START, SRST and reset clear
both. -/
theorem irqFollowsCompletion : Obligations.IrqFollowsCompletion := by
  intro s
  refine ⟨rfl, fun hi => irq_of_done rfl hi, fun c hi => irq_of_err rfl hi, fun v hv => ?_, fun v hv => ?_,
    irq_of_no_completion rfl rfl, irq_of_no_completion rfl rfl, irq_of_no_completion rfl rfl⟩
  · rw [State.irq, acknowledge_done_eq_false hv, acknowledge_irqEn, Bool.false_and, Bool.false_or]
  · rw [State.irq, acknowledge_err_eq_false hv, acknowledge_irqEn, Bool.false_and, Bool.or_false]

end Sys2Proof.Machine
end

section
/-! PROOF. The two resets: the values of the registers and of every byte of the memories (70_reset_and_hazards.md R340,
R343). -/

namespace Sys2Proof.Machine

/-! ## Registers after a reset -/

theorem readReg_reset {r : Reg} (h : r ≠ .id) : readReg State.reset r = 0#32 := by
  cases r with
  | id => exact absurd rfl h
  | _ => rfl

/-- A soft reset differs from power-on in the memories and the model's own fields alone. -/
theorem readReg_softReset (s : State) (r : Reg) : readReg (softReset s) r = readReg State.reset r := by
  cases r <;> rfl

/-! ## Memories after power-on -/

theorem unlisted_eq_none {a : Nat} (h : region a = .mdb ∨ region a = .is ∨ region a = .xr ∨ region a = .pcm) :
    unlisted a = none := by
  obtain h | h | h | h := h <;> rw [unlisted, h]

theorem unlisted_carried {a : Nat} (h : region a = .ovl ∨ region a = .v) : unlisted a = some 0#8 := by
  obtain h | h := h <;> rw [unlisted, h]

theorem step_powerOn {s : State} {rest : List Input} (h : s.inputs = .powerOn :: rest) :
    step s = .next (powerOnReset { s with inputs := rest }) := by
  simp only [step, h]

/-- Settles O15: with no cell every byte reads as unlisted, and the reset input is `powerOnReset` in any state. -/
theorem resetState : Obligations.ResetState :=
  ⟨rfl, fun _ h => readReg_reset h, rfl, rfl, rfl, fun a h => (Memory.get_nil a).trans (unlisted_eq_none h),
    fun a h => (Memory.get_nil a).trans (unlisted_carried h), fun _ _ h => ⟨_, step_powerOn h, rfl⟩⟩

/-- Settles O12: the power-on reset establishes the invariant in any state, and leaves State.reset as it is. -/
theorem resetMeetsTheInvariant : Obligations.ResetMeetsTheInvariant := powerOnReset_inv State.reset

/-! ## Memories after a soft reset -/

/-- Forgetting a whole memory changes that memory alone. -/
theorem Memory.get_forget_region (m : Memory) {ρ : Region} {lo n a : Nat} (h : region a = ρ ↔ lo ≤ a ∧ a < lo + n) :
    (m.forget lo n).get a = if region a = ρ then unlisted a else m.get a := by
  rw [Memory.get_forget, if_congr h rfl rfl]

/-- OVL and V read +0.0 and the other memories as before (70_reset_and_hazards.md R343). -/
theorem clearCarried_get (m : Memory) (a : Nat) :
    (clearCarried m).get a = if region a = .ovl ∨ region a = .v then some 0#8 else m.get a := by
  obtain ⟨-, -, -, -, -, hovl, hv⟩ := region_map a
  rw [clearCarried, Memory.get_forget_region _ hv, Memory.get_forget_region _ hovl, ← ite_or]
  exact ite_congr (propext or_comm) (fun h => unlisted_carried h) fun _ => rfl

/-- The memory an abandoned command was to write, by its opcode (70_reset_and_hazards.md R343). -/
def abandonedRegion : Nat → Option Region
  | 1 => some .is
  | 2 => some .xr
  | 3 => some .xr
  | 4 => some .pcm
  | _ => none

/-- Forgetting a whole memory that can be unwritten (10_state.md R56). -/
theorem Memory.get_forget_unwritten (m : Memory) {ρ : Region} {lo n a : Nat} (h : region a = ρ ↔ lo ≤ a ∧ a < lo + n)
    (hρ : ρ = .is ∨ ρ = .xr ∨ ρ = .pcm) :
    (m.forget lo n).get a = if some ρ = some (region a) then none else m.get a := by
  rw [Memory.get_forget_region m h]
  by_cases ha : region a = ρ
  · subst ha
    rw [if_pos rfl, if_pos rfl, unlisted_eq_none (.inr hρ)]
  · rw [if_neg ha, if_neg fun h => ha (Option.some.inj h).symm]

/-- All of the memory that the abandoned command was to write is unwritten, and no other byte changes (log 25). -/
theorem abandonMemory_get (snap : Snapshot) (m : Memory) (a : Nat) :
    (abandonMemory (.busy snap) m).get a = if abandonedRegion snap.op = some (region a) then none else m.get a := by
  obtain ⟨-, -, his, hxr, hpcm, -, -⟩ := region_map a
  simp only [abandonMemory]
  match snap.op with
  | 0 => exact (if_neg nofun).symm
  | 1 => exact m.get_forget_unwritten his (by decide)
  | 2 => exact m.get_forget_unwritten hxr (by decide)
  | 3 => exact m.get_forget_unwritten hxr (by decide)
  | 4 => exact m.get_forget_unwritten hpcm (by decide)
  | _ + 5 => exact (if_neg nofun).symm

theorem abandonedRegion_iff (op : Nat) : (abandonedRegion op = some .is ↔ op = 1) ∧
    (abandonedRegion op = some .xr ↔ op = 2 ∨ op = 3) ∧ (abandonedRegion op = some .pcm ↔ op = 4) := by
  unfold abandonedRegion
  split <;> simp_all

theorem softReset_carried (s : State) {a : Nat} (h : region a = .ovl ∨ region a = .v) :
    (softReset s).mem.get a = some 0#8 := by
  rw [softReset_mem, clearCarried_get, if_pos h]

/-- Outside OVL and V a soft reset does what abandoning the command does. -/
theorem softReset_uncarried (s : State) {a : Nat} (h : ¬ (region a = .ovl ∨ region a = .v)) :
    (softReset s).mem.get a = (abandonMemory s.phase s.mem).get a := by
  rw [softReset_mem, clearCarried_get, if_neg h]

theorem softReset_idle {s : State} (hp : s.phase = .idle) {a : Nat} (h : ¬ (region a = .ovl ∨ region a = .v)) :
    (softReset s).mem.get a = s.mem.get a := by
  rw [softReset_uncarried s h, hp, abandonMemory]

theorem softReset_busy {s : State} {snap : Snapshot} (hp : s.phase = .busy snap) {a : Nat}
    (h : ¬ (region a = .ovl ∨ region a = .v)) :
    (softReset s).mem.get a = if abandonedRegion snap.op = some (region a) then none else s.mem.get a := by
  rw [softReset_uncarried s h, hp, abandonMemory_get]

/-! ## Writes of CTRL (10_state.md R34) -/

theorem hostWrite_ctrl (s : State) (v : Word) : hostWrite 0x0008#16 .w4 v s = writeCtrl v s :=
  hostWrite_register (r := .ctrl) v rfl rfl rfl

theorem writeCtrl_srst {v : Word} (h : v.getLsbD 1 = true) (s : State) : writeCtrl v s = softReset s := if_pos h

theorem writeCtrl_start {v : Word} (h0 : v.getLsbD 0 = true) (h1 : v.getLsbD 1 = false) (s : State) :
    writeCtrl v s = start s := by
  simp only [writeCtrl, h0, h1, Bool.false_eq_true, if_false, if_true]

/-- Settles O50: SRST wins over START; the registers are those of a power-on, and each byte of memory is cleared with OVL
and V, lost with the command that was to write it (log 25), or kept. -/
theorem softResetState : Obligations.SoftResetState := by
  refine fun s v hv => ⟨(hostWrite_ctrl s v).trans (writeCtrl_srst hv s),
    fun r hr => (readReg_softReset s r).trans (readReg_reset hr), rfl, rfl, fun a h => softReset_carried s h,
    fun a h => softReset_mdb s h, fun hp a h => softReset_idle hp ?_, fun snap a hp => ?_⟩
  · obtain h | h | h := h <;> rw [h] <;> decide
  · obtain ⟨his, hxr, hpcm⟩ := abandonedRegion_iff snap.op
    refine ⟨fun h => ?_, fun h => ?_, fun h => ?_⟩ <;> rw [softReset_busy hp (by rw [h]; decide), h]
    · exact if_congr his rfl rfl
    · exact if_congr hxr rfl rfl
    · exact if_congr hpcm rfl rfl

/-- Settles O49: a START is dropped while BUSY; else it is accepted, and ends at once where its opcode is reserved. -/
theorem startWriteTakesTheSnapshot : Obligations.StartWriteTakesTheSnapshot := by
  intro s v h0 h1
  have hw : hostWrite 0x0008#16 .w4 v s = start s := (hostWrite_ctrl s v).trans (writeCtrl_start h0 h1 s)
  refine ⟨fun hb => ?_, fun hb hop => ?_, fun hb hop => ?_⟩
  · obtain ⟨snap, hp⟩ := busy_eq_true.mp hb
    rw [hw, start_busy hp]
  · rw [hw, start_accepted (busy_eq_false.mp hb) hop]
    rfl
  · have hp := busy_eq_false.mp hb
    rw [hw, start_reserved hp hop, raiseError_acceptStart hp (by decide), hp]

end Sys2Proof.Machine
end

section
/-! PROOF. One step by the head of the inputs, and what the sequencer fetches (70_reset_and_hazards.md R360). -/

namespace Sys2Proof.Machine

/-! ## The head of the inputs (20_memory.md R94) -/

theorem step_nil {s : State} (h : s.inputs = []) : step s = sequencerTurn s := by
  simp only [step, h]

theorem step_sequencer {s : State} {later : List Input} (h : s.inputs = .sequencer :: later) :
    step s = sequencerTurn { s with inputs := later } := by
  simp only [step, h]

theorem step_read {s : State} {addr : Address} {width : Width} {later : List Input}
    (h : s.inputs = .read addr width :: later) : step s = hostRead addr width { s with inputs := later } := by
  simp only [step, h]

theorem step_write {s : State} {addr : Address} {width : Width} {v : Word} {later : List Input}
    (h : s.inputs = .write addr width v :: later) :
    step s = .next (hostWrite addr width v { s with inputs := later }) := by
  simp only [step, h]

/-! ## The sequencer's turn -/

theorem sequencerTurn_idle {s : State} (hp : s.phase = .idle) : sequencerTurn s = .next s := by
  simp only [sequencerTurn, hp]

theorem sequencerTurn_decoded {s : State} {snap : Snapshot} {i : Instr} {rest : List Byte} (hp : s.phase = .busy snap)
    (hd : decode (fetch snap s.engine).1 (fetch snap s.engine).2 = .ok (i, rest)) : sequencerTurn s = exec i s := by
  simp only [sequencerTurn, hp, sequencerStep, hd]

theorem sequencerTurn_undecoded {s : State} {snap : Snapshot} {e : DecodeError} (hp : s.phase = .busy snap)
    (hd : decode (fetch snap s.engine).1 (fetch snap s.engine).2 = .error e) :
    sequencerTurn s = .refused .notATableWord := by
  simp only [sequencerTurn, hp, sequencerStep, hd]

/-- Outside a walk the command word is fetched (30_encoding.md R110). -/
theorem fetch_command (snap : Snapshot) {engine : Option Engine}
    (h : engine = none ∨ ∃ pos d, engine = some ⟨pos, none, d⟩) : fetch snap engine = (.command, Word.bytes snap.cmd) := by
  obtain rfl | ⟨pos, d, rfl⟩ := h <;> rfl

/-- Inside a walk its current word is fetched (30_encoding.md R122). -/
theorem fetch_walk (snap : Snapshot) (pos : Nat) (w : Walk) (d : Option Leaf) :
    fetch snap (some ⟨pos, some w, d⟩) = (w.table.form, Half.bytes w.word) := rfl

/-- Settles O6: the step is that of the head of the inputs; a command word always decodes, a word of a walk decodes as its
table's form reads it, and what does not decode is refused. -/
theorem stepRunsDecodedInstruction : Obligations.StepRunsDecodedInstruction := by
  refine ⟨fun s snap i rest hp hd => ⟨fun hi => ?_, fun later hi => ?_⟩, fun snap engine h => ?_,
    fun snap pos w d i hd => ?_, fun s snap pos w d e hp he hd hi => ?_, fun s hp => ⟨fun hi => ?_, fun later hi => ?_⟩,
    fun s addr width later hi => step_read hi, fun s addr width v later hi => step_write hi⟩
  · rw [step_nil hi, sequencerTurn_decoded hp hd]
  · rw [step_sequencer hi, sequencerTurn_decoded (s := { s with inputs := later }) hp hd]
  · rw [fetch_command snap h, decode_command]
  · rw [fetch_walk, decode_table w.table.form_ne w.word hd]
  · rw [step_nil hi]
    refine sequencerTurn_undecoded (e := e) hp ?_
    rw [he, fetch_walk, decode_table_error w.table.form_ne w.word hd]
  · rw [step_nil hi, sequencerTurn_idle hp]
  · rw [step_sequencer hi, sequencerTurn_idle (s := { s with inputs := later }) hp]

end Sys2Proof.Machine
end
